-- ==== Sys2Proof/Word.lean ====
section
/-! DEFINITION. The words of the GNAV decoder core: bits, data words, RawStrings, and the constants of R6.
A bit of the spec, `0` or `1`, is a `Bool`. Position 1 of a bit vector is the bit received first and is its
most significant bit (R8, R11, R42). -/

namespace Sys2Proof

/-- A bit (R10). -/
abbrev Bit := Bool

/-- The 85 data bits of a string, `D[p]` being bit `85 - p` (R8, R11, R42). -/
abbrev DataWord := BitVec 85

/-- The 30 time-mark bits, `TM[i]` being bit `30 - i` (R8, R92). -/
abbrev TimeMark := BitVec 30

/-- The 115 bits of a RawString, `RS[q]` being bit `115 - q` (R8, R55). -/
abbrev RawBits := BitVec 115

/-- The receiver sample timestamp, an opaque tag that is copied and never compared (R17). The machine takes its type as
an argument; this is the instance the host runs. DESIGN CHOICE (log entry 3): naturals, as in the spec's vectors. -/
abbrev SampleTime := Nat

/-- The satellite or channel tag, an opaque tag that is only copied (R17). The machine takes its type as an argument;
this is the instance the host runs. DESIGN CHOICE (log entry 3): naturals, as in the spec's vectors. -/
abbrev SatId := Nat

/-- `L_STR` (R6): bits in a RawString. -/
abbrev lStr : Nat := 115

/-- `L_TM` (R6): time-mark bits. -/
abbrev lTm : Nat := 30

/-- `L_DATA` (R6): data bits. -/
abbrev lData : Nat := 85

/-- `N_CHK` (R6): check bits of a string. -/
abbrev nChk : Nat := 8

/-- `N_ID` (R6): string types of a superframe, the ids 1 to 15. -/
abbrev nId : Nat := 15

/-- `N_CLASS` (R6): FieldSpec classes. -/
abbrev nClass : Nat := 7

/-- `MISS_MAX` (R6): time-mark misses in a row that are tolerated (R97). -/
abbrev missMax : Nat := 1

/-- `N_ALM` (R6): almanac slots. No rule reads it (R6, R156). -/
abbrev nAlm : Nat := 24

/-- Strings per frame (R6). Only the timing figures of R216 use it, and no rule. -/
abbrev stringsPerFrame : Nat := 15

/-- Frames per superframe (R6). No rule reads it. -/
abbrev framesPerSuperframe : Nat := 5

end Sys2Proof
end

