-- ==== Sys2Proof/Syntax.lean ====
section
/-! DEFINITION. The syntax: field names, FieldSpec, the string classes, the twenty instructions (sixteen string
types and four interface operations, R4, R80) and the operations the driver may issue. -/

namespace Sys2Proof

/-- A field name (R60: "`name` a string"). Only equality of names is ever used, and only seven names are read by
a rule (R65). The names the reference table uses have a constructor each; `other k` is the `k`-th name outside
them, so that a table may use any number of further names. DESIGN CHOICE (log entry 4). -/
inductive FieldName where
  | stringId
  | p1 | tkHr | tkMin | tkS30 | xnDot | xnDdot | xn
  | bn | p2 | tb | ynDot | ynDdot | yn
  | p3 | gammaN | p | ln | znDot | znDdot | zn
  | tauN | deltaTauN | en | p4 | ft | ntEph | n | m
  | nT | tauC | n4 | tauGps | ln5
  | cn | mnA | nA | tauNA | lambdaNA | deltaINA | epsilonNA
  | omegaNA | tLambdaNA | deltaTNA | hnA | lnA
  | other (k : Nat)
deriving DecidableEq, Repr

/-- The signedness of a field (R61): unsigned, sign-magnitude or two's complement. -/
inductive Signedness where
  | u
  | sm
  | tc
deriving DecidableEq, Repr

/-- A FieldSpec `(name, start_bit, length_bits, signedness, scale)` (R60); `start` is a data position. -/
structure FieldSpec where
  name : FieldName
  start : Nat
  len : Nat
  sign : Signedness
  scale : Rat
deriving DecidableEq, Repr

/-- The seven FieldSpec classes (R59). -/
inductive FieldClass where
  | c1 | c2 | c3 | c4 | c5 | even | odd
deriving DecidableEq, Repr

/-- The time reference of a QUERY (R166). -/
inductive TimeRef where
  | glonass
  | utc
  | gps
deriving DecidableEq, Repr

/-- The data bits of a string other than its `STRING_ID`: `D[1]`, and `D[6..85]` with `D[6]` the most significant
(R49). The four id bits are the mnemonic's own. -/
structure Payload where
  first : Bit
  body : BitVec 80
deriving DecidableEq, Repr

/-- The instructions: one constructor per row of the opcode table.
A string instruction is a RawString at the end of its block (R84): the channel `c` that holds it, its data bits
other than the id, and the timestamp tag `ts` of its first bit (R57). The time mark takes no part (R84).
The interface operations carry the operands of R81, R82, R83 and R85.
The types of timestamps and satellite tags are arguments (R7, R17); left out, they are the naturals (log entry 3). -/
inductive Instr (TS : Type := SampleTime) (Sat : Type := SatId) where
  | str0 (c : Nat) (p : Payload) (ts : TS)
  | str1 (c : Nat) (p : Payload) (ts : TS)
  | str2 (c : Nat) (p : Payload) (ts : TS)
  | str3 (c : Nat) (p : Payload) (ts : TS)
  | str4 (c : Nat) (p : Payload) (ts : TS)
  | str5 (c : Nat) (p : Payload) (ts : TS)
  | str6 (c : Nat) (p : Payload) (ts : TS)
  | str7 (c : Nat) (p : Payload) (ts : TS)
  | str8 (c : Nat) (p : Payload) (ts : TS)
  | str9 (c : Nat) (p : Payload) (ts : TS)
  | str10 (c : Nat) (p : Payload) (ts : TS)
  | str11 (c : Nat) (p : Payload) (ts : TS)
  | str12 (c : Nat) (p : Payload) (ts : TS)
  | str13 (c : Nat) (p : Payload) (ts : TS)
  | str14 (c : Nat) (p : Payload) (ts : TS)
  | str15 (c : Nat) (p : Payload) (ts : TS)
  | reset (sats : List Sat)
  | chReset (c : Nat) (sat : Sat)
  | push (c : Nat) (b : Bit) (ts : TS)
  | query (sod : Rat) (ref : TimeRef)
deriving DecidableEq, Repr

/-- The operations of the core's boundary: exactly four (R80). A string is never issued as an operation: it
arrives bit by bit through PUSH. -/
inductive Op (TS : Type := SampleTime) (Sat : Type := SatId) where
  | reset (sats : List Sat)
  | chReset (c : Nat) (sat : Sat)
  | push (c : Nat) (b : Bit) (ts : TS)
  | query (sod : Rat) (ref : TimeRef)
deriving DecidableEq, Repr

/-- The instruction an operation is. -/
def Op.instr {TS Sat : Type} : Op TS Sat → Instr TS Sat
  | .reset sats => .reset sats
  | .chReset c sat => .chReset c sat
  | .push c b ts => .push c b ts
  | .query sod ref => .query sod ref

end Sys2Proof
end

