-- ==== Sys2Proof/Config.lean ====
section
/-! DEFINITION. The parameters the document leaves open (R7), as plain data, and the free values of the model.
The conditions of R204 on them are in Machine/Params.lean, their reference values in Machine/Reference.lean. -/

namespace Sys2Proof

/-- A row of the Hamming table (R106): the data position that carries the transmitted check bit, and the set of
data positions whose xor it must equal. DESIGN CHOICE (log entry 18): the set is a list without repeats. -/
structure HammingRow where
  chk : Nat
  sub : List Nat
deriving DecidableEq, Repr

/-- The Bit-Field Table: one list of FieldSpec per class (R60). -/
structure FieldTable where
  c1 : List FieldSpec
  c2 : List FieldSpec
  c3 : List FieldSpec
  c4 : List FieldSpec
  c5 : List FieldSpec
  even : List FieldSpec
  odd : List FieldSpec
deriving DecidableEq, Repr

/-- The function `EPOCH0` of an instance (R168) as plain data: the reference one; one given by its values, which a
table lists for some arguments, `otherwise` for all the others; or the `k`-th of the functions the model knows nothing
about. DESIGN CHOICE (log entry 2): State holds no function. A field has finitely many values, so that every function
is a table on all the values `N_4` can decode to. -/
inductive Epoch0 where
  | reference
  | table (values : List (Rat × Rat)) (otherwise : Rat)
  | param (k : Nat)
deriving DecidableEq, Repr

/-- The parameters of R7, constant during a run (R32, R202); `TS` and `SatId` are in Word.lean. -/
structure Config where
  nCh : Nat
  tm : TimeMark
  tSync : Nat
  ht : List HammingRow
  ft : FieldTable
  epoch0 : Epoch0
deriving DecidableEq, Repr

/-- FREE VALUE (log entry 2). `EPOCH0` of an instance whose parameter is not the reference function: some total
function from the value of `N_4` to seconds (R7, R168), of which nothing is known. -/
opaque Config.epoch0Param : Nat → Rat → Rat

/-- FREE VALUE (log entry 11). What reading a field gives from a map that does not hold it. WF4 (R65) keeps every
run from reset from such a read. -/
opaque Config.noValue : FieldName → Rat

end Sys2Proof
end

