-- ==== Sys2Proof/Decode.lean ====
section
/-! DEFINITION. From the bits of a RawString to an instruction, and back (R55, R58, R59, R77).
Every string of 115 bits decodes (R68); a string of another length is rejected by name (R55: "There is one length
only"). The interface operations have no bit encoding (R88). -/

namespace Sys2Proof

/-- `D[p]`, `1 ≤ p ≤ 85` (R8, R11: bit `85 - p`). Other positions do not exist and read 0 here; WF1 (R62) and R106
keep every table inside the range. -/
def dataBit (d : DataWord) (p : Nat) : Bit :=
  if 1 ≤ p ∧ p ≤ 85 then d.getLsbD (85 - p) else false

/-- `fld(D, s, n)` (R9): the natural number whose binary digits are `D[s] … D[s+n-1]`, most significant first. -/
def fld (d : DataWord) (s : Nat) : Nat → Nat
  | 0 => 0
  | n + 1 => 2 * fld d s n + (dataBit d (s + n)).toNat

/-- The data bits `D[1..85] = RS[31..115]` of a RawString (R8, R48). -/
def rawData (rs : RawBits) : DataWord := rs.setWidth 85

/-- The time-mark bits `RS[1..30]` of a RawString (R48). -/
def rawMark (rs : RawBits) : TimeMark := rs.extractLsb' 85 30

/-- A RawString of a time mark and a data word (R55). -/
def rawOf (mark : TimeMark) (d : DataWord) : RawBits := mark ++ d

/-- `STRING_ID = fld(D, 2, 4)` (R58, R116). -/
def stringId (d : DataWord) : Nat := fld d 2 4

/-- The data bits other than the id. -/
def payloadOf (d : DataWord) : Payload := { first := dataBit d 1, body := d.setWidth 80 }

/-- The data word of a string of the given id: `D[1]`, the four id bits `D[2..5]`, `D[6..85]` (R49). -/
def Payload.dataWord (id : BitVec 4) (p : Payload) : DataWord := BitVec.ofBool p.first ++ id ++ p.body

/-- The string instruction of an id (R59: a function of `STRING_ID` alone). An id has four bits; 0 is the only
unrecognised value (R59). -/
def instrOfId {TS Sat : Type} (id c : Nat) (p : Payload) (ts : TS) : Instr TS Sat :=
  match id with
  | 1 => .str1 c p ts
  | 2 => .str2 c p ts
  | 3 => .str3 c p ts
  | 4 => .str4 c p ts
  | 5 => .str5 c p ts
  | 6 => .str6 c p ts
  | 7 => .str7 c p ts
  | 8 => .str8 c p ts
  | 9 => .str9 c p ts
  | 10 => .str10 c p ts
  | 11 => .str11 c p ts
  | 12 => .str12 c p ts
  | 13 => .str13 c p ts
  | 14 => .str14 c p ts
  | 15 => .str15 c p ts
  | _ => .str0 c p ts

/-- The instruction a RawString is, with its two tags: the channel and the timestamp (R57). -/
def decodeRaw {TS Sat : Type} (c : Nat) (ts : TS) (rs : RawBits) : Instr TS Sat :=
  instrOfId (stringId (rawData rs)) c (payloadOf (rawData rs)) ts

/-- Why bits are no instruction. -/
inductive DecodeError where
  /-- A RawString has 115 bits and no other length (R55). -/
  | wrongLength (n : Nat)
deriving DecidableEq, Repr

/-- The 115-bit vector of a list of bits in order of reception (R41). -/
def packBits (bits : List Bit) : RawBits :=
  bits.foldl (fun acc b => (acc <<< 1) ||| (BitVec.ofBool b).setWidth 115) 0#115

/-- The bits of a RawString in order of reception (R41). -/
def unpackBits (rs : RawBits) : List Bit :=
  (List.range 115).map fun i => rs.getLsbD (114 - i)

/-- The decoder, total on any bits in order of reception. -/
def decode {TS Sat : Type} (c : Nat) (ts : TS) (bits : List Bit) : Except DecodeError (Instr TS Sat) :=
  if bits.length = 115 then .ok (decodeRaw c ts (packBits bits)) else .error (.wrongLength bits.length)

/-- The `STRING_ID` of a string instruction; `none` for the interface operations (R88). -/
def Instr.id? {TS Sat : Type} : Instr TS Sat → Option (BitVec 4)
  | .str0 _ _ _ => some 0#4
  | .str1 _ _ _ => some 1#4
  | .str2 _ _ _ => some 2#4
  | .str3 _ _ _ => some 3#4
  | .str4 _ _ _ => some 4#4
  | .str5 _ _ _ => some 5#4
  | .str6 _ _ _ => some 6#4
  | .str7 _ _ _ => some 7#4
  | .str8 _ _ _ => some 8#4
  | .str9 _ _ _ => some 9#4
  | .str10 _ _ _ => some 10#4
  | .str11 _ _ _ => some 11#4
  | .str12 _ _ _ => some 12#4
  | .str13 _ _ _ => some 13#4
  | .str14 _ _ _ => some 14#4
  | .str15 _ _ _ => some 15#4
  | .reset _ => none
  | .chReset _ _ => none
  | .push _ _ _ => none
  | .query _ _ => none

/-- The data bits a string instruction carries beside its id. -/
def Instr.payload? {TS Sat : Type} : Instr TS Sat → Option Payload
  | .str0 _ p _ => some p
  | .str1 _ p _ => some p
  | .str2 _ p _ => some p
  | .str3 _ p _ => some p
  | .str4 _ p _ => some p
  | .str5 _ p _ => some p
  | .str6 _ p _ => some p
  | .str7 _ p _ => some p
  | .str8 _ p _ => some p
  | .str9 _ p _ => some p
  | .str10 _ p _ => some p
  | .str11 _ p _ => some p
  | .str12 _ p _ => some p
  | .str13 _ p _ => some p
  | .str14 _ p _ => some p
  | .str15 _ p _ => some p
  | .reset _ => none
  | .chReset _ _ => none
  | .push _ _ _ => none
  | .query _ _ => none

/-- The encoder: the 115 bits of a string instruction after a given time mark (R55, R58, R77); `none` for the
interface operations, which have no encoding (R88). -/
def encode {TS Sat : Type} (mark : TimeMark) (i : Instr TS Sat) : Option RawBits :=
  match i.id?, i.payload? with
  | some id, some p => some (rawOf mark (p.dataWord id))
  | _, _ => none

/-- The channel and the timestamp tag of a string instruction (R57). -/
def Instr.tags? {TS Sat : Type} : Instr TS Sat → Option (Nat × TS)
  | .str0 c _ ts => some (c, ts)
  | .str1 c _ ts => some (c, ts)
  | .str2 c _ ts => some (c, ts)
  | .str3 c _ ts => some (c, ts)
  | .str4 c _ ts => some (c, ts)
  | .str5 c _ ts => some (c, ts)
  | .str6 c _ ts => some (c, ts)
  | .str7 c _ ts => some (c, ts)
  | .str8 c _ ts => some (c, ts)
  | .str9 c _ ts => some (c, ts)
  | .str10 c _ ts => some (c, ts)
  | .str11 c _ ts => some (c, ts)
  | .str12 c _ ts => some (c, ts)
  | .str13 c _ ts => some (c, ts)
  | .str14 c _ ts => some (c, ts)
  | .str15 c _ ts => some (c, ts)
  | .reset _ => none
  | .chReset _ _ => none
  | .push _ _ _ => none
  | .query _ _ => none

/-- The instruction of an opcode-table word. The table numbers the data word `dw` of R42: bit `85 - p` is `D[p]`
(R11), so the word's bits above 84 are the time mark, zero in the table's words. DESIGN CHOICE (log entry 14): the
word stands for a RawString of channel 0 with timestamp 0. A row without bits (the interface operations, R88) has
no word. -/
def decodeTableWord (nbits w : Nat) : Option Instr :=
  if nbits = 0 ∨ 2 ^ 115 ≤ w then none
  else
    match decode 0 0 (unpackBits (BitVec.ofNat 115 w)) with
    | .ok i => some i
    | .error _ => none

end Sys2Proof
end

