-- ==== Sys2Proof/Machine/Params.lean ====
section
/-! DEFINITION. The conditions of R204 on the parameters, and the reads of the two read-only tables. -/

namespace Sys2Proof

/-- `TabRead(FT, class)` (R11, R40). -/
def FieldTable.specs (t : FieldTable) : FieldClass → List FieldSpec
  | .c1 => t.c1
  | .c2 => t.c2
  | .c3 => t.c3
  | .c4 => t.c4
  | .c5 => t.c5
  | .even => t.even
  | .odd => t.odd

/-- The field names of a class. -/
def fieldNames (l : List FieldSpec) : List FieldName := l.map (·.name)

/-- The field names of a class other than `STRING_ID`: the names a record takes from it (R133). -/
def recordNames (l : List FieldSpec) : List FieldName := (fieldNames l).filter (· ≠ .stringId)

/-- The entry every class has for `STRING_ID` (R58, R64). -/
def stringIdSpec : FieldSpec := { name := .stringId, start := 2, len := 4, sign := .u, scale := 1 }

/-- WF1 (R62), with `length_bits >= 1` of R60. -/
abbrev FieldSpec.InRange (f : FieldSpec) : Prop := 1 ≤ f.len ∧ 1 ≤ f.start ∧ f.start + f.len - 1 ≤ 85

/-- Two fields cover no common position (WF2, R63). -/
abbrev FieldSpec.Disjoint (f g : FieldSpec) : Prop := f.start + f.len ≤ g.start ∨ g.start + g.len ≤ f.start

/-- What one class must meet: WF1 (R62), names unique inside the class (R60), WF2 (R63), WF3 (R64). -/
abbrev ClassWF (l : List FieldSpec) : Prop :=
  (∀ f ∈ l, f.InRange) ∧ l.Pairwise (fun f g => f.name ≠ g.name ∧ f.Disjoint g) ∧ stringIdSpec ∈ l

/-- The names of classes C1 to C4 that an ephemeris record holds, in string order (R27, R183). -/
def ephNames (t : FieldTable) : List FieldName :=
  recordNames t.c1 ++ recordNames t.c2 ++ recordNames t.c3 ++ recordNames t.c4

/-- WF4 (R65): the names the other blocks read exist, and the names that meet in one record differ.
That the value of `t_b` is a number of seconds is a statement about the table's scale and cannot be checked
(log entry 22). -/
abbrev FieldTable.NamesWF (t : FieldTable) : Prop :=
  .n4 ∈ fieldNames t.c5 ∧ .nT ∈ fieldNames t.c5 ∧ .tauC ∈ fieldNames t.c5 ∧ .tauGps ∈ fieldNames t.c5 ∧
  .nA ∈ fieldNames t.even ∧ .nA ∈ fieldNames t.odd ∧ .tb ∈ fieldNames t.c2 ∧ (ephNames t).Nodup ∧
  (∀ x ∈ fieldNames t.even, x ∈ fieldNames t.odd → x = .stringId ∨ x = .nA)

/-- The seven classes. -/
def FieldTable.classes (t : FieldTable) : List (List FieldSpec) := [t.c1, t.c2, t.c3, t.c4, t.c5, t.even, t.odd]

/-- WF1 to WF4 (R62 to R65) for all seven classes. -/
abbrev FieldTable.WF (t : FieldTable) : Prop := (∀ l ∈ t.classes, ClassWF l) ∧ t.NamesWF

/-- What one row of the Hamming table must meet (R106). -/
abbrev HammingRow.WF (r : HammingRow) : Prop :=
  (1 ≤ r.chk ∧ r.chk ≤ 85) ∧ (∀ p ∈ r.sub, 1 ≤ p ∧ p ≤ 85) ∧ r.chk ∉ r.sub ∧ r.sub.Nodup

/-- What the Hamming table must meet: eight rows with different check positions (R106). -/
abbrev HammingWF (ht : List HammingRow) : Prop :=
  ht.length = nChk ∧ (∀ r ∈ ht, r.WF) ∧ (ht.map (·.chk)).Nodup

/-- The parameter conditions of R204. `TM` has 30 bits and `EPOCH0` is total by their types. -/
abbrev Config.WF (c : Config) : Prop :=
  1 ≤ c.nCh ∧ (16 ≤ c.tSync ∧ c.tSync ≤ 30) ∧ HammingWF c.ht ∧ c.ft.WF

end Sys2Proof
end

