-- ==== Sys2Proof/Machine/Reference.lean ====
section
/-! DEFINITION. The reference values of the parameters (R7), which every vector of the spec uses.
PRESUMED (log entry 16): the spec marks them "from general knowledge, not in source"; nothing here is a claim about
the real signal. -/

namespace Sys2Proof

/-- The name of a field as the spec writes it. -/
def FieldName.text : FieldName → String
  | .stringId => "STRING_ID"
  | .p1 => "P1"
  | .tkHr => "t_k_hr"
  | .tkMin => "t_k_min"
  | .tkS30 => "t_k_s30"
  | .xnDot => "x_n_dot"
  | .xnDdot => "x_n_ddot"
  | .xn => "x_n"
  | .bn => "B_n"
  | .p2 => "P2"
  | .tb => "t_b"
  | .ynDot => "y_n_dot"
  | .ynDdot => "y_n_ddot"
  | .yn => "y_n"
  | .p3 => "P3"
  | .gammaN => "gamma_n"
  | .p => "P"
  | .ln => "l_n"
  | .znDot => "z_n_dot"
  | .znDdot => "z_n_ddot"
  | .zn => "z_n"
  | .tauN => "tau_n"
  | .deltaTauN => "delta_tau_n"
  | .en => "E_n"
  | .p4 => "P4"
  | .ft => "F_T"
  | .ntEph => "N_T_eph"
  | .n => "n"
  | .m => "M"
  | .nT => "N_T"
  | .tauC => "tau_c"
  | .n4 => "N_4"
  | .tauGps => "tau_GPS"
  | .ln5 => "l_n_5"
  | .cn => "C_n"
  | .mnA => "M_n_A"
  | .nA => "n_A"
  | .tauNA => "tau_n_A"
  | .lambdaNA => "lambda_n_A"
  | .deltaINA => "delta_i_n_A"
  | .epsilonNA => "epsilon_n_A"
  | .omegaNA => "omega_n_A"
  | .tLambdaNA => "t_lambda_n_A"
  | .deltaTNA => "Delta_T_n_A"
  | .hnA => "H_n_A"
  | .lnA => "l_n_A"
  | .other k => "other field " ++ toString k

/-- `2^-k`, a scale of the reference table. -/
def twoNeg (k : Nat) : Rat := mkRat 1 (2 ^ k)

/-- `TM_REF` (R92), `TM_REF[1]` most significant. -/
def tmRef : TimeMark := 0x3E375096#30

/-- `FT_REF` class `C1` (R70). -/
def ftRefC1 : List FieldSpec :=
  [ ⟨.stringId, 2, 4, .u, 1⟩,
    ⟨.p1, 8, 2, .u, 1⟩,
    ⟨.tkHr, 10, 5, .u, 3600⟩,
    ⟨.tkMin, 15, 6, .u, 60⟩,
    ⟨.tkS30, 21, 1, .u, 30⟩,
    ⟨.xnDot, 22, 24, .sm, twoNeg 20⟩,
    ⟨.xnDdot, 46, 5, .sm, twoNeg 30⟩,
    ⟨.xn, 51, 27, .sm, twoNeg 11⟩ ]

/-- `FT_REF` class `C2` (R71). -/
def ftRefC2 : List FieldSpec :=
  [ ⟨.stringId, 2, 4, .u, 1⟩,
    ⟨.bn, 6, 3, .u, 1⟩,
    ⟨.p2, 9, 1, .u, 1⟩,
    ⟨.tb, 10, 7, .u, 900⟩,
    ⟨.ynDot, 22, 24, .sm, twoNeg 20⟩,
    ⟨.ynDdot, 46, 5, .sm, twoNeg 30⟩,
    ⟨.yn, 51, 27, .sm, twoNeg 11⟩ ]

/-- `FT_REF` class `C3` (R72). -/
def ftRefC3 : List FieldSpec :=
  [ ⟨.stringId, 2, 4, .u, 1⟩,
    ⟨.p3, 6, 1, .u, 1⟩,
    ⟨.gammaN, 7, 11, .sm, twoNeg 40⟩,
    ⟨.p, 19, 2, .u, 1⟩,
    ⟨.ln, 21, 1, .u, 1⟩,
    ⟨.znDot, 22, 24, .sm, twoNeg 20⟩,
    ⟨.znDdot, 46, 5, .sm, twoNeg 30⟩,
    ⟨.zn, 51, 27, .sm, twoNeg 11⟩ ]

/-- `FT_REF` class `C4` (R73). -/
def ftRefC4 : List FieldSpec :=
  [ ⟨.stringId, 2, 4, .u, 1⟩,
    ⟨.tauN, 6, 22, .sm, twoNeg 30⟩,
    ⟨.deltaTauN, 28, 5, .sm, twoNeg 30⟩,
    ⟨.en, 33, 5, .u, 1⟩,
    ⟨.p4, 52, 1, .u, 1⟩,
    ⟨.ft, 53, 4, .u, 1⟩,
    ⟨.ntEph, 60, 11, .u, 1⟩,
    ⟨.n, 71, 5, .u, 1⟩,
    ⟨.m, 76, 2, .u, 1⟩ ]

/-- `FT_REF` class `C5` (R74). -/
def ftRefC5 : List FieldSpec :=
  [ ⟨.stringId, 2, 4, .u, 1⟩,
    ⟨.nT, 6, 11, .u, 1⟩,
    ⟨.tauC, 17, 32, .sm, twoNeg 31⟩,
    ⟨.n4, 50, 5, .u, 1⟩,
    ⟨.tauGps, 55, 22, .sm, twoNeg 30⟩,
    ⟨.ln5, 77, 1, .u, 1⟩ ]

/-- `FT_REF` class `EVEN` (R75). -/
def ftRefEven : List FieldSpec :=
  [ ⟨.stringId, 2, 4, .u, 1⟩,
    ⟨.cn, 6, 1, .u, 1⟩,
    ⟨.mnA, 7, 2, .u, 1⟩,
    ⟨.nA, 9, 5, .u, 1⟩,
    ⟨.tauNA, 14, 10, .sm, twoNeg 18⟩,
    ⟨.lambdaNA, 24, 21, .sm, twoNeg 20⟩,
    ⟨.deltaINA, 45, 18, .sm, twoNeg 20⟩,
    ⟨.epsilonNA, 63, 15, .u, twoNeg 20⟩ ]

/-- `FT_REF` class `ODD` (R76). -/
def ftRefOdd : List FieldSpec :=
  [ ⟨.stringId, 2, 4, .u, 1⟩,
    ⟨.omegaNA, 6, 16, .sm, twoNeg 15⟩,
    ⟨.tLambdaNA, 22, 21, .u, twoNeg 5⟩,
    ⟨.deltaTNA, 43, 22, .sm, twoNeg 9⟩,
    ⟨.nA, 65, 5, .u, 1⟩,
    ⟨.hnA, 72, 5, .u, 1⟩,
    ⟨.lnA, 77, 1, .u, 1⟩ ]

/-- `FT_REF` (R69 to R76). -/
def ftRef : FieldTable :=
  { c1 := ftRefC1, c2 := ftRefC2, c3 := ftRefC3, c4 := ftRefC4, c5 := ftRefC5, even := ftRefEven, odd := ftRefOdd }

/-- The positions `a .. b` of R112. -/
def span (a b : Nat) : List Nat := List.range' a (b + 1 - a)

/-- `HT_REF` (R112). -/
def htRef : List HammingRow :=
  [ ⟨85, [2, 4, 6, 8, 10, 12, 14, 16, 18, 20, 21, 23, 25, 27, 29, 31, 33, 35, 37, 39, 41, 43, 45, 47, 49, 51, 52,
      54, 56, 58, 60, 62, 64, 66, 67, 69, 71, 73, 74, 76, 77]⟩,
    ⟨84, [2, 3, 6, 7, 10, 11, 14, 15, 18, 19, 21, 22, 25, 26, 29, 30, 33, 34, 37, 38, 41, 42, 45, 46, 49, 50, 52,
      53, 56, 57, 60, 61, 64, 65, 67, 68, 71, 72, 74, 75, 77]⟩,
    ⟨83, [1] ++ span 6 9 ++ span 14 17 ++ span 21 24 ++ span 29 32 ++ span 37 40 ++ span 45 48 ++ span 52 55 ++
      span 60 63 ++ span 67 70 ++ span 74 76⟩,
    ⟨82, span 6 13 ++ span 21 28 ++ span 37 44 ++ span 52 59 ++ span 67 73⟩,
    ⟨81, span 1 5 ++ span 21 36 ++ span 52 66⟩,
    ⟨80, span 21 51⟩,
    ⟨79, span 1 20⟩,
    ⟨78, span 1 77 ++ span 79 85⟩ ]

/-- The reference `EPOCH0` (R168): seconds since the start of interval 1. -/
def epoch0Ref (n4 : Rat) : Rat := (n4 - 1) * 1461 * 86400

/-- `EPOCH0` of an instance (R168). -/
def Epoch0.eval : Epoch0 → Rat → Rat
  | .reference, n4 => epoch0Ref n4
  | .table values otherwise, n4 => (values.lookup n4).getD otherwise
  | .param k, n4 => Config.epoch0Param k n4

/-- The reference parameters with the given number of channels (R7). -/
def Config.reference (nCh : Nat) : Config :=
  { nCh := nCh, tm := tmRef, tSync := 28, ht := htRef, ft := ftRef, epoch0 := .reference }

end Sys2Proof
end

