-- ==== Sys2Proof/Machine/State.lean ====
section
/-! DEFINITION. The state of the core as plain data (R15 to R38), its outputs (R12, R175 to R185), and the state
right after RESET (R37). -/

namespace Sys2Proof.Machine

/-- A partial map from field name to value (R27, R123): at most one pair per name, in the order the names were
first written. DESIGN CHOICE (log entry 5). -/
abbrev FieldMap := List (FieldName × Rat)

/-- The synchroniser's state (R21). -/
inductive Sync where
  | searching
  | synced
  | lost
deriving DecidableEq, Repr

/-- The numbers of R21. -/
def Sync.code : Sync → Nat
  | .searching => 0
  | .synced => 1
  | .lost => 2

/-- The category of an IncompleteFrame (R175). -/
inductive Category where
  | eph
  | alm
deriving DecidableEq, Repr

/-! The two opaque types of R7 and R17 are arguments of everything below: `TS`, the type of the receiver's
timestamps, and `Sat`, the type of the satellite tags. The names without `Of` are the instance at the naturals, which
R7 gives as the reference (log entry 3). -/

/-- The five error signals with what each records (R175 to R180). The taxonomy is closed. -/
inductive ErrOf (Sat : Type) where
  | syncLoss (sat : Sat)
  | checksumFailure (sat : Sat)
  | unknownStringId (sat : Sat) (id : Nat)
  | incompleteFrame (sat : Sat) (cat : Category)
  | timeUnresolved
deriving DecidableEq, Repr

/-- The codes of R175. -/
def ErrOf.code {Sat : Type} : ErrOf Sat → Nat
  | .syncLoss _ => 1
  | .checksumFailure _ => 2
  | .unknownStringId _ _ => 3
  | .incompleteFrame _ _ => 4
  | .timeUnresolved => 5

/-- The time resolver's answer (R165): seconds from the origin of `EPOCH0`, or unresolved. -/
inductive Stamp where
  | unresolved
  | at (seconds : Rat)
deriving DecidableEq, Repr

/-- One element of a step's output list (R80): an error signal, one of the three events (R183 to R185), or the
answer of a QUERY (R85). -/
inductive OutputOf (TS Sat : Type) where
  | err (e : ErrOf Sat)
  | ephemerisReady (satelliteId : Sat) (fields : FieldMap) (timestamp : Stamp) (rxTs : TS)
  | almanacReady (satelliteId : Sat) (nA : Rat) (fields : FieldMap) (timestamp : Stamp) (rxTs : TS)
  | timeUpdate (satelliteId : Sat) (n4 nT tauC tauGps : Rat)
  | resolved (epoch : Rat)
deriving DecidableEq, Repr

/-- TimeState (R18). While `valid` is 0 the four values hold no value and no rule reads them; at reset the model
names 0 for them (DESIGN CHOICE, log entry 9). -/
structure TimeState where
  valid : Bit
  n4 : Rat
  nT : Rat
  tauC : Rat
  tauGps : Rat
deriving DecidableEq, Repr

/-- TimeState after RESET (R37). -/
def TimeState.afterReset : TimeState := { valid := false, n4 := 0, nT := 0, tauC := 0, tauGps := 0 }

/-- One channel (R19 to R30).
`win` holds `win[1..30]`, `win[i]` being bit `30 - i`; `winTs` holds `win_ts[1..30]`, `win_ts[i]` at index `i - 1`;
`buf` holds `buf[1..115]`; `ephHave` holds `eph_have[1..4]`, `eph_have[k]` being bit `4 - k`, so that it reads as the
spec writes it (R26). -/
structure ChannelOf (TS Sat : Type) where
  sat : Sat
  win : TimeMark
  winTs : Vector TS 30
  winN : Nat
  sync : Sync
  pol : Bit
  bitcnt : Nat
  miss : Nat
  buf : RawBits
  bufTs : TS
  ephHave : BitVec 4
  eph : FieldMap
  almPend : Bit
  almId : Fin 16
  almNA : Rat
  alm : FieldMap
  cntSyncLoss : Nat
  cntCksumFail : Nat
  cntUnknownId : Nat
  cntRestart : Nat
deriving DecidableEq, Repr

/-- A channel after RESET or CH_RESET with the given tag (R37). Where R37 says "no value" the model names 0, or the
timestamp `noTs` (DESIGN CHOICE, log entries 8 and 10). -/
def ChannelOf.afterReset {TS Sat : Type} (noTs : TS) (sat : Sat) : ChannelOf TS Sat :=
  { sat := sat
    win := 0#30
    winTs := Vector.replicate 30 noTs
    winN := 0
    sync := .searching
    pol := false
    bitcnt := 0
    miss := 0
    buf := 0#115
    bufTs := noTs
    ephHave := 0#4
    eph := []
    almPend := false
    almId := 0
    almNA := 0
    alm := []
    cntSyncLoss := 0
    cntCksumFail := 0
    cntUnknownId := 0
    cntRestart := 0 }

/-- The error signals over the naturals. -/
abbrev Err := ErrOf SatId

/-- The outputs over the naturals. -/
abbrev Output := OutputOf SampleTime SatId

/-- The channels of State. -/
abbrev Channel := ChannelOf SampleTime SatId

/-- A channel of State after RESET or CH_RESET. -/
abbrev Channel.afterReset (sat : SatId) : Channel := ChannelOf.afterReset 0 sat

/-- The state of the core, for any types of timestamps and satellite tags (R7, R17); left out, they are the naturals
(log entry 3).
`cfg` holds the parameters (R7; DESIGN CHOICE, log entry 1): no operation writes it (R32, R202).
`started` says that RESET has been performed on checked parameters (R203, R204; log entry 6).
`time` is TimeState (R18) and `chans` the channels (R15, R16).
`out` is the output list of the latest step (R12; log entry 13).
`ops` are the operations the driver has queued, the first to be taken first (R80; DESIGN CHOICE, log entry 12). -/
structure State (TS : Type := SampleTime) (Sat : Type := SatId) where
  cfg : Config
  started : Bit
  time : TimeState
  chans : List (ChannelOf TS Sat)
  out : List (OutputOf TS Sat)
  ops : List (Op TS Sat)
deriving DecidableEq, Repr

/-- The faults of the core: none. "The model has no stuck state and no fault state" (R181), and none of the
operations can fault (R86). -/
inductive Fault where
deriving DecidableEq, Repr

/-- Why the model has no step. -/
inductive Refusal where
  /-- An instruction without a meaning yet, by its mnemonic. Raised by the dispatcher only. Safe. -/
  | notModelled (mnemonic : String)
  /-- An ill-formed operation: it is not an operation of the core and has no step (R80, U11). Raised by an operation
  or a string on a channel that does not exist, and by a RESET whose list has another length than `N_CH`. Safe. -/
  | illFormed
  /-- An operation other than RESET before the first RESET: the model gives no step (R203, U9). Safe. -/
  | beforeReset
  /-- Parameters that break a condition of R204: the model refuses to start (U10). Raised by RESET. Safe. -/
  | badParameters
deriving DecidableEq, Repr

/-- The machine right after RESET (R37), for the reference parameters (R7) and one channel. The satellite tag is
RESET's operand, for which the spec has no value: DESIGN CHOICE 0 (log entry 7). No operation is queued. -/
def State.reset : State :=
  { cfg := Config.reference 1
    started := true
    time := TimeState.afterReset
    chans := [Channel.afterReset 0]
    out := []
    ops := [] }

end Sys2Proof.Machine
end

