-- ==== Sys2Proof/Machine/Ops.lean ====
section
/-! DEFINITION. The shared operations: the view a rule about one channel has of the state, raising a signal and
emitting an event, the RawString space, the window, and the field maps. -/

namespace Sys2Proof.Machine

variable {TS Sat : Type}

/-! ### The view of one channel -/

/-- What a rule about one channel reads and writes (R51, R87): the channel, TimeState, the step's output list, and
(read only) the parameters. -/
structure LocalOf (TS Sat : Type) where
  cfg : Config
  time : TimeState
  ch : ChannelOf TS Sat
  out : List (OutputOf TS Sat)
deriving DecidableEq, Repr

/-- The view of a channel of State. -/
abbrev Local := LocalOf SampleTime SatId

/-- The view of a channel of the state. -/
def State.view (s : State TS Sat) (ch : ChannelOf TS Sat) : LocalOf TS Sat :=
  { cfg := s.cfg, time := s.time, ch := ch, out := s.out }

/-- The state with a view written back to channel `c`; the parameters are not written (R32). -/
def State.putView (s : State TS Sat) (c : Nat) (l : LocalOf TS Sat) : State TS Sat :=
  { s with time := l.time, chans := s.chans.set c l.ch, out := l.out }

/-- A rule about one channel, applied to channel `c`. Refused before the first RESET (R203) and on a channel that
does not exist (R80). -/
def onChannel (c : Nat) (f : LocalOf TS Sat → LocalOf TS Sat) (s : State TS Sat) :
    Host.Outcome (State TS Sat) Fault Refusal :=
  if s.started = true then
    match s.chans[c]? with
    | some ch => .next (s.putView c (f (s.view ch)))
    | none => .refused .illFormed
  else .refused .beforeReset

/-! ### Signals and events -/

/-- The counter that goes with a signal, incremented by one (R175 to R180, R195). -/
def ChannelOf.count (ch : ChannelOf TS Sat) : ErrOf Sat → ChannelOf TS Sat
  | .syncLoss _ => { ch with cntSyncLoss := ch.cntSyncLoss + 1 }
  | .checksumFailure _ => { ch with cntCksumFail := ch.cntCksumFail + 1 }
  | .unknownStringId _ _ => { ch with cntUnknownId := ch.cntUnknownId + 1 }
  | .incompleteFrame _ _ => { ch with cntRestart := ch.cntRestart + 1 }
  | .timeUnresolved => ch

/-- Taking an "exception" of this core (R4): `raise <Kind>(info)` (R11, R190). It appends the signal to the step's
output and increments its counter, saves nothing, transfers no control, and the step continues. The state change
that goes with SyncLoss is R98's own. There is no return operation, because nothing was entered (R191). -/
def LocalOf.raise (e : ErrOf Sat) (l : LocalOf TS Sat) : LocalOf TS Sat := { l with ch := l.ch.count e, out := l.out ++ [.err e] }

/-- `emit <Event>` (R11). -/
def LocalOf.emit (o : OutputOf TS Sat) (l : LocalOf TS Sat) : LocalOf TS Sat := { l with out := l.out ++ [o] }

/-! ### The RawString space (R40, R41) -/

/-- `RS[q]`, `1 ≤ q ≤ 115`. -/
def rsBit (rs : RawBits) (q : Nat) : Bool := if 1 ≤ q ∧ q ≤ 115 then rs.getLsbD (115 - q) else false

/-- `MemRead(RS, q, n)` (R11): the bits `RS[q..q+n-1]` in order of reception. -/
def memRead (rs : RawBits) (q n : Nat) : List Bit := (List.range n).map fun j => rsBit rs (q + j)

/-- `MemWrite(RS, q, 1, v)` (R11). A position outside `1..115` does not exist; nothing is written there. -/
def memWrite (rs : RawBits) (q : Nat) (v : Bit) : RawBits :=
  if 1 ≤ q ∧ q ≤ 115 then
    if v then rs ||| (1#115 <<< (115 - q)) else rs &&& ~~~(1#115 <<< (115 - q))
  else rs

/-- `RS[1..30]` replaced by the given bits (R95). -/
def memWriteMark (rs : RawBits) (mark : TimeMark) : RawBits := rawOf mark (rawData rs)

/-! ### The window (R20) -/

/-- `x xor pol` for the 30 bits of a window (R11). -/
def xorPol (x : TimeMark) (pol : Bit) : TimeMark := if pol then ~~~x else x

/-- `win[i] <- win[i+1]` for `i` in 1..29, `win[30] <- b` (R91). -/
def shiftBits (win : TimeMark) (b : Bit) : TimeMark := (win <<< 1) ||| (BitVec.ofBool b).setWidth 30

/-- `win_ts[i] <- win_ts[i+1]` for `i` in 1..29, `win_ts[30] <- ts` (R91). -/
def shiftTs (v : Vector TS 30) (ts : TS) : Vector TS 30 := v.tail.push ts

/-! ### Field maps (R27, R123) -/

/-- The value of a name, if the map holds one. -/
def FieldMap.get? (m : FieldMap) (x : FieldName) : Option Rat := m.lookup x

/-- `m[x]` where a rule reads it. The tables' conditions (R65) see to it that the name is there; elsewhere the value
is free (log entry 11). -/
def FieldMap.read (m : FieldMap) (x : FieldName) : Rat := (FieldMap.get? m x).getD (Config.noValue x)

/-- `m[x] <- v`. -/
def FieldMap.put : FieldMap → FieldName → Rat → FieldMap
  | [], x, v => [(x, v)]
  | (y, w) :: m, x, v => if y = x then (y, v) :: m else (y, w) :: FieldMap.put m x v

/-- The entries a record takes from a string: all but `STRING_ID` (R133). -/
def FieldMap.record (f : FieldMap) : FieldMap := f.filter fun e => e.1 ≠ .stringId

/-- `for (name, v) in f: m[name] <- v` (R133, R136). -/
def FieldMap.merge (m f : FieldMap) : FieldMap := f.foldl (fun acc e => FieldMap.put acc e.1 e.2) m

end Sys2Proof.Machine
end

