-- ==== Sys2Proof/Machine/Operands.lean ====
section
/-! DEFINITION. The bit_field_extractor (R115 to R125): from the data bits of an accepted string to named exact
values. -/

namespace Sys2Proof.Machine

/-- `smag_N(v)` (R11, R120): the top bit is the sign, the rest the magnitude; minus zero is 0. -/
def smag (n v : Nat) : Int :=
  if v < 2 ^ (n - 1) then ((v % 2 ^ (n - 1) : Nat) : Int) else -((v % 2 ^ (n - 1) : Nat) : Int)

/-- `sext_N(v)` (R11, R121): two's complement. -/
def sext (n v : Nat) : Int := if v < 2 ^ (n - 1) then (v : Int) else (v : Int) - 2 ^ n

/-- The integer a field's raw value stands for, by signedness (R119 to R121). -/
def ival (sg : Signedness) (n raw : Nat) : Int :=
  match sg with
  | .u => raw
  | .sm => smag n raw
  | .tc => sext n raw

/-- The value of a field: raw extraction (R118), signedness, and the exact multiplication by the scale (R122). -/
def fieldValue (d : DataWord) (f : FieldSpec) : Rat := (ival f.sign f.len (fld d f.start f.len) : Rat) * f.scale

/-- `EXTRACT(D, class)` (R123). No check of any kind is made and it cannot fail (R124); positions no field covers
are not read (R66). -/
def extract (t : FieldTable) (cls : FieldClass) (d : DataWord) : FieldMap :=
  (t.specs cls).foldl (fun f fs => FieldMap.put f fs.name (fieldValue d fs)) []

/-- `class_of(id)` (R59, R117): `none` for the unrecognised id 0. -/
def classOf (id : Nat) : Option FieldClass :=
  match id with
  | 1 => some .c1
  | 2 => some .c2
  | 3 => some .c3
  | 4 => some .c4
  | 5 => some .c5
  | 6 | 8 | 10 | 12 | 14 => some .even
  | 7 | 9 | 11 | 13 | 15 => some .odd
  | _ => none

end Sys2Proof.Machine
end

