-- ==== Sys2Proof/Machine/Flags.lean ====
section
/-! DEFINITION. The core has no arithmetic flags (R31). What plays their part: the agreement count of the
synchroniser (R11, R93), the syndrome and the gate of the hamming_validator (R105 to R108), and the status outputs
(R38). -/

namespace Sys2Proof.Machine

/-- Position `i` of 30 bits, `1 ≤ i ≤ 30` (R8). -/
def markBit (x : TimeMark) (i : Nat) : Bool := x.getLsbD (30 - i)

/-- `agree(a, b)` (R11): the number of positions in which two lists of 30 bits agree. -/
def agree (a b : TimeMark) : Nat := (List.range' 1 30).countP fun i => markBit a i == markBit b i

/-- `calc[r]` (R107): the xor of the row's positions, 0 for an empty set. -/
def calcBit (d : DataWord) (r : HammingRow) : Bool := r.sub.foldl (fun acc p => acc ^^ dataBit d p) false

/-- `syn[r]` (R107): 0 when the recomputed and the transmitted check bit agree. Every row reads the same,
unmodified data bits. -/
def synBit (d : DataWord) (r : HammingRow) : Bool := calcBit d r ^^ dataBit d r.chk

/-- `syn[1..8]` (R107). -/
def syndrome (ht : List HammingRow) (d : DataWord) : List Bool := ht.map (synBit d)

/-- The gate `HAMMING_ACCEPT(D)` (R108): accept iff every `syn[r]` is 0. No correction (R111). -/
def hammingAccept (ht : List HammingRow) (d : DataWord) : Bool := ht.all fun r => !synBit d r

/-- The number of ones in `eph_have` (R133). -/
def ephCount (e : BitVec 4) : Nat := (List.range 4).countP fun i => e.getLsbD i

/-- `eph_have[k] <- 1`, `1 ≤ k ≤ 4` (R133). -/
def setHave (e : BitVec 4) (k : Nat) : BitVec 4 := e ||| (0b1000#4 >>> (k - 1))

/-- The status outputs of a channel, readable at any time without a side effect (R38). -/
structure ChannelStatus where
  sync : Sync
  pol : Bit
  bitcnt : Nat
  miss : Nat
  ephHave : BitVec 4
  almPend : Bit
  cntSyncLoss : Nat
  cntCksumFail : Nat
  cntUnknownId : Nat
  cntRestart : Nat
deriving DecidableEq, Repr

/-- The status outputs of a channel (R38). -/
def ChannelOf.status {TS Sat : Type} (ch : ChannelOf TS Sat) : ChannelStatus :=
  { sync := ch.sync, pol := ch.pol, bitcnt := ch.bitcnt, miss := ch.miss, ephHave := ch.ephHave,
    almPend := ch.almPend, cntSyncLoss := ch.cntSyncLoss, cntCksumFail := ch.cntCksumFail,
    cntUnknownId := ch.cntUnknownId, cntRestart := ch.cntRestart }

/-- The TimeState a reader sees: `T.valid`, and the four values when it is 1 (R38). -/
def TimeState.status (t : TimeState) : Option (Rat × Rat × Rat × Rat) :=
  if t.valid then some (t.n4, t.nT, t.tauC, t.tauGps) else none

/-- All status outputs of the core (R38). -/
def State.status {TS Sat : Type} (s : State TS Sat) : List ChannelStatus × Option (Rat × Rat × Rat × Rat) :=
  (s.chans.map ChannelOf.status, s.time.status)

end Sys2Proof.Machine
end

