-- ==== Sys2Proof/Machine/TimeResolver.lean ====
section
/-! DEFINITION. The time_resolver (R165 to R174): a pure function of TimeState, seconds of day and a reference. -/

namespace Sys2Proof.Machine

/-- `base = EPOCH0(T.N_4) + (T.N_T - 1) * 86400 + sod` (R169). Nothing is range-checked (R172). -/
def epochBase (epoch0 : Rat → Rat) (t : TimeState) (sod : Rat) : Rat := epoch0 t.n4 + (t.nT - 1) * 86400 + sod

/-- What a reference adds (R170). -/
def refShift (t : TimeState) : TimeRef → Rat
  | .glonass => 0
  | .utc => t.tauC
  | .gps => t.tauGps

/-- `RESOLVE(T, sod, ref)` (R165, R167, R169, R170). -/
def resolve (epoch0 : Rat → Rat) (t : TimeState) (sod : Rat) (ref : TimeRef) : Stamp :=
  if t.valid then .at (epochBase epoch0 t sod + refShift t ref) else .unresolved

/-- Seconds of day from the ephemeris field `t_b`, already in seconds (R171). -/
def sodOfTb (eph : FieldMap) : Rat := FieldMap.read eph .tb

/-- Seconds of day from the three `t_k` fields of string 1 (R171), for a QUERY by the consumer. -/
def sodOfTk (f : FieldMap) : Rat := FieldMap.read f .tkHr + FieldMap.read f .tkMin + FieldMap.read f .tkS30

end Sys2Proof.Machine
end

