-- ==== Sys2Proof/Machine/Assembler.lean ====
section
/-! DEFINITION. The message_assembler (R130 to R138, R143): the sub-steps the sixteen string types share. -/

namespace Sys2Proof.Machine

variable {TS Sat : Type}

/-- The assembler's input (R131): an accepted string with its id and decoded fields, or a slot that went by without
one. -/
inductive AsmEvent where
  | str (id : Nat) (f : FieldMap)
  | void
deriving DecidableEq, Repr

/-- `EPH_COMMIT` (R134): emit the record with the resolved `t_b` (R173) and clear the partial. -/
def ephCommit (rsTs : TS) (l : LocalOf TS Sat) : LocalOf TS Sat :=
  let l1 := l.emit (.ephemerisReady l.ch.sat l.ch.eph (resolve l.cfg.epoch0.eval l.time (sodOfTb l.ch.eph) .glonass) rsTs)
  { l1 with ch := { l1.ch with ephHave := 0#4, eph := [] } }

/-- The merge of the expected string `k + 1` (R133). -/
def ephMerge (k : Nat) (f : FieldMap) (l : LocalOf TS Sat) : LocalOf TS Sat :=
  { l with ch := { l.ch with
      ephHave := setHave l.ch.ephHave (k + 1)
      eph := FieldMap.merge l.ch.eph (FieldMap.record f) } }

/-- A set in progress ends without being complete (R133, R179). -/
def ephDiscard (l : LocalOf TS Sat) : LocalOf TS Sat :=
  ({ l with ch := { l.ch with ephHave := 0#4, eph := [] } }).raise (.incompleteFrame l.ch.sat .eph)

/-- A string 1 starts a set (R133). -/
def ephStart (f : FieldMap) (l : LocalOf TS Sat) : LocalOf TS Sat :=
  { l with ch := { l.ch with ephHave := 0b1000#4, eph := FieldMap.merge [] (FieldMap.record f) } }

/-- The fields of the event if it is the expected next string of a set that holds `k` strings (R133). -/
def AsmEvent.next? (k : Nat) : AsmEvent → Option FieldMap
  | .str id f => if 1 ≤ k ∧ id = k + 1 then some f else none
  | .void => none

/-- The fields of the event if it is a string 1 (R133). -/
def AsmEvent.first? : AsmEvent → Option FieldMap
  | .str id f => if id = 1 then some f else none
  | .void => none

/-- `EPH_STEP` (R133). -/
def ephStep (ev : AsmEvent) (rsTs : TS) (l : LocalOf TS Sat) : LocalOf TS Sat :=
  let k := ephCount l.ch.ephHave
  match ev.next? k with
  | some f => if k + 1 = 4 then ephCommit rsTs (ephMerge k f l) else ephMerge k f l
  | none =>
    let l1 := if 1 ≤ k then ephDiscard l else l
    match ev.first? with
    | some f => ephStart f l1
    | none => l1

/-- The write of TimeState as a whole and the TimeUpdate event (R143, R52, R185). -/
def timeReplace (f : FieldMap) (l : LocalOf TS Sat) : LocalOf TS Sat :=
  let t : TimeState :=
    { valid := true, n4 := FieldMap.read f .n4, nT := FieldMap.read f .nT, tauC := FieldMap.read f .tauC,
      tauGps := FieldMap.read f .tauGps }
  ({ l with time := t }).emit (.timeUpdate l.ch.sat t.n4 t.nT t.tauC t.tauGps)

/-- `TIME_STEP` (R143): acts on string 5 only. -/
def timeStep (ev : AsmEvent) (l : LocalOf TS Sat) : LocalOf TS Sat :=
  match ev with
  | .str id f => if id = 5 then timeReplace f l else l
  | .void => l

/-- `ALM_STEP` for an even string (R135). -/
def almEven (id : Nat) (f : FieldMap) (l : LocalOf TS Sat) : LocalOf TS Sat :=
  let l1 := if l.ch.almPend then l.raise (.incompleteFrame l.ch.sat .alm) else l
  { l1 with ch := { l1.ch with
      almPend := true
      almId := Fin.ofNat 16 id
      almNA := FieldMap.read f .nA
      alm := FieldMap.merge [] (FieldMap.record f) } }

/-- The waiting half is gone (R136): `alm_id` and `alm_nA` hold no value, so their contents do not matter (R13). -/
def almClear (l : LocalOf TS Sat) : LocalOf TS Sat := { l with ch := { l.ch with almPend := false, alm := [] } }

/-- `ALM_STEP` for an odd string (R136). -/
def almOdd (f : FieldMap) (rsTs : TS) (l : LocalOf TS Sat) : LocalOf TS Sat :=
  if l.ch.almPend then
    if FieldMap.read f .nA = l.ch.almNA then
      almClear (l.emit (.almanacReady l.ch.sat l.ch.almNA (FieldMap.merge l.ch.alm (FieldMap.record f))
        (resolve l.cfg.epoch0.eval l.time 0 .glonass) rsTs))
    else almClear (l.raise (.incompleteFrame l.ch.sat .alm))
  else l

/-- `ALM_STEP` (R135, R136); a void slot and the strings 1 to 5 leave a waiting half alone. -/
def almStep (ev : AsmEvent) (rsTs : TS) (l : LocalOf TS Sat) : LocalOf TS Sat :=
  match ev with
  | .str id f =>
    match classOf id with
    | some .even => almEven id f l
    | some .odd => almOdd f rsTs l
    | _ => l
  | .void => l

/-- `ASM(ev, rs_ts)` (R132): the three sub-steps in their order. -/
def asm (ev : AsmEvent) (rsTs : TS) (l : LocalOf TS Sat) : LocalOf TS Sat :=
  almStep ev rsTs (timeStep ev (ephStep ev rsTs l))

/-- `ASM_RESET()` (R137): the partials are cleared without a signal; TimeState is not touched. -/
def asmReset (l : LocalOf TS Sat) : LocalOf TS Sat :=
  { l with ch := { l.ch with ephHave := 0#4, eph := [], almPend := false, alm := [] } }

end Sys2Proof.Machine
end

