-- ==== Sys2Proof/Machine/Strings.lean ====
section
/-! DEFINITION. The sixteen string types (R139 to R154), each with a meaning of its own over the sub-steps of the
assembler. A string is run inside the PUSH that delivers its last bit (R84). -/

namespace Sys2Proof.Machine

variable {TS Sat : Type}

/-- The gate every string passes before anything else is read from it (R84, R105, R109): a string whose check bits do
not match is dropped whole, whatever its id (R67, R187). -/
def strGate (d : DataWord) (ts : TS) (accepted : LocalOf TS Sat → LocalOf TS Sat) (l : LocalOf TS Sat) : LocalOf TS Sat :=
  if hammingAccept l.cfg.ht d then accepted l
  else asm .void ts (l.raise (.checksumFailure l.ch.sat))

/-- `STR0` (R154): the id has no class; the string is dropped with UnknownStringId (R67, R178). -/
def str0 (d : DataWord) (ts : TS) (l : LocalOf TS Sat) : LocalOf TS Sat :=
  strGate d ts (fun l => asm .void ts (l.raise (.unknownStringId l.ch.sat 0))) l

/-- `STR1` (R139): starts an ephemeris set. -/
def str1 (d : DataWord) (ts : TS) (l : LocalOf TS Sat) : LocalOf TS Sat :=
  strGate d ts (fun l => asm (.str 1 (extract l.cfg.ft .c1 d)) ts l) l

/-- `STR2` (R140): second string of a set; carries `t_b`. -/
def str2 (d : DataWord) (ts : TS) (l : LocalOf TS Sat) : LocalOf TS Sat :=
  strGate d ts (fun l => asm (.str 2 (extract l.cfg.ft .c2 d)) ts l) l

/-- `STR3` (R141): third string of a set. -/
def str3 (d : DataWord) (ts : TS) (l : LocalOf TS Sat) : LocalOf TS Sat :=
  strGate d ts (fun l => asm (.str 3 (extract l.cfg.ft .c3 d)) ts l) l

/-- `STR4` (R142): completes a set. -/
def str4 (d : DataWord) (ts : TS) (l : LocalOf TS Sat) : LocalOf TS Sat :=
  strGate d ts (fun l => asm (.str 4 (extract l.cfg.ft .c4 d)) ts l) l

/-- `STR5` (R143): replaces TimeState. -/
def str5 (d : DataWord) (ts : TS) (l : LocalOf TS Sat) : LocalOf TS Sat :=
  strGate d ts (fun l => asm (.str 5 (extract l.cfg.ft .c5 d)) ts l) l

/-- `STR6` (R144): first half of an almanac entry. -/
def str6 (d : DataWord) (ts : TS) (l : LocalOf TS Sat) : LocalOf TS Sat :=
  strGate d ts (fun l => asm (.str 6 (extract l.cfg.ft .even d)) ts l) l

/-- `STR7` (R145): second half of an almanac entry. -/
def str7 (d : DataWord) (ts : TS) (l : LocalOf TS Sat) : LocalOf TS Sat :=
  strGate d ts (fun l => asm (.str 7 (extract l.cfg.ft .odd d)) ts l) l

/-- `STR8` (R146): first half of an almanac entry. -/
def str8 (d : DataWord) (ts : TS) (l : LocalOf TS Sat) : LocalOf TS Sat :=
  strGate d ts (fun l => asm (.str 8 (extract l.cfg.ft .even d)) ts l) l

/-- `STR9` (R147): second half of an almanac entry. -/
def str9 (d : DataWord) (ts : TS) (l : LocalOf TS Sat) : LocalOf TS Sat :=
  strGate d ts (fun l => asm (.str 9 (extract l.cfg.ft .odd d)) ts l) l

/-- `STR10` (R148): first half of an almanac entry. -/
def str10 (d : DataWord) (ts : TS) (l : LocalOf TS Sat) : LocalOf TS Sat :=
  strGate d ts (fun l => asm (.str 10 (extract l.cfg.ft .even d)) ts l) l

/-- `STR11` (R149): second half of an almanac entry. -/
def str11 (d : DataWord) (ts : TS) (l : LocalOf TS Sat) : LocalOf TS Sat :=
  strGate d ts (fun l => asm (.str 11 (extract l.cfg.ft .odd d)) ts l) l

/-- `STR12` (R150): first half of an almanac entry. -/
def str12 (d : DataWord) (ts : TS) (l : LocalOf TS Sat) : LocalOf TS Sat :=
  strGate d ts (fun l => asm (.str 12 (extract l.cfg.ft .even d)) ts l) l

/-- `STR13` (R151): second half of an almanac entry. -/
def str13 (d : DataWord) (ts : TS) (l : LocalOf TS Sat) : LocalOf TS Sat :=
  strGate d ts (fun l => asm (.str 13 (extract l.cfg.ft .odd d)) ts l) l

/-- `STR14` (R152): first half of an almanac entry. -/
def str14 (d : DataWord) (ts : TS) (l : LocalOf TS Sat) : LocalOf TS Sat :=
  strGate d ts (fun l => asm (.str 14 (extract l.cfg.ft .even d)) ts l) l

/-- `STR15` (R153): second half of an almanac entry. -/
def str15 (d : DataWord) (ts : TS) (l : LocalOf TS Sat) : LocalOf TS Sat :=
  strGate d ts (fun l => asm (.str 15 (extract l.cfg.ft .odd d)) ts l) l

/-- `STR0` on channel `c` (R154). -/
def execStr0 (c : Nat) (p : Payload) (ts : TS) (s : State TS Sat) :
    Host.Outcome (State TS Sat) Fault Refusal :=
  onChannel c (str0 (p.dataWord 0#4) ts) s

/-- `STR1` on channel `c` (R139). -/
def execStr1 (c : Nat) (p : Payload) (ts : TS) (s : State TS Sat) :
    Host.Outcome (State TS Sat) Fault Refusal :=
  onChannel c (str1 (p.dataWord 1#4) ts) s

/-- `STR2` on channel `c` (R140). -/
def execStr2 (c : Nat) (p : Payload) (ts : TS) (s : State TS Sat) :
    Host.Outcome (State TS Sat) Fault Refusal :=
  onChannel c (str2 (p.dataWord 2#4) ts) s

/-- `STR3` on channel `c` (R141). -/
def execStr3 (c : Nat) (p : Payload) (ts : TS) (s : State TS Sat) :
    Host.Outcome (State TS Sat) Fault Refusal :=
  onChannel c (str3 (p.dataWord 3#4) ts) s

/-- `STR4` on channel `c` (R142). -/
def execStr4 (c : Nat) (p : Payload) (ts : TS) (s : State TS Sat) :
    Host.Outcome (State TS Sat) Fault Refusal :=
  onChannel c (str4 (p.dataWord 4#4) ts) s

/-- `STR5` on channel `c` (R143). -/
def execStr5 (c : Nat) (p : Payload) (ts : TS) (s : State TS Sat) :
    Host.Outcome (State TS Sat) Fault Refusal :=
  onChannel c (str5 (p.dataWord 5#4) ts) s

/-- `STR6` on channel `c` (R144). -/
def execStr6 (c : Nat) (p : Payload) (ts : TS) (s : State TS Sat) :
    Host.Outcome (State TS Sat) Fault Refusal :=
  onChannel c (str6 (p.dataWord 6#4) ts) s

/-- `STR7` on channel `c` (R145). -/
def execStr7 (c : Nat) (p : Payload) (ts : TS) (s : State TS Sat) :
    Host.Outcome (State TS Sat) Fault Refusal :=
  onChannel c (str7 (p.dataWord 7#4) ts) s

/-- `STR8` on channel `c` (R146). -/
def execStr8 (c : Nat) (p : Payload) (ts : TS) (s : State TS Sat) :
    Host.Outcome (State TS Sat) Fault Refusal :=
  onChannel c (str8 (p.dataWord 8#4) ts) s

/-- `STR9` on channel `c` (R147). -/
def execStr9 (c : Nat) (p : Payload) (ts : TS) (s : State TS Sat) :
    Host.Outcome (State TS Sat) Fault Refusal :=
  onChannel c (str9 (p.dataWord 9#4) ts) s

/-- `STR10` on channel `c` (R148). -/
def execStr10 (c : Nat) (p : Payload) (ts : TS) (s : State TS Sat) :
    Host.Outcome (State TS Sat) Fault Refusal :=
  onChannel c (str10 (p.dataWord 10#4) ts) s

/-- `STR11` on channel `c` (R149). -/
def execStr11 (c : Nat) (p : Payload) (ts : TS) (s : State TS Sat) :
    Host.Outcome (State TS Sat) Fault Refusal :=
  onChannel c (str11 (p.dataWord 11#4) ts) s

/-- `STR12` on channel `c` (R150). -/
def execStr12 (c : Nat) (p : Payload) (ts : TS) (s : State TS Sat) :
    Host.Outcome (State TS Sat) Fault Refusal :=
  onChannel c (str12 (p.dataWord 12#4) ts) s

/-- `STR13` on channel `c` (R151). -/
def execStr13 (c : Nat) (p : Payload) (ts : TS) (s : State TS Sat) :
    Host.Outcome (State TS Sat) Fault Refusal :=
  onChannel c (str13 (p.dataWord 13#4) ts) s

/-- `STR14` on channel `c` (R152). -/
def execStr14 (c : Nat) (p : Payload) (ts : TS) (s : State TS Sat) :
    Host.Outcome (State TS Sat) Fault Refusal :=
  onChannel c (str14 (p.dataWord 14#4) ts) s

/-- `STR15` on channel `c` (R153). -/
def execStr15 (c : Nat) (p : Payload) (ts : TS) (s : State TS Sat) :
    Host.Outcome (State TS Sat) Fault Refusal :=
  onChannel c (str15 (p.dataWord 15#4) ts) s

/-- `STRING_DONE` (R84): the string of a data word, by its id. -/
def stringDone (d : DataWord) (ts : TS) (l : LocalOf TS Sat) : LocalOf TS Sat :=
  match stringId d with
  | 1 => str1 d ts l
  | 2 => str2 d ts l
  | 3 => str3 d ts l
  | 4 => str4 d ts l
  | 5 => str5 d ts l
  | 6 => str6 d ts l
  | 7 => str7 d ts l
  | 8 => str8 d ts l
  | 9 => str9 d ts l
  | 10 => str10 d ts l
  | 11 => str11 d ts l
  | 12 => str12 d ts l
  | 13 => str13 d ts l
  | 14 => str14 d ts l
  | 15 => str15 d ts l
  | _ => str0 d ts l

end Sys2Proof.Machine
end

