-- ==== Sys2Proof/Machine/FrameSync.lean ====
section
/-! DEFINITION. The frame_synchronizer (R90 to R104): window, search, acquisition, block framing, time-mark check,
loss of sync. -/

namespace Sys2Proof.Machine

variable {TS Sat : Type}

/-- Window shift (R91): every PUSH, in every state, before anything else. -/
def windowShift (b : Bit) (ts : TS) (l : LocalOf TS Sat) : LocalOf TS Sat :=
  { l with ch := { l.ch with
      win := shiftBits l.ch.win b
      winTs := shiftTs l.ch.winTs ts
      winN := min 30 (l.ch.winN + 1) } }

/-- `ACQUIRE(p)` (R95): the window becomes the time mark of the first block. -/
def acquire (p : Bit) (l : LocalOf TS Sat) : LocalOf TS Sat :=
  asmReset { l with ch := { l.ch with
      pol := p
      buf := memWriteMark l.ch.buf (xorPol l.ch.win p)
      bufTs := l.ch.winTs[0]
      bitcnt := 30
      miss := 0
      sync := .synced } }

/-- Search step (R94): correlate a full window against the pattern and its complement. -/
def searchStep (l : LocalOf TS Sat) : LocalOf TS Sat :=
  if l.ch.winN = 30 then
    let m := agree l.ch.win l.cfg.tm
    if l.cfg.tSync ≤ m then acquire false l
    else if l.cfg.tSync ≤ 30 - m then acquire true l
    else l
  else l

/-- `LOSE` (R98): the second miss in a row. The assembler's partials are not touched. -/
def lose (l : LocalOf TS Sat) : LocalOf TS Sat :=
  ({ l with ch := { l.ch with sync := .lost, bitcnt := 0, miss := 0 } }).raise (.syncLoss l.ch.sat)

/-- `TM_CHECK` (R97): the time mark of a later block, polarity-corrected, against `TM`. -/
def tmCheck (l : LocalOf TS Sat) : LocalOf TS Sat :=
  if l.cfg.tSync ≤ agree (rawMark l.ch.buf) l.cfg.tm then { l with ch := { l.ch with miss := 0 } }
  else if l.ch.miss = 0 then { l with ch := { l.ch with miss := 1 } }
  else lose l

/-- `BLOCK_DONE` (R100): hand the block to the string pipeline. The buffer then holds no value (R13). -/
def blockDone (l : LocalOf TS Sat) : LocalOf TS Sat := stringDone (rawData l.ch.buf) l.ch.bufTs l

/-- `buf[p] <- b xor pol`, and `buf_ts <- ts` at the block's first position (R96). -/
def storeBit (p : Nat) (b : Bit) (ts : TS) (l : LocalOf TS Sat) : LocalOf TS Sat :=
  { l with ch := { l.ch with
      buf := memWrite l.ch.buf p (b ^^ l.ch.pol)
      bufTs := if p = 1 then ts else l.ch.bufTs } }

/-- Consume one bit (R96). -/
def consumeBit (b : Bit) (ts : TS) (l : LocalOf TS Sat) : LocalOf TS Sat :=
  let p := l.ch.bitcnt + 1
  let l1 := storeBit p b ts l
  let l2 := if p = 30 then tmCheck l1 else l1
  if l2.ch.sync = .synced then
    if p = 115 then blockDone { l2 with ch := { l2.ch with bitcnt := 0 } }
    else { l2 with ch := { l2.ch with bitcnt := p } }
  else l2

/-- Leaving LOST (R99): this very bit is searched on. -/
def leaveLost (l : LocalOf TS Sat) : LocalOf TS Sat := searchStep { l with ch := { l.ch with sync := .searching } }

/-- What a PUSH does to its channel (R83). -/
def pushBit (b : Bit) (ts : TS) (l : LocalOf TS Sat) : LocalOf TS Sat :=
  let l1 := windowShift b ts l
  match l1.ch.sync with
  | .lost => leaveLost l1
  | .searching => searchStep l1
  | .synced => consumeBit b ts l1

end Sys2Proof.Machine
end

