-- ==== Sys2Proof/Machine/Interface.lean ====
section
/-! DEFINITION. The four interface operations (R80 to R88). Each begins with an empty output list (R12). -/

namespace Sys2Proof.Machine

variable {TS Sat : Type}

/-- RESET (R81), the first operation of a run. It refuses parameters that break R204 (log entry 15) and a list of
the wrong length (R80); it is the only operation that takes `T.valid` to 0. -/
def execReset [Inhabited TS] (sats : List Sat) (s : State TS Sat) :
    Host.Outcome (State TS Sat) Fault Refusal :=
  if s.cfg.WF then
    if sats.length = s.cfg.nCh then
      .next { s with
        started := true
        time := TimeState.afterReset
        chans := sats.map (ChannelOf.afterReset default)
        out := [] }
    else .refused .illFormed
  else .refused .badParameters

/-- CH_RESET (R82): one channel to the values of R37; nothing of another channel, TimeState untouched. -/
def execChReset [Inhabited TS] (c : Nat) (sat : Sat) (s : State TS Sat) :
    Host.Outcome (State TS Sat) Fault Refusal :=
  onChannel c (fun l => { l with ch := ChannelOf.afterReset default sat, out := [] }) s

/-- PUSH (R83). -/
def execPush (c : Nat) (b : Bit) (ts : TS) (s : State TS Sat) :
    Host.Outcome (State TS Sat) Fault Refusal :=
  onChannel c (fun l => pushBit b ts { l with out := [] }) s

/-- The one output of a QUERY (R85, R180). -/
def queryAnswer : Stamp → OutputOf TS Sat
  | .unresolved => .err .timeUnresolved
  | .at r => .resolved r

/-- QUERY (R85): a pure read of TimeState. -/
def execQuery (sod : Rat) (ref : TimeRef) (s : State TS Sat) :
    Host.Outcome (State TS Sat) Fault Refusal :=
  if s.started = true then .next { s with out := [queryAnswer (resolve s.cfg.epoch0.eval s.time sod ref)] }
  else .refused .beforeReset

end Sys2Proof.Machine
end

