-- ==== Sys2Proof/Machine/Dispatch.lean ====
section
/-! DEFINITION. The dispatcher: one arm per row of the opcode table. -/

namespace Sys2Proof.Machine

def exec (i : Instr) (s : State) : Host.Outcome State Fault Refusal :=
  match i with
  | .str0 c p ts => Sys2Proof.Machine.execStr0 c p ts s
  | .str1 c p ts => Sys2Proof.Machine.execStr1 c p ts s
  | .str2 c p ts => Sys2Proof.Machine.execStr2 c p ts s
  | .str3 c p ts => Sys2Proof.Machine.execStr3 c p ts s
  | .str4 c p ts => Sys2Proof.Machine.execStr4 c p ts s
  | .str5 c p ts => Sys2Proof.Machine.execStr5 c p ts s
  | .str6 c p ts => Sys2Proof.Machine.execStr6 c p ts s
  | .str7 c p ts => Sys2Proof.Machine.execStr7 c p ts s
  | .str8 c p ts => Sys2Proof.Machine.execStr8 c p ts s
  | .str9 c p ts => Sys2Proof.Machine.execStr9 c p ts s
  | .str10 c p ts => Sys2Proof.Machine.execStr10 c p ts s
  | .str11 c p ts => Sys2Proof.Machine.execStr11 c p ts s
  | .str12 c p ts => Sys2Proof.Machine.execStr12 c p ts s
  | .str13 c p ts => Sys2Proof.Machine.execStr13 c p ts s
  | .str14 c p ts => Sys2Proof.Machine.execStr14 c p ts s
  | .str15 c p ts => Sys2Proof.Machine.execStr15 c p ts s
  | .reset sats => Sys2Proof.Machine.execReset sats s
  | .chReset c sat => Sys2Proof.Machine.execChReset c sat s
  | .push c b ts => Sys2Proof.Machine.execPush c b ts s
  | .query sod ref => Sys2Proof.Machine.execQuery sod ref s

end Sys2Proof.Machine
end

