-- ==== Sys2Proof/Machine/Stimulus.lean ====
section
/-! DEFINITION. The tools the spec uses to WRITE test strings: `ENC` (R127), `FILL` (R114) and the notation of R78 and
R79. They are not part of the hardware and no meaning calls them. -/

namespace Sys2Proof.Machine

/-- `D[p] <- v`. -/
def setDataBit (d : DataWord) (p : Nat) (v : Bool) : DataWord :=
  if 1 ≤ p ∧ p ≤ 85 then
    if v then d ||| (1#85 <<< (85 - p)) else d &&& ~~~(1#85 <<< (85 - p))
  else d

/-- The integers a field can be given (R127). -/
abbrev fieldAdmits (sg : Signedness) (n : Nat) (v : Int) : Prop :=
  match sg with
  | .u => 0 ≤ v ∧ v < 2 ^ n
  | .sm => -(2 ^ (n - 1)) < v ∧ v < 2 ^ (n - 1)
  | .tc => -(2 ^ (n - 1)) ≤ v ∧ v < 2 ^ (n - 1)

/-- The raw value that stands for an integer (R127). DESIGN CHOICE (log entry 21): R127 asks for an integer in the range
of its signedness and gives no other a raw value; the function is total, and gives a negative integer the raw value 0
under `U`, and any other integer out of range what the formula gives. -/
def rawOfInt (sg : Signedness) (n : Nat) (v : Int) : Nat :=
  match sg with
  | .u => v.toNat
  | .sm => v.natAbs + if v < 0 then 2 ^ (n - 1) else 0
  | .tc => (v % 2 ^ n).toNat

/-- `raw` written into `D[s..s+n-1]`, most significant bit at `D[s]` (R127). DESIGN CHOICE (log entry 21): of a raw value
of more than `n` bits the low `n` bits are written, and nothing is written outside `D[1..85]`. -/
def writeField (d : DataWord) (s : Nat) : Nat → Nat → DataWord
  | 0, _ => d
  | n + 1, raw => setDataBit (writeField d s n (raw / 2)) (s + n) (raw % 2 = 1)

/-- The integers given to the fields of a string; a field that is not named is 0 (R78). -/
abbrev FieldInts := List (FieldName × Int)

/-- One field of a data word, if it is named (R127). -/
def encField (vals : FieldInts) (d : DataWord) (f : FieldSpec) : DataWord :=
  match vals.lookup f.name with
  | some v => writeField d f.start f.len (rawOfInt f.sign f.len v)
  | none => d

/-- `ENC(id, {name = v, …})` (R127), without the check bits. DESIGN CHOICE (log entry 21): it is total; of an id above
15 the low four bits are written and no field, a name the class does not have is passed over, the first of two values
for one name counts, and a value given for `STRING_ID` overwrites the id. -/
def encData (t : FieldTable) (id : Nat) (vals : FieldInts) : DataWord :=
  match classOf id with
  | some cls => (t.specs cls).foldl (encField vals) (writeField 0#85 2 4 id)
  | none => writeField 0#85 2 4 id

/-- `FILL(D)` (R114): the check bits, row by row, each from the word as filled so far. -/
def fill (ht : List HammingRow) (d : DataWord) : DataWord :=
  ht.foldl (fun d r => setDataBit d r.chk (calcBit d r)) d

/-- The condition R114 puts on the table: no row's set holds its own or a later row's check position. -/
abbrev Fillable (ht : List HammingRow) : Prop :=
  ht.Pairwise (fun r r' => r'.chk ∉ r.sub) ∧ ∀ r ∈ ht, r.chk ∉ r.sub

/-- `S<id>{…}` (R78). -/
def stimString (cfg : Config) (id : Nat) (vals : FieldInts) : RawBits :=
  rawOf cfg.tm (fill cfg.ht (encData cfg.ft id vals))

/-- `VOID` (R79). -/
def stimVoid (cfg : Config) : RawBits := stimString cfg 0 []

/-- `X^q` (R78): `RS[q]` complemented. -/
def flipRaw (rs : RawBits) (q : Nat) : RawBits := memWrite rs q (!rsBit rs q)

/-- `X!p` (R78): `D[p]` complemented. -/
def flipData (rs : RawBits) (p : Nat) : RawBits := flipRaw rs (30 + p)

/-- A program of one channel: one PUSH per bit, the `k`-th with timestamp `ts + k` (R78). -/
def pushAll (c : Nat) (ts : SampleTime) : List Bit → List Op
  | [] => []
  | b :: bs => .push c b ts :: pushAll c (ts + 1) bs

end Sys2Proof.Machine
end

