-- ==== Sys2Proof/Machine/Step.lean ====
section
/-! DEFINITION. One step of the core: the next operation the driver has queued (R5, R51, R80). -/

namespace Sys2Proof.Machine

variable {TS Sat : Type}

/-- One step with a given dispatcher. The first queued operation is taken and run on an empty output list (R12). With
nothing queued the core does nothing: it "does nothing between operations" (R199); DESIGN CHOICE (log entry 12). -/
def stepWith (run : Instr TS Sat → State TS Sat → Host.Outcome (State TS Sat) Fault Refusal) (s : State TS Sat) :
    Host.Outcome (State TS Sat) Fault Refusal :=
  match s.ops with
  | [] => .next { s with out := [] }
  | op :: rest => run op.instr { s with ops := rest, out := [] }

/-- One step of the machine the host runs: the instance at the naturals (log entry 3). -/
def step (s : State) : Host.Outcome State Fault Refusal := stepWith exec s

/-- The dispatcher for any types of timestamps and satellite tags (R7, R17): the same meanings as `exec`'s. -/
def execOf [Inhabited TS] (i : Instr TS Sat) (s : State TS Sat) : Host.Outcome (State TS Sat) Fault Refusal :=
  match i with
  | .str0 c p ts => execStr0 c p ts s
  | .str1 c p ts => execStr1 c p ts s
  | .str2 c p ts => execStr2 c p ts s
  | .str3 c p ts => execStr3 c p ts s
  | .str4 c p ts => execStr4 c p ts s
  | .str5 c p ts => execStr5 c p ts s
  | .str6 c p ts => execStr6 c p ts s
  | .str7 c p ts => execStr7 c p ts s
  | .str8 c p ts => execStr8 c p ts s
  | .str9 c p ts => execStr9 c p ts s
  | .str10 c p ts => execStr10 c p ts s
  | .str11 c p ts => execStr11 c p ts s
  | .str12 c p ts => execStr12 c p ts s
  | .str13 c p ts => execStr13 c p ts s
  | .str14 c p ts => execStr14 c p ts s
  | .str15 c p ts => execStr15 c p ts s
  | .reset sats => execReset sats s
  | .chReset c sat => execChReset c sat s
  | .push c b ts => execPush c b ts s
  | .query sod ref => execQuery sod ref s

/-- One step for any types of timestamps and satellite tags. -/
def stepOf [Inhabited TS] (s : State TS Sat) : Host.Outcome (State TS Sat) Fault Refusal := stepWith execOf s

/-- The state with operations queued by the driver. -/
def State.withOps (s : State TS Sat) (ops : List (Op TS Sat)) : State TS Sat := { s with ops := ops }

/-- A channel after the first 114 bits of a string, received with timestamp `ts` in the channel's polarity (R23, R91,
R96): the bits are stored, the window holds the last thirty of them as received, and every timestamp is `ts`. -/
def ChannelOf.holding (ch : ChannelOf TS Sat) (rs : RawBits) (ts : TS) : ChannelOf TS Sat :=
  { ch with
    win := xorPol (rs.extractLsb' 1 30) ch.pol
    winTs := Vector.replicate 30 ts
    winN := 30
    sync := .synced
    bitcnt := 114
    buf := memWrite rs 115 false
    bufTs := ts }

/-- A string instruction placed where the core fetches one: in the buffer of channel 0, its last bit queued as a PUSH
in the channel's recorded polarity (log entry 12). `w` is numbered as the opcode table numbers its words; bits above
the string's 115 do not exist. -/
def State.withFetchWord (s : State) (nbits w : Nat) : State :=
  let rs : RawBits := BitVec.ofNat 115 (if nbits = 0 then 0 else w)
  match s.chans with
  | [] => s
  | ch :: rest =>
    { s with
      chans := ch.holding rs 0 :: rest
      ops := [.push 0 (rsBit rs 115 ^^ ch.pol) 0] }

end Sys2Proof.Machine
end

