-- ==== Sys2Proof/Safety.lean ====
section
/-! DEFINITION. The terms claims about the core are written in: the invariants of R36, runs of operations, and the
relations between two states that the isolation, polarity and no-value claims compare. -/

namespace Sys2Proof

variable {TS Sat TS' Sat' : Type}

/-- An instruction with its tags replaced. -/
def Instr.mapTags (f : TS → TS') (g : Sat → Sat') : Instr TS Sat → Instr TS' Sat'
  | .str0 c p ts => .str0 c p (f ts)
  | .str1 c p ts => .str1 c p (f ts)
  | .str2 c p ts => .str2 c p (f ts)
  | .str3 c p ts => .str3 c p (f ts)
  | .str4 c p ts => .str4 c p (f ts)
  | .str5 c p ts => .str5 c p (f ts)
  | .str6 c p ts => .str6 c p (f ts)
  | .str7 c p ts => .str7 c p (f ts)
  | .str8 c p ts => .str8 c p (f ts)
  | .str9 c p ts => .str9 c p (f ts)
  | .str10 c p ts => .str10 c p (f ts)
  | .str11 c p ts => .str11 c p (f ts)
  | .str12 c p ts => .str12 c p (f ts)
  | .str13 c p ts => .str13 c p (f ts)
  | .str14 c p ts => .str14 c p (f ts)
  | .str15 c p ts => .str15 c p (f ts)
  | .reset sats => .reset (sats.map g)
  | .chReset c sat => .chReset c (g sat)
  | .push c b ts => .push c b (f ts)
  | .query sod ref => .query sod ref

/-- An operation with its tags replaced. -/
def Op.mapTags (f : TS → TS') (g : Sat → Sat') : Op TS Sat → Op TS' Sat'
  | .reset sats => .reset (sats.map g)
  | .chReset c sat => .chReset c (g sat)
  | .push c b ts => .push c b (f ts)
  | .query sod ref => .query sod ref

end Sys2Proof

namespace Sys2Proof.Machine

variable {TS Sat : Type}

/-! ### Invariants between steps (R36) -/

/-- What an ephemeris partial is between steps (R26, R27, R36): a prefix of the four strings, holding exactly the names
of their classes other than `STRING_ID`. -/
abbrev ChannelOf.EphInv (cfg : Config) (ch : ChannelOf TS Sat) : Prop :=
  let names := ch.eph.map (·.1)
  (ch.ephHave = 0b0000#4 ∧ names = []) ∨
  (ch.ephHave = 0b1000#4 ∧ names = recordNames cfg.ft.c1) ∨
  (ch.ephHave = 0b1100#4 ∧ names = recordNames cfg.ft.c1 ++ recordNames cfg.ft.c2) ∨
  (ch.ephHave = 0b1110#4 ∧ names = recordNames cfg.ft.c1 ++ recordNames cfg.ft.c2 ++ recordNames cfg.ft.c3)

/-- What the almanac partial is between steps (R28, R29, R36): empty, or the fields of one even string, with its id
and its `n_A`. -/
abbrev ChannelOf.AlmInv (cfg : Config) (ch : ChannelOf TS Sat) : Prop :=
  (ch.almPend = false → ch.alm = []) ∧
  (ch.almPend = true →
    ch.alm.map (·.1) = recordNames cfg.ft.even ∧ FieldMap.get? ch.alm .nA = some ch.almNA ∧
    ch.almId ∈ ([6, 8, 10, 12, 14] : List (Fin 16)))

/-- The invariants of R36 for one channel. The half of R36 (c) that fails for some tables is left out
(log entry 17). -/
abbrev ChannelOf.Inv (cfg : Config) (ch : ChannelOf TS Sat) : Prop :=
  ch.bitcnt ≤ 114 ∧ ch.winN ≤ 30 ∧ ch.miss ≤ 1 ∧ (ch.sync = .synced → ch.winN = 30) ∧
  (ch.miss = 1 → ch.sync = .synced) ∧ ch.EphInv cfg ∧ ch.AlmInv cfg

/-- The invariants of the core: once started, the parameters meet R204, there are `N_CH` channels (R16), and each
meets R36. -/
abbrev State.Inv (s : State) : Prop :=
  s.started = true → s.cfg.WF ∧ s.chans.length = s.cfg.nCh ∧ ∀ ch ∈ s.chans, ch.Inv s.cfg

/-- The elements of a channel to which R37 gives a value after RESET or CH_RESET, at that value. -/
def ChannelOf.AtReset (sat : Sat) (ch : ChannelOf TS Sat) : Prop :=
  ch.sat = sat ∧ ch.winN = 0 ∧ ch.sync = .searching ∧ ch.pol = false ∧ ch.bitcnt = 0 ∧ ch.miss = 0 ∧
  ch.ephHave = 0b0000#4 ∧ ch.eph = [] ∧ ch.almPend = false ∧ ch.alm = [] ∧
  ch.cntSyncLoss = 0 ∧ ch.cntCksumFail = 0 ∧ ch.cntUnknownId = 0 ∧ ch.cntRestart = 0

/-! ### Runs -/

/-- The operations performed one after another from a state: the output list of each step, and the last state;
`none` if one of them is refused. -/
def runOps : List Op → State → Option (List (List Output) × State)
  | [], s => some ([], s)
  | op :: ops, s =>
    match exec op.instr s with
    | .next t => (runOps ops t).map fun r => (t.out :: r.1, r.2)
    | .fault _ => none
    | .refused _ => none

/-- What reaches the assembler of one channel: an acquisition (R137) or a string slot (R131). -/
inductive AsmInput where
  | acquisition
  | slot (ev : AsmEvent) (rsTs : SampleTime)
deriving DecidableEq, Repr

/-- One assembler input. -/
def asmInput (i : AsmInput) (l : Local) : Local :=
  match i with
  | .acquisition => asmReset l
  | .slot ev rsTs => asm ev rsTs l

/-- A sequence of assembler inputs. -/
def asmRun : List AsmInput → Local → Local
  | [], l => l
  | i :: is, l => asmRun is (asmInput i l)

/-- An even or odd almanac string (R14). -/
def AsmInput.IsAlmanac : AsmInput → Prop
  | .slot (.str id _) _ => classOf id = some .even ∨ classOf id = some .odd
  | _ => False

/-! ### The string forms -/

/-- The sixteen string instructions with given tags and payload, each with its data word. -/
def stringForms (c : Nat) (p : Payload) (ts : SampleTime) : List (Instr × DataWord) :=
  [ (.str0 c p ts, p.dataWord 0#4), (.str1 c p ts, p.dataWord 1#4), (.str2 c p ts, p.dataWord 2#4),
    (.str3 c p ts, p.dataWord 3#4), (.str4 c p ts, p.dataWord 4#4), (.str5 c p ts, p.dataWord 5#4),
    (.str6 c p ts, p.dataWord 6#4), (.str7 c p ts, p.dataWord 7#4), (.str8 c p ts, p.dataWord 8#4),
    (.str9 c p ts, p.dataWord 9#4), (.str10 c p ts, p.dataWord 10#4), (.str11 c p ts, p.dataWord 11#4),
    (.str12 c p ts, p.dataWord 12#4), (.str13 c p ts, p.dataWord 13#4), (.str14 c p ts, p.dataWord 14#4),
    (.str15 c p ts, p.dataWord 15#4) ]

/-- The five even string instructions, each with its data word and its id (R14). -/
def evenForms (c : Nat) (p : Payload) (ts : SampleTime) : List (Instr × DataWord × Fin 16) :=
  [ (.str6 c p ts, p.dataWord 6#4, 6), (.str8 c p ts, p.dataWord 8#4, 8),
    (.str10 c p ts, p.dataWord 10#4, 10), (.str12 c p ts, p.dataWord 12#4, 12),
    (.str14 c p ts, p.dataWord 14#4, 14) ]

/-- The five odd string instructions, each with its data word (R14). -/
def oddForms (c : Nat) (p : Payload) (ts : SampleTime) : List (Instr × DataWord) :=
  [ (.str7 c p ts, p.dataWord 7#4), (.str9 c p ts, p.dataWord 9#4), (.str11 c p ts, p.dataWord 11#4),
    (.str13 c p ts, p.dataWord 13#4), (.str15 c p ts, p.dataWord 15#4) ]

/-! ### Other types of tags -/

section

variable {TS' Sat' : Type}

/-- A signal with its tag replaced. -/
def ErrOf.mapTags (g : Sat → Sat') : ErrOf Sat → ErrOf Sat'
  | .syncLoss sat => .syncLoss (g sat)
  | .checksumFailure sat => .checksumFailure (g sat)
  | .unknownStringId sat id => .unknownStringId (g sat) id
  | .incompleteFrame sat cat => .incompleteFrame (g sat) cat
  | .timeUnresolved => .timeUnresolved

/-- An output with its tags replaced. -/
def OutputOf.mapTags (f : TS → TS') (g : Sat → Sat') : OutputOf TS Sat → OutputOf TS' Sat'
  | .err e => .err (e.mapTags g)
  | .ephemerisReady sat fields stamp rx => .ephemerisReady (g sat) fields stamp (f rx)
  | .almanacReady sat nA fields stamp rx => .almanacReady (g sat) nA fields stamp (f rx)
  | .timeUpdate sat n4 nT tauC tauGps => .timeUpdate (g sat) n4 nT tauC tauGps
  | .resolved epoch => .resolved epoch

/-- A channel with its tags replaced. -/
def ChannelOf.mapTags (f : TS → TS') (g : Sat → Sat') (ch : ChannelOf TS Sat) : ChannelOf TS' Sat' :=
  { ch with sat := g ch.sat, winTs := ch.winTs.map f, bufTs := f ch.bufTs }

/-- A state with all tags replaced. -/
def State.mapTags (f : TS → TS') (g : Sat → Sat') (s : State TS Sat) : State TS' Sat' :=
  { s with
    chans := s.chans.map (ChannelOf.mapTags f g)
    out := s.out.map (OutputOf.mapTags f g)
    ops := s.ops.map (Op.mapTags f g) }

/-- The view of a channel with all tags replaced. -/
def LocalOf.mapTags (f : TS → TS') (g : Sat → Sat') (l : LocalOf TS Sat) : LocalOf TS' Sat' :=
  { l with ch := l.ch.mapTags f g, out := l.out.map (OutputOf.mapTags f g) }

end

/-! ### Two states side by side -/

/-- Two outcomes go the same way: both next states and related, or the same refusal, or the same fault. -/
def OutcomesAgree (r : State → State → Prop) :
    Host.Outcome State Fault Refusal → Host.Outcome State Fault Refusal → Prop
  | .next s, .next t => r s t
  | .fault a, .fault b => a = b
  | .refused a, .refused b => a = b
  | _, _ => False

/-- Two states agree on everything a rule about channel `c` may read (R51, R87): the parameters, TimeState, that
channel and the output list. -/
def State.AgreeOn (c : Nat) (s t : State) : Prop :=
  s.cfg = t.cfg ∧ s.started = t.started ∧ s.time = t.time ∧ s.chans[c]? = t.chans[c]? ∧ s.out = t.out

/-- Two TimeStates agree on what holds a value (R18). -/
def TimeState.Same (a b : TimeState) : Prop := a.valid = b.valid ∧ (a.valid = true → a = b)

/-- Two channels agree on every element that holds a value (R13, R20, R25, R28, R37): a place of the window only if a
received bit fills it, a place of the buffer only while `SYNCED` and up to `bitcnt`, the almanac's `id` and `n_A` only
while a half waits. -/
def ChannelOf.Same (a b : ChannelOf TS Sat) : Prop :=
  a.sat = b.sat ∧ a.winN = b.winN ∧
  (∀ i, i < 30 → i < a.winN → a.win.getLsbD i = b.win.getLsbD i) ∧
  (∀ i (h : i < 30), 30 - a.winN ≤ i → a.winTs[i] = b.winTs[i]) ∧
  a.sync = b.sync ∧ a.pol = b.pol ∧ a.bitcnt = b.bitcnt ∧ a.miss = b.miss ∧
  (a.sync = .synced → ∀ q, q ≤ a.bitcnt → rsBit a.buf q = rsBit b.buf q) ∧
  (a.sync = .synced → 1 ≤ a.bitcnt → a.bufTs = b.bufTs) ∧
  a.ephHave = b.ephHave ∧ a.eph = b.eph ∧ a.almPend = b.almPend ∧
  (a.almPend = true → a.almId = b.almId ∧ a.almNA = b.almNA) ∧ a.alm = b.alm ∧
  a.cntSyncLoss = b.cntSyncLoss ∧ a.cntCksumFail = b.cntCksumFail ∧ a.cntUnknownId = b.cntUnknownId ∧
  a.cntRestart = b.cntRestart

/-- Two states agree on every element that holds a value. -/
def State.Same (s t : State) : Prop :=
  s.cfg = t.cfg ∧ s.started = t.started ∧ TimeState.Same s.time t.time ∧ List.Forall₂ ChannelOf.Same s.chans t.chans ∧
  s.out = t.out ∧ s.ops = t.ops

/-- Two channels that have received complementary bits (R103): everything is equal but the window, complemented in the
places received bits fill, and the polarity, complemented while `SYNCED`. -/
def ChannelOf.Mirrored (a b : ChannelOf TS Sat) : Prop :=
  a.sat = b.sat ∧ a.winN = b.winN ∧ a.winTs = b.winTs ∧
  (∀ i, i < 30 → i < a.winN → a.win.getLsbD i = !b.win.getLsbD i) ∧
  a.sync = b.sync ∧ (a.sync = .synced → a.pol = !b.pol) ∧ a.bitcnt = b.bitcnt ∧ a.miss = b.miss ∧
  a.buf = b.buf ∧ a.bufTs = b.bufTs ∧ a.ephHave = b.ephHave ∧ a.eph = b.eph ∧ a.almPend = b.almPend ∧
  a.almId = b.almId ∧ a.almNA = b.almNA ∧ a.alm = b.alm ∧ a.cntSyncLoss = b.cntSyncLoss ∧
  a.cntCksumFail = b.cntCksumFail ∧ a.cntUnknownId = b.cntUnknownId ∧ a.cntRestart = b.cntRestart

/-- Two states whose channels `c` are mirrored and which agree on everything else (R103). -/
def State.MirroredOn (c : Nat) (s t : State) : Prop :=
  s.cfg = t.cfg ∧ s.started = t.started ∧ s.time = t.time ∧ s.out = t.out ∧ s.ops = t.ops ∧
  s.chans.length = t.chans.length ∧ (∀ d, d ≠ c → s.chans[d]? = t.chans[d]?) ∧
  (∀ a b, s.chans[c]? = some a → t.chans[c]? = some b → a.Mirrored b)

end Sys2Proof.Machine
end

