-- ==== Sys2Proof/WellFormed.lean ====
section
/-! DEFINITION. Which instructions are well formed (R80): the channel exists, and a RESET names one tag per channel.
A bit, a timestamp and a reference are well formed by their types. The parameters' own conditions are
`Config.WF` in Machine/Params.lean. -/

namespace Sys2Proof

/-- An operation or a string is well formed for given parameters (R80). -/
abbrev Instr.WellFormed {TS Sat : Type} (cfg : Config) (i : Instr TS Sat) : Prop :=
  match i with
  | .str0 c _ _ => c < cfg.nCh
  | .str1 c _ _ => c < cfg.nCh
  | .str2 c _ _ => c < cfg.nCh
  | .str3 c _ _ => c < cfg.nCh
  | .str4 c _ _ => c < cfg.nCh
  | .str5 c _ _ => c < cfg.nCh
  | .str6 c _ _ => c < cfg.nCh
  | .str7 c _ _ => c < cfg.nCh
  | .str8 c _ _ => c < cfg.nCh
  | .str9 c _ _ => c < cfg.nCh
  | .str10 c _ _ => c < cfg.nCh
  | .str11 c _ _ => c < cfg.nCh
  | .str12 c _ _ => c < cfg.nCh
  | .str13 c _ _ => c < cfg.nCh
  | .str14 c _ _ => c < cfg.nCh
  | .str15 c _ _ => c < cfg.nCh
  | .reset sats => sats.length = cfg.nCh
  | .chReset c _ => c < cfg.nCh
  | .push c _ _ => c < cfg.nCh
  | .query _ _ => True

end Sys2Proof
end

