-- ==== Sys2Proof/Certificates/Slice0/Obligations.lean ====
section
/-! DEFINITION. The statements for the provers, from the numbered rules of `spec/`. -/

open Sys2Proof Sys2Proof.Machine

/-! ### Reset, refusals, queries -/

/-- R81 (with R37, R80, R203, R204): RESET, from any state, on parameters that meet R204 and a list of `N_CH` tags,
gives a state in which TimeState is not valid, every channel has the values of R37 and its tag from the list, nothing
is output, and the parameters stand. -/
def Obligations.ResetGivesEveryElementItsResetValue : Prop :=
  ∀ (s : State) (sats : List SatId), s.cfg.WF → sats.length = s.cfg.nCh →
    ∃ t, exec (.reset sats) s = .next t ∧ t.started = true ∧ t.time.valid = false ∧ t.out = [] ∧
      t.cfg = s.cfg ∧ t.ops = s.ops ∧ t.chans.length = s.cfg.nCh ∧
      ∀ (c : Nat) (sat : SatId), sats[c]? = some sat → ∃ ch : Channel, t.chans[c]? = some ch ∧ ch.AtReset sat

/-- R82 (with R37, R202): CH_RESET gives channel `c` the values of R37 with its operand as tag, and changes nothing of
another channel and nothing of TimeState. -/
def Obligations.ChannelResetTouchesOneChannelOnly : Prop :=
  ∀ (s : State) (c : Nat) (sat : SatId), s.started = true → c < s.chans.length →
    ∃ t, exec (.chReset c sat) s = .next t ∧ (∃ ch : Channel, t.chans[c]? = some ch ∧ ch.AtReset sat) ∧
      (∀ d, d ≠ c → t.chans[d]? = s.chans[d]?) ∧ t.chans.length = s.chans.length ∧ t.time = s.time ∧ t.out = [] ∧
      t.cfg = s.cfg ∧ t.started = true ∧ t.ops = s.ops

/-- R85 (with R167, R180): a QUERY before any string 5 answers TimeUnresolved and changes nothing but the output list.
-/
def Obligations.QueryBeforeStringFiveIsUnresolved : Prop :=
  ∀ (s : State) (sod : Rat) (ref : TimeRef), s.started = true → s.time.valid = false →
    exec (.query sod ref) s = .next { s with out := [.err .timeUnresolved] }

/-- R85 (with R169, R170): a QUERY with a valid TimeState answers the epoch, shifted by the reference's offset, and
changes nothing but the output list. -/
def Obligations.QueryResolvesTheEpoch : Prop :=
  ∀ (s : State) (sod : Rat), s.started = true → s.time.valid = true →
    let base := s.cfg.epoch0.eval s.time.n4 + (s.time.nT - 1) * 86400 + sod
    exec (.query sod .glonass) s = .next { s with out := [.resolved base] } ∧
    exec (.query sod .utc) s = .next { s with out := [.resolved (base + s.time.tauC)] } ∧
    exec (.query sod .gps) s = .next { s with out := [.resolved (base + s.time.tauGps)] }

/-- R203: before the first RESET there is no step for any other operation, and none for a string. -/
def Obligations.OnlyResetRunsBeforeTheFirstReset : Prop :=
  ∀ (s : State) (i : Instr), s.started = false → (∀ sats, i ≠ .reset sats) → exec i s = .refused .beforeReset

/-- R204: parameters that break a condition are refused: RESET gives no state, so that nothing else ever runs. The
check is made at RESET: the model's choice, log entry 15. -/
def Obligations.BadParametersAreRefused : Prop :=
  ∀ (s : State) (i : Instr), ¬ s.cfg.WF → s.Inv → ∃ r, exec i s = .refused r

/-- R80, and R86, which the spec marks as derived: in a state that meets the invariants, after RESET, every
well-formed instruction has a next state, and an ill-formed one is refused. -/
def Obligations.ExactlyTheWellFormedRun : Prop :=
  ∀ (s : State) (i : Instr), s.started = true → s.Inv →
    (i.WellFormed s.cfg → ∃ t, exec i s = .next t) ∧ (¬ i.WellFormed s.cfg → exec i s = .refused .illFormed)

/-! ### frame_synchronizer -/

/-- R83, R91: every PUSH on an existing channel completes, shifts the window of that channel by the bit and its
timestamp, and leaves its tag, every other channel and the parameters alone. -/
def Obligations.PushShiftsTheWindow : Prop :=
  ∀ (s : State) (c : Nat) (ch : Channel) (b : Bit) (ts : SampleTime), s.started = true → s.chans[c]? = some ch →
    ∃ t u, exec (.push c b ts) s = .next t ∧ t.chans[c]? = some u ∧
      (∀ i, 1 ≤ i → i ≤ 29 → markBit u.win i = markBit ch.win (i + 1)) ∧ markBit u.win 30 = b ∧
      (∀ i (h : i < 29), u.winTs[i] = ch.winTs[i + 1]) ∧ u.winTs[29] = ts ∧ u.winN = min 30 (ch.winN + 1) ∧
      u.sat = ch.sat ∧ (∀ d, d ≠ c → t.chans[d]? = s.chans[d]?) ∧ t.chans.length = s.chans.length ∧
      t.cfg = s.cfg ∧ t.started = s.started ∧ t.ops = s.ops

/-- R94, R95, R99, R137: a PUSH that fills the window, in SEARCHING or LOST, with bits that agree with the time mark
or its complement in `T_SYNC` places acquires: the polarity is recorded, the corrected window becomes positions 1..30
of the block, the block starts at the window's oldest bit, and the partials are cleared without a signal. Every other
element keeps its value; what `buf[31..115]`, `alm_id` and `alm_nA` then hold is no value (R25, R137), so nothing is
said of it. -/
def Obligations.AgreementAcquires : Prop :=
  ∀ (s : State) (c : Nat) (ch : Channel) (b : Bit) (ts : SampleTime) (p : Bit), s.started = true →
    s.chans[c]? = some ch → ch.sync ≠ .synced → 29 ≤ ch.winN →
    (p = false ∧ s.cfg.tSync ≤ agree (shiftBits ch.win b) s.cfg.tm ∨
     p = true ∧ ¬ s.cfg.tSync ≤ agree (shiftBits ch.win b) s.cfg.tm ∧
       s.cfg.tSync ≤ 30 - agree (shiftBits ch.win b) s.cfg.tm) →
    ∃ (buf : RawBits) (almId : Fin 16) (almNA : Rat), rawMark buf = xorPol (shiftBits ch.win b) p ∧
      exec (.push c b ts) s = .next { s with out := [], chans := s.chans.set c { ch with
        win := shiftBits ch.win b
        winTs := shiftTs ch.winTs ts
        winN := 30
        sync := .synced
        pol := p
        buf := buf
        bufTs := (shiftTs ch.winTs ts)[0]
        bitcnt := 30
        miss := 0
        ephHave := 0b0000#4
        eph := []
        almPend := false
        almId := almId
        almNA := almNA
        alm := [] } }

/-- R94, R99: a PUSH in SEARCHING or LOST whose window is not full, or agrees neither way, changes the window only and
is searching afterwards. -/
def Obligations.NoAgreementKeepsSearching : Prop :=
  ∀ (s : State) (c : Nat) (ch : Channel) (b : Bit) (ts : SampleTime), s.started = true →
    s.chans[c]? = some ch → ch.sync ≠ .synced →
    (ch.winN < 29 ∨ ¬ s.cfg.tSync ≤ agree (shiftBits ch.win b) s.cfg.tm ∧
       ¬ s.cfg.tSync ≤ 30 - agree (shiftBits ch.win b) s.cfg.tm) →
    exec (.push c b ts) s = .next { s with out := [], chans := s.chans.set c { ch with
      win := shiftBits ch.win b
      winTs := shiftTs ch.winTs ts
      winN := min 30 (ch.winN + 1)
      sync := .searching } }

/-- R102, which the spec marks as derived: 30 bits agree with a pattern and with its complement in 30 places together,
so that with `T_SYNC >= 16` at most one of the two tests of R94 succeeds. -/
def Obligations.ThePolaritiesAreExclusive : Prop :=
  ∀ (x tm : TimeMark) (tSync : Nat), agree x tm + agree x (~~~tm) = 30 ∧
    (16 ≤ tSync → ¬ (tSync ≤ agree x tm ∧ tSync ≤ 30 - agree x tm))

/-- R96: a bit of a synchronised channel that is neither the 30th nor the 115th of its block is stored,
polarity-corrected, at the next position, and counted; position 1 also records the timestamp. No other position of the
buffer and no other element changes. -/
def Obligations.SyncedBitIsStored : Prop :=
  ∀ (s : State) (c : Nat) (ch : Channel) (b : Bit) (ts : SampleTime), s.started = true →
    s.chans[c]? = some ch → ch.sync = .synced → ch.bitcnt ≤ 113 → ch.bitcnt ≠ 29 →
    ∃ buf, exec (.push c b ts) s = .next { s with out := [], chans := s.chans.set c { ch with
        win := shiftBits ch.win b
        winTs := shiftTs ch.winTs ts
        winN := min 30 (ch.winN + 1)
        buf := buf
        bufTs := if ch.bitcnt = 0 then ts else ch.bufTs
        bitcnt := ch.bitcnt + 1 } } ∧
      rsBit buf (ch.bitcnt + 1) = (b ^^ ch.pol) ∧ ∀ q, q ≠ ch.bitcnt + 1 → rsBit buf q = rsBit ch.buf q

/-- R97: the 30th bit of a block of a synchronised channel: a hit clears `miss`, a first miss sets it, and either way
the block goes on. -/
def Obligations.TimeMarkCheckToleratesOneMiss : Prop :=
  ∀ (s : State) (c : Nat) (ch : Channel) (b : Bit) (ts : SampleTime), s.started = true →
    s.chans[c]? = some ch → ch.sync = .synced → ch.bitcnt = 29 →
    let buf := memWrite ch.buf 30 (b ^^ ch.pol)
    let hit := s.cfg.tSync ≤ agree (rawMark buf) s.cfg.tm
    let after (miss : Nat) : State := { s with out := [], chans := s.chans.set c { ch with
      win := shiftBits ch.win b
      winTs := shiftTs ch.winTs ts
      winN := min 30 (ch.winN + 1)
      buf := buf
      bitcnt := 30
      miss := miss } }
    (hit → exec (.push c b ts) s = .next (after 0)) ∧
    (¬ hit → ch.miss = 0 → exec (.push c b ts) s = .next (after 1))

/-- R98 (with R176): the second miss in a row loses sync: LOST, `bitcnt` and `miss` 0, SyncLoss raised and counted;
the block's bits are dropped, and the partials, TimeState and everything else stay. What the buffer holds afterwards
is no value (R13), so nothing is said of it. -/
def Obligations.SecondMissLosesSync : Prop :=
  ∀ (s : State) (c : Nat) (ch : Channel) (b : Bit) (ts : SampleTime), s.started = true →
    s.chans[c]? = some ch → ch.sync = .synced → ch.bitcnt = 29 → ch.miss ≠ 0 →
    ¬ s.cfg.tSync ≤ agree (rawMark (memWrite ch.buf 30 (b ^^ ch.pol))) s.cfg.tm →
    ∃ buf, exec (.push c b ts) s = .next { s with out := [.err (.syncLoss ch.sat)], chans := s.chans.set c { ch with
      win := shiftBits ch.win b
      winTs := shiftTs ch.winTs ts
      winN := min 30 (ch.winN + 1)
      buf := buf
      sync := .lost
      bitcnt := 0
      miss := 0
      cntSyncLoss := ch.cntSyncLoss + 1 } }

/-- R100, R84: the PUSH of the 115th bit runs, in the same step, the string instruction the completed buffer decodes
to, with the channel and the block's timestamp as its tags. This is the core's fetch: (`sync`, `bitcnt`) is its
program counter (R4). What the buffer and its timestamp hold afterwards is no value (R100), so nothing is said of it.
-/
def Obligations.LastBitRunsTheDecodedString : Prop :=
  ∀ (s : State) (c : Nat) (ch : Channel) (b : Bit) (ts : SampleTime), s.started = true →
    s.chans[c]? = some ch → ch.sync = .synced → ch.bitcnt = 114 →
    let rs := memWrite ch.buf 115 (b ^^ ch.pol)
    ∃ (buf : RawBits) (bufTs : SampleTime),
      exec (.push c b ts) s = exec (decodeRaw c ch.bufTs rs) { s with out := [], chans := s.chans.set c { ch with
        win := shiftBits ch.win b
        winTs := shiftTs ch.winTs ts
        winN := min 30 (ch.winN + 1)
        buf := buf
        bufTs := bufTs
        bitcnt := 0 } }

/-- R101, which the spec marks as derived: the complete transition relation of `sync` under PUSH. -/
def Obligations.SyncTransitionsAreTheTable : Prop :=
  ∀ (s t : State) (c : Nat) (ch u : Channel) (b : Bit) (ts : SampleTime), s.chans[c]? = some ch → ch.miss ≤ 1 →
    exec (.push c b ts) s = .next t → t.chans[c]? = some u →
    let w := shiftBits ch.win b
    let m := agree w s.cfg.tm
    let found := min 30 (ch.winN + 1) = 30 ∧ (s.cfg.tSync ≤ m ∨ s.cfg.tSync ≤ 30 - m)
    let loses := ch.bitcnt + 1 = 30 ∧ ¬ s.cfg.tSync ≤ agree (rawMark (memWrite ch.buf 30 (b ^^ ch.pol))) s.cfg.tm ∧
      ch.miss = 1
    (ch.sync ≠ .synced → (found → u.sync = .synced) ∧ (¬ found → u.sync = .searching)) ∧
    (ch.sync = .synced → (loses → u.sync = .lost) ∧ (¬ loses → u.sync = .synced))

/-- R103, which the spec marks as derived, for one PUSH: complementary bits pushed into mirrored channels give
mirrored channels and the same output. -/
def Obligations.ComplementaryPushesStayMirrored : Prop :=
  ∀ (s t s' : State) (c : Nat) (b : Bit) (ts : SampleTime), 16 ≤ s.cfg.tSync → s.MirroredOn c t →
    exec (.push c b ts) s = .next s' → ∃ t', exec (.push c (!b) ts) t = .next t' ∧ s'.MirroredOn c t'

/-- R103, which the spec marks as derived: a bit stream and its complement, pushed into a channel that is as after
reset, give the same outputs at every step, and end in states that differ only in the window and the polarity of that
channel. -/
def Obligations.PolarityInvariance : Prop :=
  ∀ (s s' : State) (c : Nat) (sat : SatId) (ts : SampleTime) (bits : List Bit) (outs : List (List Output)),
    16 ≤ s.cfg.tSync → (∃ ch, s.chans[c]? = some ch ∧ ch.AtReset sat) →
    runOps (pushAll c ts bits) s = some (outs, s') →
    ∃ t', runOps (pushAll c ts (bits.map (!·))) s = some (outs, t') ∧ s'.MirroredOn c t'

/-! ### hamming_validator -/

/-- R105, R107, R108: a recomputed check bit is the parity of its row's positions: 1 exactly when an odd number of
them hold a one; a word is accepted exactly when every recomputed check bit equals the transmitted one; and the verdict
depends on the data bits the table names and on nothing else: two words that agree on every check position and on every
position of a row are accepted or rejected together. -/
def Obligations.VerdictIsTheEightParities : Prop :=
  ∀ (ht : List HammingRow) (d e : DataWord),
    (∀ r : HammingRow, calcBit d r = true ↔ r.sub.countP (dataBit d) % 2 = 1) ∧
    (hammingAccept ht d = true ↔ ∀ r ∈ ht, calcBit d r = dataBit d r.chk) ∧
    ((∀ r ∈ ht, ∀ p ∈ r.chk :: r.sub, dataBit d p = dataBit e p) → hammingAccept ht d = hammingAccept ht e)

/-- R109, R177, R138, R187: a string whose check bits do not match has the same effect whatever its id says:
ChecksumFailure is raised and counted, a set in progress is discarded with IncompleteFrame, and nothing else changes.
-/
def Obligations.RejectedStringIsDroppedWhole : Prop :=
  ∀ (s : State) (c : Nat) (ch : Channel) (p : Payload) (ts : SampleTime) (i : Instr) (d : DataWord),
    s.started = true → s.chans[c]? = some ch →
    (i, d) ∈ stringForms c p ts →
    hammingAccept s.cfg.ht d = false →
    (ch.ephHave = 0b0000#4 → exec i s = .next { s with
      out := s.out ++ [.err (.checksumFailure ch.sat)]
      chans := s.chans.set c { ch with cntCksumFail := ch.cntCksumFail + 1 } }) ∧
    (ch.ephHave ≠ 0b0000#4 → exec i s = .next { s with
      out := s.out ++ [.err (.checksumFailure ch.sat), .err (.incompleteFrame ch.sat .eph)]
      chans := s.chans.set c { ch with
        cntCksumFail := ch.cntCksumFail + 1, cntRestart := ch.cntRestart + 1, ephHave := 0b0000#4, eph := [] } })

/-- R113 (b), which the spec marks as derived, for the reference table: an accepted word with any one, two or three
positions complemented is rejected. -/
def Obligations.ReferenceTableDetectsThreeErrors : Prop :=
  ∀ (d : DataWord) (ps : List Nat), hammingAccept htRef d = true → ps.Nodup → (∀ p ∈ ps, 1 ≤ p ∧ p ≤ 85) →
    ps ≠ [] → ps.length ≤ 3 →
    hammingAccept htRef (ps.foldl (fun e p => setDataBit e p (!dataBit e p)) d) = false

/-- R113 (a), (c), (d), which the spec marks as derived, for the reference table: the zero word is accepted; positions
1, 2, 6 and 13 of an accepted word can be complemented without detection; the complement of an accepted word is
rejected with syndrome 00101011. -/
def Obligations.ReferenceTableKnownPatterns : Prop :=
  hammingAccept htRef 0#85 = true ∧
  ∀ (d : DataWord), hammingAccept htRef d = true →
    hammingAccept htRef ([1, 2, 6, 13].foldl (fun e p => setDataBit e p (!dataBit e p)) d) = true ∧
    hammingAccept htRef (~~~d) = false ∧
    syndrome htRef (~~~d) = [false, false, true, false, true, false, true, true]

/-- R114, which the spec marks as derived: for a table whose rows hold no check position of their own or a later row,
`FILL` gives an accepted word and changes the check positions only; `HT_REF` is such a table. -/
def Obligations.FillGivesAnAcceptedWord : Prop :=
  Fillable htRef ∧
  ∀ (ht : List HammingRow) (d : DataWord), HammingWF ht → Fillable ht →
    hammingAccept ht (fill ht d) = true ∧
    ∀ p, p ∉ ht.map (·.chk) → dataBit (fill ht d) p = dataBit d p

/-! ### bit_field_extractor -/

/-- R123, R118, R122: for a class that meets the table conditions, the decoded fields hold exactly one entry per
FieldSpec, with the scaled value of its bits. -/
def Obligations.ExtractionHasOneEntryPerField : Prop :=
  ∀ (t : FieldTable) (cls : FieldClass) (d : DataWord), ClassWF (t.specs cls) →
    ((extract t cls d).map (·.1)).Perm (fieldNames (t.specs cls)) ∧
    ∀ f ∈ t.specs cls, FieldMap.get? (extract t cls d) f.name =
      some ((ival f.sign f.len (fld d f.start f.len) : Rat) * f.scale)

/-- R9, R119, R120, R121: the raw value of `n` bits is below `2^n`, and the three signednesses give the ranges of the
rules; sign-magnitude minus zero is 0. -/
def Obligations.SignednessRanges : Prop :=
  ∀ (d : DataWord) (s n : Nat), 1 ≤ n →
    let raw := fld d s n
    raw < 2 ^ n ∧ ival .u n raw = raw ∧
    (-((2 : Int) ^ (n - 1)) < ival .sm n raw ∧ ival .sm n raw < 2 ^ (n - 1)) ∧
    (-((2 : Int) ^ (n - 1)) ≤ ival .tc n raw ∧ ival .tc n raw < 2 ^ (n - 1)) ∧
    ival .sm n (2 ^ (n - 1)) = 0

/-- R66: two words that agree on every position some field of the class covers decode to the same fields. -/
def Obligations.UncoveredPositionsAreIgnored : Prop :=
  ∀ (t : FieldTable) (cls : FieldClass) (d e : DataWord),
    (∀ f ∈ t.specs cls, ∀ p, f.start ≤ p → p < f.start + f.len → dataBit d p = dataBit e p) →
    extract t cls d = extract t cls e

/-- R126, which the spec marks as derived: for tables that meet WF1 to WF3, every id and every integers its fields
admit, each field of the word `ENC` builds decodes to its integer times its scale, and a field that is not named to 0;
filling the check bits changes no field that covers no check position. -/
def Obligations.FieldsRoundTrip : Prop :=
  ∀ (t : FieldTable) (ht : List HammingRow) (id : Nat) (cls : FieldClass) (vals : FieldInts) (f : FieldSpec),
    classOf id = some cls → ClassWF (t.specs cls) → f ∈ t.specs cls → f.name ≠ .stringId →
    (∀ g ∈ t.specs cls, ∀ v, vals.lookup g.name = some v → fieldAdmits g.sign g.len v) →
    let want := (((vals.lookup f.name).getD 0 : Int) : Rat) * f.scale
    FieldMap.get? (extract t cls (encData t id vals)) f.name = some want ∧
    ((∀ r ∈ ht, r.chk < f.start ∨ f.start + f.len ≤ r.chk) →
      FieldMap.get? (extract t cls (fill ht (encData t id vals))) f.name = some want)

/-! ### message_assembler: the string types -/

/-- R154 (with R178, R138): an accepted string 0 raises UnknownStringId with id 0, which is counted, discards a set in
progress with IncompleteFrame, and changes nothing else. -/
def Obligations.StringZeroIsDropped : Prop :=
  ∀ (s : State) (c : Nat) (ch : Channel) (p : Payload) (ts : SampleTime), s.started = true →
    s.chans[c]? = some ch → hammingAccept s.cfg.ht (p.dataWord 0#4) = true →
    (ch.ephHave = 0b0000#4 → exec (.str0 c p ts) s = .next { s with
      out := s.out ++ [.err (.unknownStringId ch.sat 0)]
      chans := s.chans.set c { ch with cntUnknownId := ch.cntUnknownId + 1 } }) ∧
    (ch.ephHave ≠ 0b0000#4 → exec (.str0 c p ts) s = .next { s with
      out := s.out ++ [.err (.unknownStringId ch.sat 0), .err (.incompleteFrame ch.sat .eph)]
      chans := s.chans.set c { ch with
        cntUnknownId := ch.cntUnknownId + 1, cntRestart := ch.cntRestart + 1, ephHave := 0b0000#4, eph := [] } })

/-- R139 (with R133, R179): an accepted string 1 starts a set with its own fields; a set in progress is discarded
first, with IncompleteFrame. TimeState and a waiting even half are not touched. -/
def Obligations.StringOneStartsASet : Prop :=
  ∀ (s : State) (c : Nat) (ch : Channel) (p : Payload) (ts : SampleTime), s.started = true →
    s.chans[c]? = some ch → hammingAccept s.cfg.ht (p.dataWord 1#4) = true →
    let f := FieldMap.merge [] (FieldMap.record (extract s.cfg.ft .c1 (p.dataWord 1#4)))
    (ch.ephHave = 0b0000#4 → exec (.str1 c p ts) s = .next { s with
      chans := s.chans.set c { ch with ephHave := 0b1000#4, eph := f } }) ∧
    (ch.ephHave ≠ 0b0000#4 → exec (.str1 c p ts) s = .next { s with
      out := s.out ++ [.err (.incompleteFrame ch.sat .eph)]
      chans := s.chans.set c { ch with ephHave := 0b1000#4, eph := f, cntRestart := ch.cntRestart + 1 } })

/-- R140 (with R133, R179): an accepted string 2 joins a set that holds string 1; it ends any other set in progress
with IncompleteFrame; with no set in progress nothing happens. -/
def Obligations.StringTwoSucceedsStringOne : Prop :=
  ∀ (s : State) (c : Nat) (ch : Channel) (p : Payload) (ts : SampleTime), s.started = true →
    s.chans[c]? = some ch → hammingAccept s.cfg.ht (p.dataWord 2#4) = true →
    let f := FieldMap.record (extract s.cfg.ft .c2 (p.dataWord 2#4))
    (ch.ephHave = 0b0000#4 → exec (.str2 c p ts) s = .next s) ∧
    (ch.ephHave = 0b1000#4 → exec (.str2 c p ts) s = .next { s with
      chans := s.chans.set c { ch with ephHave := 0b1100#4, eph := FieldMap.merge ch.eph f } }) ∧
    (ch.ephHave = 0b1100#4 ∨ ch.ephHave = 0b1110#4 → exec (.str2 c p ts) s = .next { s with
      out := s.out ++ [.err (.incompleteFrame ch.sat .eph)]
      chans := s.chans.set c { ch with ephHave := 0b0000#4, eph := [], cntRestart := ch.cntRestart + 1 } })

/-- R141 (with R133, R179): an accepted string 3 joins a set that holds strings 1 and 2; it ends any other set in
progress with IncompleteFrame; with no set in progress nothing happens. -/
def Obligations.StringThreeSucceedsStringTwo : Prop :=
  ∀ (s : State) (c : Nat) (ch : Channel) (p : Payload) (ts : SampleTime), s.started = true →
    s.chans[c]? = some ch → hammingAccept s.cfg.ht (p.dataWord 3#4) = true →
    let f := FieldMap.record (extract s.cfg.ft .c3 (p.dataWord 3#4))
    (ch.ephHave = 0b0000#4 → exec (.str3 c p ts) s = .next s) ∧
    (ch.ephHave = 0b1100#4 → exec (.str3 c p ts) s = .next { s with
      chans := s.chans.set c { ch with ephHave := 0b1110#4, eph := FieldMap.merge ch.eph f } }) ∧
    (ch.ephHave = 0b1000#4 ∨ ch.ephHave = 0b1110#4 → exec (.str3 c p ts) s = .next { s with
      out := s.out ++ [.err (.incompleteFrame ch.sat .eph)]
      chans := s.chans.set c { ch with ephHave := 0b0000#4, eph := [], cntRestart := ch.cntRestart + 1 } })

/-- R142, R134 (with R133, R173, R183): an accepted string 4 completes a set that holds strings 1 to 3: EphemerisReady
carries the channel's tag, the merged fields, the resolved `t_b` and the string's timestamp, and the partial is
cleared; it ends any other set in progress with IncompleteFrame; with no set in progress nothing happens. -/
def Obligations.StringFourCommitsTheSet : Prop :=
  ∀ (s : State) (c : Nat) (ch : Channel) (p : Payload) (ts : SampleTime), s.started = true →
    s.chans[c]? = some ch → hammingAccept s.cfg.ht (p.dataWord 4#4) = true →
    let all := FieldMap.merge ch.eph (FieldMap.record (extract s.cfg.ft .c4 (p.dataWord 4#4)))
    (ch.ephHave = 0b0000#4 → exec (.str4 c p ts) s = .next s) ∧
    (ch.ephHave = 0b1110#4 → exec (.str4 c p ts) s = .next { s with
      out := s.out ++
        [.ephemerisReady ch.sat all (resolve s.cfg.epoch0.eval s.time (FieldMap.read all .tb) .glonass) ts]
      chans := s.chans.set c { ch with ephHave := 0b0000#4, eph := [] } }) ∧
    (ch.ephHave = 0b1000#4 ∨ ch.ephHave = 0b1100#4 → exec (.str4 c p ts) s = .next { s with
      out := s.out ++ [.err (.incompleteFrame ch.sat .eph)]
      chans := s.chans.set c { ch with ephHave := 0b0000#4, eph := [], cntRestart := ch.cntRestart + 1 } })

/-- R143 (with R52, R185, R179): an accepted string 5 replaces the five elements of TimeState together and emits
TimeUpdate with the decoded values; a set in progress is discarded with IncompleteFrame before; a waiting even half is
not touched. -/
def Obligations.StringFiveReplacesTimeState : Prop :=
  ∀ (s : State) (c : Nat) (ch : Channel) (p : Payload) (ts : SampleTime), s.started = true →
    s.chans[c]? = some ch → ch.ephHave ≠ 0b1111#4 → hammingAccept s.cfg.ht (p.dataWord 5#4) = true →
    let f := extract s.cfg.ft .c5 (p.dataWord 5#4)
    let t : TimeState := { valid := true, n4 := FieldMap.read f .n4, nT := FieldMap.read f .nT,
                           tauC := FieldMap.read f .tauC, tauGps := FieldMap.read f .tauGps }
    let ev : Output := .timeUpdate ch.sat t.n4 t.nT t.tauC t.tauGps
    (ch.ephHave = 0b0000#4 → exec (.str5 c p ts) s = .next { s with time := t, out := s.out ++ [ev] }) ∧
    (ch.ephHave ≠ 0b0000#4 → exec (.str5 c p ts) s = .next { s with
      time := t
      out := s.out ++ [.err (.incompleteFrame ch.sat .eph), ev]
      chans := s.chans.set c { ch with ephHave := 0b0000#4, eph := [], cntRestart := ch.cntRestart + 1 } })

/-- R144, R146, R148, R150, R152 with R135: an accepted even string becomes the waiting half, with its id and its
`n_A`; a half that waited is superseded with IncompleteFrame(ALM); a set in progress is discarded with
IncompleteFrame(EPH), which comes first. TimeState is not touched. -/
def Obligations.EvenStringWaitsForItsOddHalf : Prop :=
  ∀ (s : State) (c : Nat) (ch : Channel) (p : Payload) (ts : SampleTime) (i : Instr) (d : DataWord) (id : Fin 16),
    s.started = true → s.chans[c]? = some ch →
    (i, d, id) ∈ evenForms c p ts →
    hammingAccept s.cfg.ht d = true →
    let f := extract s.cfg.ft .even d
    let ephErr : List Output := if ch.ephHave = 0b0000#4 then [] else [.err (.incompleteFrame ch.sat .eph)]
    let almErr : List Output := if ch.almPend then [.err (.incompleteFrame ch.sat .alm)] else []
    exec i s = .next { s with
      out := s.out ++ ephErr ++ almErr
      chans := s.chans.set c { ch with
        ephHave := 0b0000#4
        eph := if ch.ephHave = 0b0000#4 then ch.eph else []
        almPend := true
        almId := id
        almNA := FieldMap.read f .nA
        alm := FieldMap.merge [] (FieldMap.record f)
        cntRestart := ch.cntRestart + ephErr.length + almErr.length } }

/-- R145, R147, R149, R151, R153 with R136 (and R184): an accepted odd string decides the waiting half: with equal
`n_A` AlmanacReady carries the channel's tag, the common `n_A`, both halves' fields, the start of the current day and
the odd string's timestamp; with another `n_A` both halves are discarded with one IncompleteFrame(ALM). Either way
nothing waits afterwards; what `alm_id` and `alm_nA` then hold is no value (R136), so nothing is said of it. With
nothing waiting the almanac is not touched. A set in progress is discarded with IncompleteFrame(EPH), which comes
first. -/
def Obligations.OddStringDecidesTheWaitingHalf : Prop :=
  ∀ (s : State) (c : Nat) (ch : Channel) (p : Payload) (ts : SampleTime) (i : Instr) (d : DataWord),
    s.started = true → s.chans[c]? = some ch →
    (i, d) ∈ oddForms c p ts →
    hammingAccept s.cfg.ht d = true →
    let f := extract s.cfg.ft .odd d
    let ephErr : List Output := if ch.ephHave = 0b0000#4 then [] else [.err (.incompleteFrame ch.sat .eph)]
    let base : Channel := { ch with
      ephHave := 0b0000#4
      eph := if ch.ephHave = 0b0000#4 then ch.eph else []
      cntRestart := ch.cntRestart + ephErr.length }
    (ch.almPend = false → exec i s = .next { s with out := s.out ++ ephErr, chans := s.chans.set c base }) ∧
    (ch.almPend = true → FieldMap.read f .nA = ch.almNA → ∃ (almId : Fin 16) (almNA : Rat), exec i s = .next { s with
      out := s.out ++ ephErr ++ [.almanacReady ch.sat ch.almNA (FieldMap.merge ch.alm (FieldMap.record f))
        (resolve s.cfg.epoch0.eval s.time 0 .glonass) ts]
      chans := s.chans.set c { base with almPend := false, almId := almId, almNA := almNA, alm := [] } }) ∧
    (ch.almPend = true → FieldMap.read f .nA ≠ ch.almNA → ∃ (almId : Fin 16) (almNA : Rat), exec i s = .next { s with
      out := s.out ++ ephErr ++ [.err (.incompleteFrame ch.sat .alm)]
      chans := s.chans.set c { base with
        almPend := false, almId := almId, almNA := almNA, alm := []
        cntRestart := ch.cntRestart + ephErr.length + 1 } })

/-- R133: a merge gives every name of the string its new value and keeps every other name's value. -/
def Obligations.MergeOverwritesByName : Prop :=
  ∀ (m f : FieldMap) (x : FieldName), (f.map (·.1)).Nodup →
    FieldMap.get? (FieldMap.merge m f) x = (FieldMap.get? f x).or (FieldMap.get? m x)

/-- R133, R143, R135, R136, R132: the pipeline of R84 as the rules write it: the gate, then the id, then the class,
then the extraction, then the assembler; the sixteen string types together are this. -/
def Obligations.StringDoneIsThePipeline : Prop :=
  ∀ (d : DataWord) (ts : SampleTime) (l : Local),
    (hammingAccept l.cfg.ht d = false →
      stringDone d ts l = asm .void ts (l.raise (.checksumFailure l.ch.sat))) ∧
    (hammingAccept l.cfg.ht d = true → classOf (fld d 2 4) = none →
      stringDone d ts l = asm .void ts (l.raise (.unknownStringId l.ch.sat (fld d 2 4)))) ∧
    (∀ cls, hammingAccept l.cfg.ht d = true → classOf (fld d 2 4) = some cls →
      stringDone d ts l = asm (.str (fld d 2 4) (extract l.cfg.ft cls d)) ts l)

/-- R155, which the spec marks as derived: an EphemerisReady carries exactly the fields of four strings with the ids
1, 2, 3, 4, in this order, in four consecutive slots with no acquisition between them: the last four inputs of the
assembler since it was clear. -/
def Obligations.EphemerisIsOneFrameOnly : Prop :=
  ∀ (l : Local) (ins : List AsmInput) (ev : AsmEvent) (ts rx : SampleTime) (sat : SatId) (fields : FieldMap)
    (stamp : Stamp) (new : List Output), l.ch.ephHave = 0b0000#4 →
    (asm ev ts (asmRun ins l)).out = (asmRun ins l).out ++ new →
    OutputOf.ephemerisReady sat fields stamp rx ∈ new →
    ∃ pre f1 f2 f3 f4 t1 t2 t3,
      ins = pre ++ [.slot (.str 1 f1) t1, .slot (.str 2 f2) t2, .slot (.str 3 f3) t3] ∧ ev = .str 4 f4 ∧
      rx = ts ∧ sat = l.ch.sat ∧
      fields = FieldMap.merge (FieldMap.merge (FieldMap.merge (FieldMap.merge [] (FieldMap.record f1))
        (FieldMap.record f2)) (FieldMap.record f3)) (FieldMap.record f4)

/-- R157, which the spec marks as derived: an AlmanacReady carries the fields of exactly one even and one odd string
with equal `n_A`, the odd one the slot that emits it, with no other even or odd string and no acquisition between
them. -/
def Obligations.AlmanacIsOnePairOnly : Prop :=
  ∀ (l : Local) (ins : List AsmInput) (ev : AsmEvent) (ts rx : SampleTime) (sat : SatId) (nA : Rat)
    (fields : FieldMap) (stamp : Stamp) (new : List Output), l.ch.almPend = false →
    (asm ev ts (asmRun ins l)).out = (asmRun ins l).out ++ new →
    OutputOf.almanacReady sat nA fields stamp rx ∈ new →
    ∃ pre mid e o fe fo te,
      ins = pre ++ .slot (.str e fe) te :: mid ∧ ev = .str o fo ∧ classOf e = some .even ∧ classOf o = some .odd ∧
      (∀ x ∈ mid, ¬ x.IsAlmanac ∧ x ≠ .acquisition) ∧
      rx = ts ∧ sat = l.ch.sat ∧ nA = FieldMap.read fe .nA ∧ nA = FieldMap.read fo .nA ∧
      fields = FieldMap.merge (FieldMap.merge [] (FieldMap.record fe)) (FieldMap.record fo)

/-! ### Signals, outputs, counters -/

/-- R189, R187: the complete list of what a PUSH can output, and where in the block. -/
def Obligations.PushOutputsAreTheList : Prop :=
  ∀ (s t : State) (c : Nat) (ch : Channel) (b : Bit) (ts : SampleTime), s.chans[c]? = some ch →
    exec (.push c b ts) s = .next t →
    t.out = [] ∨
    (ch.sync = .synced ∧ ch.bitcnt = 29 ∧ t.out = [.err (.syncLoss ch.sat)]) ∨
    (ch.sync = .synced ∧ ch.bitcnt = 114 ∧
      ∃ first eph time alm : List Output, t.out = first ++ eph ++ time ++ alm ∧ t.out.length ≤ 2 ∧
        (first = [] ∨ first = [.err (.checksumFailure ch.sat)] ∨ first = [.err (.unknownStringId ch.sat 0)]) ∧
        (eph = [] ∨ eph = [.err (.incompleteFrame ch.sat .eph)] ∨
          ∃ fields stamp, eph = [.ephemerisReady ch.sat fields stamp ch.bufTs]) ∧
        (time = [] ∨ time = [.timeUpdate ch.sat t.time.n4 t.time.nT t.time.tauC t.time.tauGps]) ∧
        (alm = [] ∨ alm = [.err (.incompleteFrame ch.sat .alm)] ∨
          ∃ nA fields stamp, alm = [.almanacReady ch.sat nA fields stamp ch.bufTs]) ∧
        (first ≠ [] → time = [] ∧ alm = [] ∧ (eph = [] ∨ eph = [.err (.incompleteFrame ch.sat .eph)])) ∧
        (time ≠ [] → alm = []) ∧
        ((∃ fields stamp, eph = [.ephemerisReady ch.sat fields stamp ch.bufTs]) → time = [] ∧ alm = []))

/-- R176 to R179, R190, R195: in a PUSH each of the four counters of the channel rises by exactly the number of its
signals in the step's output. -/
def Obligations.CountersCountTheSignals : Prop :=
  ∀ (s t : State) (c : Nat) (ch u : Channel) (b : Bit) (ts : SampleTime), s.chans[c]? = some ch →
    exec (.push c b ts) s = .next t → t.chans[c]? = some u →
    u.cntSyncLoss = ch.cntSyncLoss + t.out.count (.err (.syncLoss ch.sat)) ∧
    u.cntCksumFail = ch.cntCksumFail + t.out.count (.err (.checksumFailure ch.sat)) ∧
    u.cntUnknownId = ch.cntUnknownId + t.out.count (.err (.unknownStringId ch.sat 0)) ∧
    u.cntRestart = ch.cntRestart + t.out.count (.err (.incompleteFrame ch.sat .eph)) +
      t.out.count (.err (.incompleteFrame ch.sat .alm))

/-! ### Channels, TimeState, the whole machine -/

/-- R87, R51, writes: a PUSH, a CH_RESET or a string on channel `c` leaves every other channel, the parameters and the
queue as they were. -/
def Obligations.OtherChannelsAreNotWritten : Prop :=
  ∀ (s t : State) (i : Instr) (c d : Nat), exec i s = .next t →
    (i.tags?.map (·.1) = some c ∨ (∃ b ts, i = .push c b ts) ∨ (∃ sat, i = .chReset c sat)) → d ≠ c →
    t.chans[d]? = s.chans[d]? ∧ t.chans.length = s.chans.length ∧ t.cfg = s.cfg ∧ t.ops = s.ops

/-- R87, R51, reads: what a PUSH, a CH_RESET or a string on channel `c` does to that channel, to TimeState and to the
output depends only on the parameters, TimeState, that channel and the output: nothing of another channel can be
learned through it. -/
def Obligations.OtherChannelsAreNotRead : Prop :=
  ∀ (s t : State) (i : Instr) (c : Nat), s.AgreeOn c t →
    (i.tags?.map (·.1) = some c ∨ (∃ b ts, i = .push c b ts) ∨ (∃ sat, i = .chReset c sat)) →
    OutcomesAgree (State.AgreeOn c) (exec i s) (exec i t)

/-- R18, R52, R143: apart from RESET, TimeState changes in one way only: an accepted string 5, run on its own or by the
PUSH that completes its block, replaces all of it by `valid = 1` and the four decoded values of class C5, and the
outputs this step appends hold the TimeUpdate with the channel's tag and the same four values. So only RESET takes
`T.valid` back to 0. -/
def Obligations.TimeStateIsReplacedAsAWhole : Prop :=
  ∀ (s t : State) (i : Instr), exec i s = .next t → (∀ sats, i ≠ .reset sats) →
    t.time = s.time ∨
    ∃ (c : Nat) (ch : Channel) (ts : SampleTime) (d : DataWord) (new : List Output), s.chans[c]? = some ch ∧
      ((∃ p : Payload, i = .str5 c p ts ∧ d = p.dataWord 5#4 ∧ t.out = s.out ++ new) ∨
       (∃ b : Bit, i = .push c b ts ∧ ch.sync = .synced ∧ ch.bitcnt = 114 ∧
          d = rawData (memWrite ch.buf 115 (b ^^ ch.pol)) ∧ t.out = new)) ∧
      hammingAccept s.cfg.ht d = true ∧ stringId d = 5 ∧
      let f := extract s.cfg.ft .c5 d
      t.time = { valid := true, n4 := FieldMap.read f .n4, nT := FieldMap.read f .nT,
                 tauC := FieldMap.read f .tauC, tauGps := FieldMap.read f .tauGps } ∧
      OutputOf.timeUpdate ch.sat (FieldMap.read f .n4) (FieldMap.read f .nT) (FieldMap.read f .tauC)
        (FieldMap.read f .tauGps) ∈ new

/-- R32, R50, R202: no step changes the parameters. -/
def Obligations.ParametersNeverChange : Prop :=
  ∀ (s t : State), step s = .next t → t.cfg = s.cfg

/-- R17, R7: the core only copies timestamps and satellite tags. For any two pairs of types of them and any functions
between these, replacing the tags and then pushing a bit gives what pushing the bit and then replacing the tags gives,
in the channel, in TimeState and in the outputs. So State at the naturals (log entry 3) shows what every instance of
the two types does. -/
def Obligations.TagsAreOnlyCopied : Prop :=
  ∀ (TS Sat TS' Sat' : Type) (f : TS → TS') (g : Sat → Sat') (b : Bit) (ts : TS) (l : LocalOf TS Sat),
    pushBit b (f ts) (l.mapTags f g) = (pushBit b ts l).mapTags f g

/-- R7, R17, for the whole machine: for any two pairs of types of timestamps and satellite tags and any functions between
these, replacing all tags and then taking a step gives what the step and then the replacement gives, whatever the
driver has queued; and a step that is refused is refused on the replaced state too. The function of the timestamps keeps
the one that stands where a timestamp has no value after a reset (the model's choice, log entry 8). -/
def Obligations.EveryStepOnlyCopiesTags : Prop :=
  ∀ (TS Sat TS' Sat' : Type) [Inhabited TS] [Inhabited TS'] (f : TS → TS') (g : Sat → Sat') (s : State TS Sat),
    f default = default →
    (∀ t, stepOf s = .next t → stepOf (s.mapTags f g) = .next (t.mapTags f g)) ∧
    (∀ r, stepOf s = .refused r → stepOf (s.mapTags f g) = .refused r)

/-- R7, R168: an instance can be given any total function as its `EPOCH0`: for every function and every field table there
is a table of values (log entry 2) that agrees with the function on every value `N_4` can decode to, whatever the string
5. -/
def Obligations.EveryEpochFunctionHasATable : Prop :=
  ∀ (epoch0 : Rat → Rat) (ft : FieldTable), ∃ (values : List (Rat × Rat)) (otherwise : Rat), ∀ d : DataWord,
    let n4 := FieldMap.read (extract ft .c5 d) .n4
    (Epoch0.table values otherwise).eval n4 = epoch0 n4

/-- R36, which the spec marks as derived: every step keeps the invariants, from every state that meets them. -/
def Obligations.StepKeepsTheInvariants : Prop :=
  ∀ (s t : State), s.Inv → step s = .next t → t.Inv

/-- R36, which the spec marks as derived: the state after reset meets the invariants. -/
def Obligations.ResetMeetsTheInvariants : Prop :=
  State.reset.Inv

/-- R36 (c), which the spec marks as derived: with the invariants, the ephemeris partial is empty exactly when
`eph_have` is 0000, for tables whose class C1 holds a field besides `STRING_ID`; the almanac partial is empty exactly
when nothing waits. (For a table whose C1 holds `STRING_ID` alone the first half fails in the rules themselves: log
entry 17.) -/
def Obligations.PartialsAreEmptyExactlyWhenNothingIsHeld : Prop :=
  ∀ (cfg : Config) (ch : Channel), cfg.WF → ch.Inv cfg →
    (recordNames cfg.ft.c1 ≠ [] → (ch.eph = [] ↔ ch.ephHave = 0b0000#4)) ∧ (ch.alm = [] ↔ ch.almPend = false)

/-- R183, R184: in a state that meets the invariants, the fields of an EphemerisReady are those of classes C1 to C4
except `STRING_ID`, each once, and the `t_b` it resolves is among them; the fields of an AlmanacReady are those of
EVEN and the new ones of ODD. -/
def Obligations.RecordsHoldExactlyTheirFields : Prop :=
  ∀ (s t : State) (c : Nat) (b : Bit) (ts : SampleTime), s.Inv → exec (.push c b ts) s = .next t →
    (∀ sat fields stamp rx, OutputOf.ephemerisReady sat fields stamp rx ∈ t.out →
      (fields.map (·.1)).Perm (ephNames s.cfg.ft) ∧ (FieldMap.get? fields .tb).isSome) ∧
    (∀ sat nA fields stamp rx, OutputOf.almanacReady sat nA fields stamp rx ∈ t.out →
      (fields.map (·.1)).Perm (recordNames s.cfg.ft.even ++ (recordNames s.cfg.ft.odd).filter (· ≠ .nA)) ∧
      FieldMap.get? fields .nA = some nA)

/-- R13, R37: no rule reads an element that holds no value: two states that agree on every element that holds one go
the same way under every instruction, with the same output, and agree again afterwards. -/
def Obligations.NoRuleReadsAnElementWithoutValue : Prop :=
  ∀ (s t : State) (i : Instr), s.Same t → OutcomesAgree State.Same (exec i s) (exec i t)

/-! ### Decoding and stepping -/

/-- R55, R58, R59, R77: every string instruction has an encoding after any time mark, whose mark is that one, and the
decoder gives the instruction back from its 115 bits and its tags; an interface operation has none (R88). -/
def Obligations.DecodeOfEncodeIsTheInstruction : Prop :=
  ∀ (mark : TimeMark) (i : Instr),
    (∀ c ts, i.tags? = some (c, ts) →
      ∃ rs, encode mark i = some rs ∧ rawMark rs = mark ∧ decode c ts (unpackBits rs) = .ok i) ∧
    (i.tags? = none → encode mark i = none)

/-- R55, R68: every list of 115 bits decodes, to a string instruction with the given tags whose encoding after the
same time mark is the same bits; a list of another length is rejected by name. -/
def Obligations.EncodeOfDecodeIsTheString : Prop :=
  ∀ (c : Nat) (ts : SampleTime) (bits : List Bit),
    (bits.length = 115 → ∃ i : Instr, decode c ts bits = .ok i ∧ i.tags? = some (c, ts) ∧
      (encode (rawMark (packBits bits)) i).map unpackBits = some bits) ∧
    (bits.length ≠ 115 → (decode c ts bits : Except DecodeError Instr) = .error (.wrongLength bits.length))

/-- R58, R59, R77: the id of a string is the four bits `D[2..5]`, most significant first, under the table's mask, and
the instruction is the one of that id. -/
def Obligations.TheIdBitsSelectTheInstruction : Prop :=
  ∀ (c : Nat) (ts : SampleTime) (rs : RawBits),
    let d := rawData rs
    stringId d = 8 * (rsBit rs 32).toNat + 4 * (rsBit rs 33).toNat + 2 * (rsBit rs 34).toNat + (rsBit rs 35).toNat ∧
    (decodeRaw c ts rs : Instr).id? = some (BitVec.ofNat 4 (stringId d)) ∧
    d &&& 0x0F00000000000000000000#85 = BitVec.ofNat 85 (stringId d * 2 ^ 80)

/-- Words written out from the spec's encodings (R77, and the words of vectors V25, V33 and V35): they decode to the
instruction of their id with the remaining bits as payload. That such a word stands for a string of channel 0 with
timestamp 0, and that its bits above the data word are read as time mark, is the model's choice (log entry 14). -/
def Obligations.WrittenOutWordsDecode : Prop :=
  decodeTableWord 88 0x0000000000000000000000 = some (.str0 0 ⟨false, 0#80⟩ 0) ∧
  decodeTableWord 88 0x0116459000009938800015 = some (.str1 0 ⟨false, 0x16459000009938800015#80⟩ 0) ∧
  decodeTableWord 88 0x04FFFFFCFF000320320DA5 = some (.str4 0 ⟨false, 0xFFFFFCFF000320320DA5#80⟩ 0) ∧
  decodeTableWord 88 0x150C8000000013800000AF = some (.str5 0 ⟨true, 0x0C8000000013800000AF#80⟩ 0) ∧
  decodeTableWord 88 0x06A5FFFFFFFE80007FFF6E = some (.str6 0 ⟨false, 0xA5FFFFFFFE80007FFF6E#80⟩ 0) ∧
  decodeTableWord 88 0x0F00000000000000000000 = some (.str15 0 ⟨false, 0#80⟩ 0)

/-- R5, R80, R12: a step takes the first queued operation and runs it on an empty output list; with nothing queued
nothing changes but the output list, which is emptied (the model's choice, log entry 12). -/
def Obligations.StepRunsTheQueuedOperation : Prop :=
  ∀ (s : State) (op : Op) (rest : List Op),
    (s.ops = op :: rest → step s = exec op.instr { s with ops := rest, out := [] }) ∧
    (s.ops = [] → step s = .next { s with out := [] })

/-- The model's own convention (log entries 12 and 14): a word placed with `withFetchWord` is what the very next step
runs: the step is the run of the decoded instruction, on channel 0 as it stands after the string's 115th bit, with the
string's last thirty bits in the window. What the buffer and its timestamp then hold is no value (R100), so nothing is
said of it. -/
def Obligations.PlacedWordIsWhatTheStepRuns : Prop :=
  ∀ (s : State) (nbits w : Nat) (i : Instr) (ch : Channel) (rest : List Channel), s.started = true →
    s.chans = ch :: rest → decodeTableWord nbits w = some i →
    ∃ (buf : RawBits) (bufTs : SampleTime),
      step (s.withFetchWord nbits w) = exec i { s with ops := [], out := [], chans := { ch with
        win := xorPol ((BitVec.ofNat 115 w).setWidth 30) ch.pol
        winTs := Vector.replicate 30 0
        winN := 30
        sync := .synced
        buf := buf
        bufTs := bufTs
        bitcnt := 0 } :: rest }
end

