-- ==== Sys2Proof/Laws/State.lean ====
section
/-! SUPPORT. One lemma per field per update, so that no proof unfolds a record update. -/

namespace Sys2Proof.Machine

variable {TS Sat : Type} (s : State TS Sat) (l : LocalOf TS Sat) (ch : ChannelOf TS Sat) (c : Nat) (e : ErrOf Sat)
  (o : OutputOf TS Sat) (ops : List (Op TS Sat))

@[simp] theorem State.view_cfg : (s.view ch).cfg = s.cfg := rfl
@[simp] theorem State.view_time : (s.view ch).time = s.time := rfl
@[simp] theorem State.view_ch : (s.view ch).ch = ch := rfl
@[simp] theorem State.view_out : (s.view ch).out = s.out := rfl

@[simp] theorem State.putView_cfg : (s.putView c l).cfg = s.cfg := rfl
@[simp] theorem State.putView_started : (s.putView c l).started = s.started := rfl
@[simp] theorem State.putView_time : (s.putView c l).time = l.time := rfl
@[simp] theorem State.putView_chans : (s.putView c l).chans = s.chans.set c l.ch := rfl
@[simp] theorem State.putView_out : (s.putView c l).out = l.out := rfl
@[simp] theorem State.putView_ops : (s.putView c l).ops = s.ops := rfl

@[simp] theorem State.withOps_cfg : (s.withOps ops).cfg = s.cfg := rfl
@[simp] theorem State.withOps_started : (s.withOps ops).started = s.started := rfl
@[simp] theorem State.withOps_time : (s.withOps ops).time = s.time := rfl
@[simp] theorem State.withOps_chans : (s.withOps ops).chans = s.chans := rfl
@[simp] theorem State.withOps_out : (s.withOps ops).out = s.out := rfl
@[simp] theorem State.withOps_ops : (s.withOps ops).ops = ops := rfl

@[simp] theorem LocalOf.raise_cfg : (l.raise e).cfg = l.cfg := rfl
@[simp] theorem LocalOf.raise_time : (l.raise e).time = l.time := rfl
@[simp] theorem LocalOf.raise_ch : (l.raise e).ch = l.ch.count e := rfl
@[simp] theorem LocalOf.raise_out : (l.raise e).out = l.out ++ [.err e] := rfl
@[simp] theorem LocalOf.emit_cfg : (l.emit o).cfg = l.cfg := rfl
@[simp] theorem LocalOf.emit_time : (l.emit o).time = l.time := rfl
@[simp] theorem LocalOf.emit_ch : (l.emit o).ch = l.ch := rfl
@[simp] theorem LocalOf.emit_out : (l.emit o).out = l.out ++ [o] := rfl

/-! Raising a signal writes its counter and nothing else of the channel (R190). -/

@[simp] theorem ChannelOf.count_sat : (ch.count e).sat = ch.sat := by cases e <;> rfl
@[simp] theorem ChannelOf.count_win : (ch.count e).win = ch.win := by cases e <;> rfl
@[simp] theorem ChannelOf.count_winTs : (ch.count e).winTs = ch.winTs := by cases e <;> rfl
@[simp] theorem ChannelOf.count_winN : (ch.count e).winN = ch.winN := by cases e <;> rfl
@[simp] theorem ChannelOf.count_sync : (ch.count e).sync = ch.sync := by cases e <;> rfl
@[simp] theorem ChannelOf.count_pol : (ch.count e).pol = ch.pol := by cases e <;> rfl
@[simp] theorem ChannelOf.count_bitcnt : (ch.count e).bitcnt = ch.bitcnt := by cases e <;> rfl
@[simp] theorem ChannelOf.count_miss : (ch.count e).miss = ch.miss := by cases e <;> rfl
@[simp] theorem ChannelOf.count_buf : (ch.count e).buf = ch.buf := by cases e <;> rfl
@[simp] theorem ChannelOf.count_bufTs : (ch.count e).bufTs = ch.bufTs := by cases e <;> rfl
@[simp] theorem ChannelOf.count_ephHave : (ch.count e).ephHave = ch.ephHave := by cases e <;> rfl
@[simp] theorem ChannelOf.count_eph : (ch.count e).eph = ch.eph := by cases e <;> rfl
@[simp] theorem ChannelOf.count_almPend : (ch.count e).almPend = ch.almPend := by cases e <;> rfl
@[simp] theorem ChannelOf.count_almId : (ch.count e).almId = ch.almId := by cases e <;> rfl
@[simp] theorem ChannelOf.count_almNA : (ch.count e).almNA = ch.almNA := by cases e <;> rfl
@[simp] theorem ChannelOf.count_alm : (ch.count e).alm = ch.alm := by cases e <;> rfl

variable (n : Sat) (id : Nat) (k : Category)

@[simp] theorem ChannelOf.count_syncLoss : ch.count (.syncLoss n) = { ch with cntSyncLoss := ch.cntSyncLoss + 1 } := rfl
@[simp] theorem ChannelOf.count_checksumFailure : ch.count (.checksumFailure n) = { ch with cntCksumFail := ch.cntCksumFail + 1 } := rfl
@[simp] theorem ChannelOf.count_unknownStringId : ch.count (.unknownStringId n id) = { ch with cntUnknownId := ch.cntUnknownId + 1 } := rfl
@[simp] theorem ChannelOf.count_incompleteFrame : ch.count (.incompleteFrame n k) = { ch with cntRestart := ch.cntRestart + 1 } := rfl
@[simp] theorem ChannelOf.count_timeUnresolved : ch.count .timeUnresolved = ch := rfl

variable (rs : RawBits) (ts : TS)

@[simp] theorem ChannelOf.holding_sat : (ch.holding rs ts).sat = ch.sat := rfl
@[simp] theorem ChannelOf.holding_win : (ch.holding rs ts).win = xorPol (rs.extractLsb' 1 30) ch.pol := rfl
@[simp] theorem ChannelOf.holding_winTs : (ch.holding rs ts).winTs = Vector.replicate 30 ts := rfl
@[simp] theorem ChannelOf.holding_winN : (ch.holding rs ts).winN = 30 := rfl
@[simp] theorem ChannelOf.holding_sync : (ch.holding rs ts).sync = .synced := rfl
@[simp] theorem ChannelOf.holding_pol : (ch.holding rs ts).pol = ch.pol := rfl
@[simp] theorem ChannelOf.holding_bitcnt : (ch.holding rs ts).bitcnt = 114 := rfl
@[simp] theorem ChannelOf.holding_miss : (ch.holding rs ts).miss = ch.miss := rfl
@[simp] theorem ChannelOf.holding_buf : (ch.holding rs ts).buf = memWrite rs 115 false := rfl
@[simp] theorem ChannelOf.holding_bufTs : (ch.holding rs ts).bufTs = ts := rfl
@[simp] theorem ChannelOf.holding_ephHave : (ch.holding rs ts).ephHave = ch.ephHave := rfl
@[simp] theorem ChannelOf.holding_eph : (ch.holding rs ts).eph = ch.eph := rfl
@[simp] theorem ChannelOf.holding_almPend : (ch.holding rs ts).almPend = ch.almPend := rfl
@[simp] theorem ChannelOf.holding_almId : (ch.holding rs ts).almId = ch.almId := rfl
@[simp] theorem ChannelOf.holding_almNA : (ch.holding rs ts).almNA = ch.almNA := rfl
@[simp] theorem ChannelOf.holding_alm : (ch.holding rs ts).alm = ch.alm := rfl
@[simp] theorem ChannelOf.holding_cntSyncLoss : (ch.holding rs ts).cntSyncLoss = ch.cntSyncLoss := rfl
@[simp] theorem ChannelOf.holding_cntCksumFail : (ch.holding rs ts).cntCksumFail = ch.cntCksumFail := rfl
@[simp] theorem ChannelOf.holding_cntUnknownId : (ch.holding rs ts).cntUnknownId = ch.cntUnknownId := rfl
@[simp] theorem ChannelOf.holding_cntRestart : (ch.holding rs ts).cntRestart = ch.cntRestart := rfl

end Sys2Proof.Machine
end

