-- ==== Sys2Proof/Laws/Channel.lean ====
section
/-! SUPPORT. What an operation on one channel can answer, said once, for the four interface operations and the sixteen
string types. -/

namespace Sys2Proof.Machine

variable {TS Sat : Type}

/-- The view a rule has of an existing channel is used, and the result is written back. -/
theorem onChannel_eq {c : Nat} {f : LocalOf TS Sat → LocalOf TS Sat} {s : State TS Sat} {ch : ChannelOf TS Sat} (h : s.started = true)
    (hc : s.chans[c]? = some ch) : onChannel c f s = .next (s.putView c (f (s.view ch))) := by
  simp [onChannel, h, hc]

/-- If a rule on one channel answers a next state, the core was started, the channel exists, and the next state is the
old one with the rule's result written back. -/
theorem onChannel_next {c : Nat} {f : LocalOf TS Sat → LocalOf TS Sat} {s t : State TS Sat} (h : onChannel c f s = .next t) :
    s.started = true ∧ ∃ ch, s.chans[c]? = some ch ∧ t = s.putView c (f (s.view ch)) := by
  unfold onChannel at h
  split at h
  · next hs =>
    split at h
    · next ch hc => exact ⟨hs, ch, hc, by cases h; rfl⟩
    · cases h
  · cases h

/-- Before the first RESET nothing runs (R203). -/
theorem onChannel_notStarted {c : Nat} {f : LocalOf TS Sat → LocalOf TS Sat} {s : State TS Sat} (h : s.started = false) :
    onChannel c f s = .refused .beforeReset := by
  simp [onChannel, h]

/-- A channel that does not exist is refused (R80). -/
theorem onChannel_missing {c : Nat} {f : LocalOf TS Sat → LocalOf TS Sat} {s : State TS Sat} (h : s.started = true)
    (hc : s.chans[c]? = none) : onChannel c f s = .refused .illFormed := by
  simp [onChannel, h, hc]

/-- A state with the view of a channel written back unchanged is the state. -/
theorem putView_view {s : State TS Sat} {c : Nat} {ch : ChannelOf TS Sat} (hc : s.chans[c]? = some ch) :
    s.putView c (s.view ch) = s := by
  have : s.chans.set c ch = s.chans := by
    apply List.ext_getElem?
    intro d
    rw [List.getElem?_set]
    split
    · next h => subst h; split
                · exact hc.symm
                · next h' => simp at h'; simp [h'] at hc
    · rfl
  simp [State.putView, State.view, this]

/-- The channel written back. -/
theorem getElem?_putView_self {s : State TS Sat} {c : Nat} {ch : ChannelOf TS Sat} (l : LocalOf TS Sat) (hc : s.chans[c]? = some ch) :
    (s.putView c l).chans[c]? = some l.ch := by
  have : c < s.chans.length := by
    by_contra h
    simp [List.getElem?_eq_none (Nat.le_of_not_lt h)] at hc
  simp [this]

/-- Every other channel stands. -/
theorem getElem?_putView_ne {s : State TS Sat} {c d : Nat} (l : LocalOf TS Sat) (h : d ≠ c) :
    (s.putView c l).chans[d]? = s.chans[d]? := by
  simp [Ne.symm h]

/-! ### The instructions as rules on one channel -/

/-- The machine the host runs is the instance of the general one at the naturals. -/
theorem exec_eq_execOf (i : Instr) (s : State) : exec i s = execOf i s := by
  cases i <;> rfl

theorem step_eq_stepOf (s : State) : step s = stepOf s := by
  unfold step stepOf stepWith
  split
  · rfl
  · exact exec_eq_execOf _ _

theorem exec_reset (sats : List SatId) (s : State) : exec (.reset sats) s = execReset sats s := rfl

theorem exec_query (sod : Rat) (ref : TimeRef) (s : State) : exec (.query sod ref) s = execQuery sod ref s := rfl

theorem exec_chReset (c : Nat) (sat : SatId) (s : State) :
    exec (.chReset c sat) s = onChannel c (fun l => { l with ch := Channel.afterReset sat, out := [] }) s := rfl

theorem exec_push (c : Nat) (b : Bit) (ts : SampleTime) (s : State) :
    exec (.push c b ts) s = onChannel c (fun l => pushBit b ts { l with out := [] }) s := rfl

theorem exec_str0 (c : Nat) (p : Payload) (ts : SampleTime) (s : State) :
    exec (.str0 c p ts) s = onChannel c (str0 (p.dataWord 0#4) ts) s := rfl

theorem exec_str1 (c : Nat) (p : Payload) (ts : SampleTime) (s : State) :
    exec (.str1 c p ts) s = onChannel c (str1 (p.dataWord 1#4) ts) s := rfl

theorem exec_str2 (c : Nat) (p : Payload) (ts : SampleTime) (s : State) :
    exec (.str2 c p ts) s = onChannel c (str2 (p.dataWord 2#4) ts) s := rfl

theorem exec_str3 (c : Nat) (p : Payload) (ts : SampleTime) (s : State) :
    exec (.str3 c p ts) s = onChannel c (str3 (p.dataWord 3#4) ts) s := rfl

theorem exec_str4 (c : Nat) (p : Payload) (ts : SampleTime) (s : State) :
    exec (.str4 c p ts) s = onChannel c (str4 (p.dataWord 4#4) ts) s := rfl

theorem exec_str5 (c : Nat) (p : Payload) (ts : SampleTime) (s : State) :
    exec (.str5 c p ts) s = onChannel c (str5 (p.dataWord 5#4) ts) s := rfl

theorem exec_str6 (c : Nat) (p : Payload) (ts : SampleTime) (s : State) :
    exec (.str6 c p ts) s = onChannel c (str6 (p.dataWord 6#4) ts) s := rfl

theorem exec_str7 (c : Nat) (p : Payload) (ts : SampleTime) (s : State) :
    exec (.str7 c p ts) s = onChannel c (str7 (p.dataWord 7#4) ts) s := rfl

theorem exec_str8 (c : Nat) (p : Payload) (ts : SampleTime) (s : State) :
    exec (.str8 c p ts) s = onChannel c (str8 (p.dataWord 8#4) ts) s := rfl

theorem exec_str9 (c : Nat) (p : Payload) (ts : SampleTime) (s : State) :
    exec (.str9 c p ts) s = onChannel c (str9 (p.dataWord 9#4) ts) s := rfl

theorem exec_str10 (c : Nat) (p : Payload) (ts : SampleTime) (s : State) :
    exec (.str10 c p ts) s = onChannel c (str10 (p.dataWord 10#4) ts) s := rfl

theorem exec_str11 (c : Nat) (p : Payload) (ts : SampleTime) (s : State) :
    exec (.str11 c p ts) s = onChannel c (str11 (p.dataWord 11#4) ts) s := rfl

theorem exec_str12 (c : Nat) (p : Payload) (ts : SampleTime) (s : State) :
    exec (.str12 c p ts) s = onChannel c (str12 (p.dataWord 12#4) ts) s := rfl

theorem exec_str13 (c : Nat) (p : Payload) (ts : SampleTime) (s : State) :
    exec (.str13 c p ts) s = onChannel c (str13 (p.dataWord 13#4) ts) s := rfl

theorem exec_str14 (c : Nat) (p : Payload) (ts : SampleTime) (s : State) :
    exec (.str14 c p ts) s = onChannel c (str14 (p.dataWord 14#4) ts) s := rfl

theorem exec_str15 (c : Nat) (p : Payload) (ts : SampleTime) (s : State) :
    exec (.str15 c p ts) s = onChannel c (str15 (p.dataWord 15#4) ts) s := rfl

/-- What a PUSH on an existing channel answers. -/
theorem exec_push_eq {s : State} {c : Nat} {ch : Channel} (b : Bit) (ts : SampleTime) (h : s.started = true)
    (hc : s.chans[c]? = some ch) :
    exec (.push c b ts) s = .next (s.putView c (pushBit b ts { s.view ch with out := [] })) := by
  rw [exec_push, onChannel_eq h hc]

/-- If a PUSH answers a next state, it is the channel's rule written back. -/
theorem exec_push_next {s t : State} {c : Nat} {b : Bit} {ts : SampleTime} (h : exec (.push c b ts) s = .next t) :
    s.started = true ∧ ∃ ch, s.chans[c]? = some ch ∧
      t = s.putView c (pushBit b ts { s.view ch with out := [] }) := by
  rw [exec_push] at h
  exact onChannel_next h

/-- The instructions that act on channel `c`: PUSH, CH_RESET and the strings tagged with it. -/
abbrev Instr.ActsOn (i : Instr) (c : Nat) : Prop :=
  i.tags?.map (·.1) = some c ∨ (∃ b ts, i = .push c b ts) ∨ (∃ sat, i = .chReset c sat)

/-- An instruction that acts on a channel is one rule on that channel, the same from every state. -/
theorem exec_actsOn {i : Instr} {c : Nat} (h : Instr.ActsOn i c) :
    ∃ f : Local → Local, ∀ s, exec i s = onChannel c f s := by
  obtain h | ⟨b, ts, rfl⟩ | ⟨sat, rfl⟩ := h
  · cases i <;> simp only [Instr.tags?, Option.map_some, Option.some.injEq, Option.map_none, reduceCtorEq] at h <;>
      subst h <;> exact ⟨_, fun s => rfl⟩
  · exact ⟨_, exec_push c b ts⟩
  · exact ⟨_, exec_chReset c sat⟩

/-- Every instruction is RESET, QUERY, or a rule on one channel. -/
theorem instr_cases (i : Instr) :
    (∃ sats, i = .reset sats) ∨ (∃ sod ref, i = .query sod ref) ∨ ∃ c, Instr.ActsOn i c := by
  cases i with
  | reset sats => exact .inl ⟨sats, rfl⟩
  | query sod ref => exact .inr (.inl ⟨sod, ref, rfl⟩)
  | chReset c sat => exact .inr (.inr ⟨c, .inr (.inr ⟨sat, rfl⟩)⟩)
  | push c b ts => exact .inr (.inr ⟨c, .inr (.inl ⟨b, ts, rfl⟩)⟩)
  | _ => exact .inr (.inr ⟨_, .inl rfl⟩)

end Sys2Proof.Machine
end

