-- ==== Sys2Proof/Laws/Assembler.lean ====
section
/-! SUPPORT. What each sub-step of the assembler answers, by what the partial holds. -/

namespace Sys2Proof.Machine

variable {TS Sat : Type}

/-! ### The progress vector -/

@[simp] theorem ephCount_zero : ephCount 0b0000#4 = 0 := rfl
@[simp] theorem ephCount_one : ephCount 0b1000#4 = 1 := rfl
@[simp] theorem ephCount_two : ephCount 0b1100#4 = 2 := rfl
@[simp] theorem ephCount_three : ephCount 0b1110#4 = 3 := rfl
@[simp] theorem setHave_two : setHave 0b1000#4 2 = 0b1100#4 := rfl
@[simp] theorem setHave_three : setHave 0b1100#4 3 = 0b1110#4 := rfl
@[simp] theorem setHave_four : setHave 0b1110#4 4 = 0b1111#4 := rfl

/-- A set is in progress exactly when a string of it is held. -/
theorem ephCount_pos_iff (e : BitVec 4) : 1 ≤ ephCount e ↔ e ≠ 0b0000#4 := by
  revert e; decide

theorem ephCount_le (e : BitVec 4) : ephCount e ≤ 4 := by
  revert e; decide

/-! ### The ephemeris sub-step (R133) -/

/-- A slot that is neither the expected string nor a string 1 leaves a clear partial alone. -/
theorem ephStep_skip {ev : AsmEvent} {ts : TS} {l : LocalOf TS Sat} (h : l.ch.ephHave = 0b0000#4)
    (hf : ev.first? = none) : ephStep ev ts l = l := by
  have hn : ev.next? 0 = none := by cases ev <;> simp [AsmEvent.next?]
  simp [ephStep, h, hf, hn]

/-- A slot that is neither the expected string nor a string 1 ends a set in progress. -/
theorem ephStep_drop {ev : AsmEvent} {ts : TS} {l : LocalOf TS Sat} (h : l.ch.ephHave ≠ 0b0000#4)
    (hn : ev.next? (ephCount l.ch.ephHave) = none) (hf : ev.first? = none) : ephStep ev ts l = ephDiscard l := by
  simp [ephStep, hf, hn, (ephCount_pos_iff _).2 h]

@[simp] theorem next?_void (k : Nat) : AsmEvent.next? k .void = none := rfl
@[simp] theorem first?_void : AsmEvent.first? .void = none := rfl

@[simp] theorem first?_str_one (f : FieldMap) : AsmEvent.first? (.str 1 f) = some f := rfl

theorem first?_str {id : Nat} (f : FieldMap) (h : id ≠ 1) : AsmEvent.first? (.str id f) = none := by
  simp [AsmEvent.first?, h]

theorem next?_str {id k : Nat} (f : FieldMap) (h : k = 0 ∨ id ≠ k + 1) : AsmEvent.next? k (.str id f) = none := by
  simp only [AsmEvent.next?, ite_eq_right_iff]
  omega

theorem next?_str_succ {k : Nat} (f : FieldMap) (h : 1 ≤ k) : AsmEvent.next? k (.str (k + 1) f) = some f := by
  simp [AsmEvent.next?, h]

/-- A string past the fourth never is the expected one of a set that holds fewer than four. -/
theorem next?_late {id k : Nat} (f : FieldMap) (h : 5 ≤ id) (hk : k ≤ 3) : AsmEvent.next? k (.str id f) = none :=
  next?_str f (by omega)

/-- Three strings or fewer are held unless all four are. -/
theorem ephCount_le_three {e : BitVec 4} (h : e ≠ 0b1111#4) : ephCount e ≤ 3 := by
  revert e; decide

theorem next?_almanac {id k : Nat} (f : FieldMap) (h : 6 ≤ id) (hk : k ≤ 4) : AsmEvent.next? k (.str id f) = none :=
  next?_str f (by omega)

/-- What a discarded set leaves, field by field. -/
theorem ephDiscard_eq (l : LocalOf TS Sat) : ephDiscard l = { l with
    out := l.out ++ [.err (.incompleteFrame l.ch.sat .eph)]
    ch := { l.ch with ephHave := 0b0000#4, eph := [], cntRestart := l.ch.cntRestart + 1 } } := rfl

/-- A commit, field by field. -/
theorem ephCommit_eq (ts : TS) (l : LocalOf TS Sat) : ephCommit ts l = { l with
    out := l.out ++ [.ephemerisReady l.ch.sat l.ch.eph
      (resolve l.cfg.epoch0.eval l.time (FieldMap.read l.ch.eph .tb) .glonass) ts]
    ch := { l.ch with ephHave := 0b0000#4, eph := [] } } := rfl

/-- The whole of `EPH_STEP`: the expected string joins, or completes the set; anything else ends a set in progress, and
a string 1 starts one (R133). -/
theorem ephStep_cases (ev : AsmEvent) (ts : TS) (l : LocalOf TS Sat) :
    (∃ f, ev.next? (ephCount l.ch.ephHave) = some f ∧ ephCount l.ch.ephHave = 3 ∧
      ephStep ev ts l = ephCommit ts (ephMerge 3 f l)) ∨
    (∃ f, ev.next? (ephCount l.ch.ephHave) = some f ∧ ephCount l.ch.ephHave ≠ 3 ∧
      ephStep ev ts l = ephMerge (ephCount l.ch.ephHave) f l) ∨
    (∃ f, ev.next? (ephCount l.ch.ephHave) = none ∧ ev.first? = some f ∧ l.ch.ephHave = 0b0000#4 ∧
      ephStep ev ts l = ephStart f l) ∨
    (∃ f, ev.next? (ephCount l.ch.ephHave) = none ∧ ev.first? = some f ∧ l.ch.ephHave ≠ 0b0000#4 ∧
      ephStep ev ts l = ephStart f (ephDiscard l)) ∨
    (ev.next? (ephCount l.ch.ephHave) = none ∧ ev.first? = none ∧ l.ch.ephHave = 0b0000#4 ∧ ephStep ev ts l = l) ∨
    (ev.next? (ephCount l.ch.ephHave) = none ∧ ev.first? = none ∧ l.ch.ephHave ≠ 0b0000#4 ∧
      ephStep ev ts l = ephDiscard l) := by
  cases hn : ev.next? (ephCount l.ch.ephHave) with
  | some f =>
    by_cases h3 : ephCount l.ch.ephHave = 3
    · exact .inl ⟨f, rfl, h3, by simp [ephStep, h3] at hn ⊢; simp [hn]⟩
    · exact .inr (.inl ⟨f, rfl, h3, by simp [ephStep, hn, h3]⟩)
  | none =>
    refine .inr (.inr ?_)
    have hp := ephCount_pos_iff l.ch.ephHave
    cases hf : ev.first? with
    | some f =>
      by_cases h0 : l.ch.ephHave = 0b0000#4
      · have : ¬ 1 ≤ ephCount l.ch.ephHave := fun h => hp.1 h h0
        exact .inl ⟨f, rfl, rfl, h0, by simp only [ephStep, hn, hf, if_neg this]⟩
      · exact .inr (.inl ⟨f, rfl, rfl, h0, by simp only [ephStep, hn, hf, if_pos (hp.2 h0)]⟩)
    | none =>
      by_cases h0 : l.ch.ephHave = 0b0000#4
      · exact .inr (.inr (.inl ⟨rfl, rfl, h0, ephStep_skip h0 hf⟩))
      · exact .inr (.inr (.inr ⟨rfl, rfl, h0, ephStep_drop h0 hn hf⟩))

/-- The whole of `TIME_STEP`: a string 5 replaces TimeState, nothing else does anything (R143). -/
theorem timeStep_cases (ev : AsmEvent) (l : LocalOf TS Sat) :
    (∃ f, ev = .str 5 f ∧ timeStep ev l = timeReplace f l) ∨ ((∀ f, ev ≠ .str 5 f) ∧ timeStep ev l = l) := by
  cases ev with
  | void => exact .inr ⟨by simp, rfl⟩
  | str id f =>
    by_cases h : id = 5
    · exact .inl ⟨f, by rw [h], by simp [timeStep, h]⟩
    · exact .inr ⟨by simp [h], by simp [timeStep, h]⟩

/-- The whole of `ALM_STEP`: an even string waits, an odd one decides, nothing else does anything (R135, R136). -/
theorem almStep_cases (ev : AsmEvent) (ts : TS) (l : LocalOf TS Sat) :
    (∃ id f, ev = .str id f ∧ classOf id = some .even ∧ almStep ev ts l = almEven id f l) ∨
    (∃ id f, ev = .str id f ∧ classOf id = some .odd ∧ almStep ev ts l = almOdd f ts l) ∨
    ((∀ id f, ev = .str id f → classOf id ≠ some .even ∧ classOf id ≠ some .odd) ∧ almStep ev ts l = l) := by
  cases ev with
  | void => exact .inr (.inr ⟨by simp, rfl⟩)
  | str id f =>
    cases h : classOf id with
    | none => exact .inr (.inr ⟨by simp [h], by simp [almStep, h]⟩)
    | some cls =>
      cases cls with
      | even => exact .inl ⟨id, f, rfl, h, by simp [almStep, h]⟩
      | odd => exact .inr (.inl ⟨id, f, rfl, h, by simp [almStep, h]⟩)
      | _ => exact .inr (.inr ⟨by simp [h], by simp [almStep, h]⟩)

/-! ### The three sub-steps together (R132) -/

/-- A void slot with no set in progress has no effect (R133, R143, R135). -/
theorem asm_void_clear {ts : TS} {l : LocalOf TS Sat} (h : l.ch.ephHave = 0b0000#4) : asm .void ts l = l :=
  ephStep_skip (ev := .void) (ts := ts) h rfl

/-- A void slot ends a set in progress and does nothing else (R133, R138). -/
theorem asm_void_set {ts : TS} {l : LocalOf TS Sat} (h : l.ch.ephHave ≠ 0b0000#4) : asm .void ts l = ephDiscard l :=
  ephStep_drop (ev := .void) (ts := ts) h rfl rfl

/-- A string of the immediate data touches the ephemeris partial only (R143, R135). -/
theorem asm_immediate {id : Nat} {f : FieldMap} {ts : TS} {l : LocalOf TS Sat} (h : id ≤ 4) :
    asm (.str id f) ts l = ephStep (.str id f) ts l := by
  have : id = 0 ∨ id = 1 ∨ id = 2 ∨ id = 3 ∨ id = 4 := by omega
  obtain rfl | rfl | rfl | rfl | rfl := this <;> rfl

/-- A string of the almanac touches no TimeState of its own. -/
theorem asm_even {id : Nat} {f : FieldMap} {ts : TS} {l : LocalOf TS Sat} (h : classOf id = some .even) (h5 : id ≠ 5) :
    asm (.str id f) ts l = almEven id f (ephStep (.str id f) ts l) := by
  simp [asm, timeStep, h5, almStep, h]

theorem asm_odd {id : Nat} {f : FieldMap} {ts : TS} {l : LocalOf TS Sat} (h : classOf id = some .odd) (h5 : id ≠ 5) :
    asm (.str id f) ts l = almOdd f ts (ephStep (.str id f) ts l) := by
  simp [asm, timeStep, h5, almStep, h]

/-- The gate, accepting. -/
theorem strGate_accept {d : DataWord} {ts : TS} {g : LocalOf TS Sat → LocalOf TS Sat} {l : LocalOf TS Sat}
    (h : hammingAccept l.cfg.ht d = true) : strGate d ts g l = g l := by
  simp [strGate, h]

/-- The gate, rejecting (R109). -/
theorem strGate_reject {d : DataWord} {ts : TS} {g : LocalOf TS Sat → LocalOf TS Sat} {l : LocalOf TS Sat}
    (h : hammingAccept l.cfg.ht d = false) :
    strGate d ts g l = asm .void ts (l.raise (.checksumFailure l.ch.sat)) := by
  simp [strGate, h]

end Sys2Proof.Machine
end

