-- ==== Sys2Proof/Laws/Bits.lean ====
section
/-! SUPPORT. Reads after writes: the RawString space, the window and its timestamps, the data word, and the agreement
count. -/

namespace Sys2Proof.Machine

/-! ### The RawString space (R40, R41) -/

/-- A written position reads as written, every other position as before; a position that does not exist is not
written. -/
theorem rsBit_memWrite (rs : RawBits) (q p : Nat) (v : Bit) :
    rsBit (memWrite rs q v) p = if p = q ∧ 1 ≤ q ∧ q ≤ 115 then v else rsBit rs p := by
  unfold memWrite
  by_cases hq : 1 ≤ q ∧ q ≤ 115
  · by_cases hp : 1 ≤ p ∧ p ≤ 115
    · have h1 : (115 - p < 115) := by omega
      by_cases hpq : p = q
      · subst hpq
        cases v <;> simp [rsBit, hp, h1]
      · have h2 : ¬ 115 - p = 115 - q := by omega
        have h3 : (1#115).getLsbD (115 - p - (115 - q)) = false ∨ 115 - p < 115 - q := by
          by_cases h : 115 - p < 115 - q
          · exact .inr h
          · left
            rw [BitVec.getLsbD_one]
            simp; omega
        cases v <;> simp [rsBit, hp, hq, hpq, h1] <;> omega
    · have hpq : p ≠ q := fun h => hp (h ▸ hq)
      simp [rsBit, hp, hpq]
  · simp [hq]

theorem rsBit_memWrite_self {rs : RawBits} {q : Nat} {v : Bit} (h : 1 ≤ q ∧ q ≤ 115) :
    rsBit (memWrite rs q v) q = v := by
  simp [rsBit_memWrite, h]

theorem rsBit_memWrite_ne {rs : RawBits} {q p : Nat} {v : Bit} (h : p ≠ q) :
    rsBit (memWrite rs q v) p = rsBit rs p := by
  simp [rsBit_memWrite, h]

/-- Two RawStrings that read the same at every position are the same. -/
theorem rs_ext {a b : RawBits} (h : ∀ q, 1 ≤ q → q ≤ 115 → rsBit a q = rsBit b q) : a = b := by
  apply BitVec.eq_of_getLsbD_eq
  intro i hi
  have := h (115 - i) (by omega) (by omega)
  simp only [rsBit] at this
  rw [if_pos (by omega), if_pos (by omega), show 115 - (115 - i) = i by omega] at this
  exact this

/-- The time mark of a RawString is its first 30 positions (R48). -/
theorem markBit_rawMark (rs : RawBits) (i : Nat) (h : 1 ≤ i ∧ i ≤ 30) : markBit (rawMark rs) i = rsBit rs i := by
  simp only [markBit, rawMark, rsBit, BitVec.getLsbD_extractLsb']
  rw [if_pos (by omega)]
  simp only [show 30 - i < 30 by omega, decide_true, Bool.true_and, show 85 + (30 - i) = 115 - i by omega]

/-- The data bits of a RawString are its last 85 positions (R48). -/
theorem dataBit_rawData (rs : RawBits) (p : Nat) (h : 1 ≤ p ∧ p ≤ 85) : dataBit (rawData rs) p = rsBit rs (30 + p) := by
  simp only [dataBit, rawData, rsBit, BitVec.getLsbD_setWidth]
  rw [if_pos h, if_pos (by omega)]
  simp only [show 85 - p < 85 by omega, decide_true, Bool.true_and, show 115 - (30 + p) = 85 - p by omega]

theorem getLsbD_rawOf (m : TimeMark) (d : DataWord) (i : Nat) :
    (rawOf m d).getLsbD i = if i < 85 then d.getLsbD i else m.getLsbD (i - 85) :=
  BitVec.getLsbD_append

theorem rawMark_rawOf (m : TimeMark) (d : DataWord) : rawMark (rawOf m d) = m := by
  apply BitVec.eq_of_getLsbD_eq
  intro i hi
  simp only [rawMark, BitVec.getLsbD_extractLsb', getLsbD_rawOf]
  simp [hi]

theorem rawData_rawOf (m : TimeMark) (d : DataWord) : rawData (rawOf m d) = d := by
  apply BitVec.eq_of_getLsbD_eq
  intro i hi
  simp only [rawData, BitVec.getLsbD_setWidth, getLsbD_rawOf]
  simp [hi]

theorem rawOf_rawMark_rawData (rs : RawBits) : rawOf (rawMark rs) (rawData rs) = rs := by
  apply BitVec.eq_of_getLsbD_eq
  intro i hi
  rw [getLsbD_rawOf]
  by_cases h : i < 85
  · simp [h, rawData]
  · simp [h, rawMark, show 85 + (i - 85) = i by omega, show i - 85 < 30 by omega]

/-- Reads of a RawString whose time mark was replaced (R95). -/
theorem rsBit_memWriteMark (rs : RawBits) (m : TimeMark) (q : Nat) :
    rsBit (memWriteMark rs m) q = if 1 ≤ q ∧ q ≤ 30 then markBit m q else rsBit rs q := by
  by_cases h : 1 ≤ q ∧ q ≤ 30
  · rw [if_pos h, ← markBit_rawMark _ _ h, memWriteMark, rawMark_rawOf]
  · rw [if_neg h]
    by_cases h2 : 31 ≤ q ∧ q ≤ 115
    · have e : q = 30 + (q - 30) := by omega
      rw [e, ← dataBit_rawData _ _ (by omega), ← dataBit_rawData _ _ (by omega), memWriteMark, rawData_rawOf]
    · have : ¬ (1 ≤ q ∧ q ≤ 115) := by omega
      simp [rsBit, this]

/-! ### The window (R20, R91) -/

theorem getLsbD_shiftBits (w : TimeMark) (b : Bit) (i : Nat) (h : i < 30) :
    (shiftBits w b).getLsbD i = if i = 0 then b else w.getLsbD (i - 1) := by
  cases i with
  | zero => simp [shiftBits]
  | succ i =>
    simp only [shiftBits, BitVec.getLsbD_or, BitVec.getLsbD_shiftLeft, BitVec.getLsbD_setWidth,
      BitVec.getLsbD_ofBool]
    simp [h]

/-- The shift moves every place one to the older side. -/
theorem markBit_shiftBits (w : TimeMark) (b : Bit) (i : Nat) (h : 1 ≤ i ∧ i ≤ 29) :
    markBit (shiftBits w b) i = markBit w (i + 1) := by
  simp only [markBit]
  rw [getLsbD_shiftBits _ _ _ (by omega), if_neg (by omega), show 30 - i - 1 = 30 - (i + 1) by omega]

/-- The newest bit stands last. -/
theorem markBit_shiftBits_newest (w : TimeMark) (b : Bit) : markBit (shiftBits w b) 30 = b := by
  simp only [markBit]
  rw [getLsbD_shiftBits _ _ _ (by omega)]; rfl

theorem shiftTs_get (v : Vector SampleTime 30) (ts : SampleTime) (i : Nat) (h : i < 29) :
    (shiftTs v ts)[i] = v[i + 1] := by
  have e : v.tail[i] = v[i + 1] := by
    simp only [Vector.tail_eq_cast_extract, Vector.getElem_cast, Vector.getElem_extract, Nat.add_comm 1 i]
  rw [shiftTs, Vector.getElem_push, dif_pos h, e]

theorem shiftTs_get_newest (v : Vector SampleTime 30) (ts : SampleTime) : (shiftTs v ts)[29] = ts := by
  simp [shiftTs]

/-! ### The data word -/

/-- Two data words that read the same at every position are the same. -/
theorem dw_ext {d e : DataWord} (h : ∀ p, 1 ≤ p → p ≤ 85 → dataBit d p = dataBit e p) : d = e := by
  apply BitVec.eq_of_getLsbD_eq
  intro i hi
  have := h (85 - i) (by omega) (by omega)
  simp only [dataBit] at this
  rw [if_pos (by omega), if_pos (by omega), show 85 - (85 - i) = i by omega] at this
  exact this

/-- A written data position reads as written, every other as before. -/
theorem dataBit_setDataBit (d : DataWord) (q p : Nat) (v : Bit) :
    dataBit (setDataBit d q v) p = if p = q ∧ 1 ≤ q ∧ q ≤ 85 then v else dataBit d p := by
  unfold setDataBit
  by_cases hq : 1 ≤ q ∧ q ≤ 85
  · by_cases hp : 1 ≤ p ∧ p ≤ 85
    · have h1 : (85 - p < 85) := by omega
      by_cases hpq : p = q
      · subst hpq
        cases v <;> simp [dataBit, hp, h1]
      · have h2 : ¬ 85 - p = 85 - q := by omega
        cases v <;> simp [dataBit, hp, hq, hpq, h1] <;> omega
    · have hpq : p ≠ q := fun h => hp (h ▸ hq)
      simp [dataBit, hp, hpq]
  · simp [hq]

/-- The complement of a word complements every position that exists. -/
theorem dataBit_not (d : DataWord) (p : Nat) (h : 1 ≤ p ∧ p ≤ 85) : dataBit (~~~d) p = !dataBit d p := by
  simp only [dataBit, if_pos h, BitVec.getLsbD_not]
  simp [show 85 - p < 85 by omega]

/-! ### Agreement (R11, R102) -/

/-- The places in which two lists agree and those in which one agrees with the other's complement are all places. -/
theorem agree_add_agree_not (x m : TimeMark) : agree x m + agree x (~~~m) = 30 := by
  unfold agree
  have : (List.range' 1 30).countP (fun i => markBit x i == markBit (~~~m) i) =
      (List.range' 1 30).countP (fun i => !(markBit x i == markBit m i)) := by
    apply List.countP_congr
    intro i hi
    rw [List.mem_range'_1] at hi
    have : 30 - i < 30 := by omega
    simp only [markBit, BitVec.getLsbD_not, this, decide_true, Bool.true_and]
    cases x.getLsbD (30 - i) <;> cases m.getLsbD (30 - i) <;> simp
  have h := List.length_eq_countP_add_countP (fun i => markBit x i == markBit m i) (l := List.range' 1 30)
  simp only [List.length_range'] at h
  rw [this]
  refine Eq.trans (congrArg₂ (· + ·) rfl (List.countP_congr fun i _ => ?_)) h.symm
  cases markBit x i <;> cases markBit m i <;> decide

/-- Complementing the received bits turns agreement into disagreement (R102, R103). -/
theorem agree_not (x m : TimeMark) : agree (~~~x) m = 30 - agree x m := by
  have h : agree (~~~x) m = agree x (~~~m) := by
    unfold agree
    apply List.countP_congr
    intro i hi
    rw [List.mem_range'_1] at hi
    have : 30 - i < 30 := by omega
    simp only [markBit, BitVec.getLsbD_not, this, decide_true, Bool.true_and]
    cases x.getLsbD (30 - i) <;> cases m.getLsbD (30 - i) <;> simp
  have := agree_add_agree_not x m
  omega

theorem agree_le (x m : TimeMark) : agree x m ≤ 30 := by
  have := agree_add_agree_not x m
  omega

end Sys2Proof.Machine
end

