-- ==== Sys2Proof/Laws/Decode.lean ====
section
/-! SUPPORT. The id bits, the split of a data word into id and payload, and what the decoded instruction runs. -/

namespace Sys2Proof.Machine

/-- The id is the number of the bits `D[2..5]`, most significant first (R58). -/
theorem stringId_eq (d : DataWord) : stringId d = 8 * (dataBit d 2).toNat + 4 * (dataBit d 3).toNat +
    2 * (dataBit d 4).toNat + (dataBit d 5).toNat := by
  simp only [stringId, fld, Nat.reduceAdd]
  omega

theorem stringId_lt (d : DataWord) : stringId d < 16 := by
  rw [stringId_eq]
  have := Bool.toNat_lt (dataBit d 2)
  have := Bool.toNat_lt (dataBit d 3)
  have := Bool.toNat_lt (dataBit d 4)
  have := Bool.toNat_lt (dataBit d 5)
  omega

/-- The bits of a data word made of an id and a payload (R49). -/
theorem getLsbD_dataWord (id : BitVec 4) (p : Payload) (i : Nat) (h : i < 85) :
    (p.dataWord id).getLsbD i =
      if i < 80 then p.body.getLsbD i else if i < 84 then id.getLsbD (i - 80) else p.first := by
  have h1 : (p.dataWord id).getLsbD i =
      if i < 80 then p.body.getLsbD i else (BitVec.ofBool p.first ++ id).getLsbD (i - 80) := BitVec.getLsbD_append
  rw [h1, BitVec.getLsbD_append]
  split
  · rfl
  · split
    · rw [if_pos (by omega)]
    · rw [if_neg (by omega), show i - 80 - 4 = 0 by omega]; simp

theorem dataBit_dataWord_first (id : BitVec 4) (p : Payload) : dataBit (p.dataWord id) 1 = p.first := by
  simp only [dataBit]
  rw [if_pos (by omega), getLsbD_dataWord _ _ _ (by omega)]
  rfl

theorem dataBit_dataWord_id (id : BitVec 4) (p : Payload) (k : Nat) (h : 2 ≤ k ∧ k ≤ 5) :
    dataBit (p.dataWord id) k = id.getLsbD (5 - k) := by
  simp only [dataBit]
  rw [if_pos (by omega), getLsbD_dataWord _ _ _ (by omega), if_neg (by omega), if_pos (by omega),
    show 85 - k - 80 = 5 - k by omega]

/-- The id of a data word made of an id and a payload is that id. -/
theorem stringId_dataWord (id : BitVec 4) (p : Payload) : stringId (p.dataWord id) = id.toNat := by
  rw [stringId_eq]
  rw [dataBit_dataWord_id _ _ 2 (by omega), dataBit_dataWord_id _ _ 3 (by omega), dataBit_dataWord_id _ _ 4 (by omega),
    dataBit_dataWord_id _ _ 5 (by omega)]
  revert id; decide

/-- The payload of a data word made of an id and a payload is that payload. -/
theorem payloadOf_dataWord (id : BitVec 4) (p : Payload) : payloadOf (p.dataWord id) = p := by
  have h : (p.dataWord id).setWidth 80 = p.body := by
    apply BitVec.eq_of_getLsbD_eq
    intro i hi
    rw [BitVec.getLsbD_setWidth, getLsbD_dataWord _ _ _ (by omega)]
    simp [hi]
  simp only [payloadOf, dataBit_dataWord_first, h]

/-- A data word is made of its id and its payload. -/
theorem dataWord_payloadOf (d : DataWord) : (payloadOf d).dataWord (BitVec.ofNat 4 (stringId d)) = d := by
  apply BitVec.eq_of_getLsbD_eq
  intro i hi
  rw [getLsbD_dataWord _ _ _ hi]
  by_cases h : i < 80
  · simp [h, payloadOf]
  · by_cases h4 : i < 84
    · rw [if_neg h, if_pos h4, stringId_eq]
      have hb : ∀ k, 2 ≤ k → k ≤ 5 → dataBit d k = d.getLsbD (85 - k) := fun k h1 h2 => if_pos (by omega)
      rw [hb 2 (by omega) (by omega), hb 3 (by omega) (by omega), hb 4 (by omega) (by omega),
        hb 5 (by omega) (by omega)]
      have hi : i = 80 ∨ i = 81 ∨ i = 82 ∨ i = 83 := by omega
      simp only [Nat.reduceSub]
      clear hb
      obtain rfl | rfl | rfl | rfl := hi <;>
        (generalize d.getLsbD 83 = b3, d.getLsbD 82 = b2, d.getLsbD 81 = b1, d.getLsbD 80 = b0
         cases b3 <;> cases b2 <;> cases b1 <;> cases b0 <;> rfl)
    · rw [if_neg h, if_neg h4, show i = 84 by omega]
      rfl

/-! ### Bits in order of reception (R41) -/

/-- Bit `i` of a packed list is the `i`-th from its end. -/
theorem getLsbD_packBits (bits : List Bit) (i : Nat) (hi : i < 115) :
    (packBits bits).getLsbD i = bits.reverse[i]?.getD false := by
  unfold packBits
  induction bits using List.reverseRecOn generalizing i with
  | nil => simp
  | append_singleton bits b ih =>
    rw [List.foldl_append, List.foldl_cons, List.foldl_nil]
    cases i with
    | zero => simp
    | succ i =>
      simp [hi]
      rw [← BitVec.getLsbD_eq_getElem (by omega), ih i (by omega)]

/-- Packing the bits of a RawString gives it back. -/
theorem packBits_unpackBits (rs : RawBits) : packBits (unpackBits rs) = rs := by
  apply BitVec.eq_of_getLsbD_eq
  intro i hi
  rw [getLsbD_packBits _ _ hi]
  simp [unpackBits, hi, show 114 - (114 - i) = i by omega]

/-- The bits of a packed list of 115 are the list. -/
theorem unpackBits_packBits (bits : List Bit) (h : bits.length = 115) : unpackBits (packBits bits) = bits := by
  apply List.ext_getElem
  · simp [unpackBits, h]
  · intro i h1 h2
    have h3 := getLsbD_packBits bits (114 - i) (by omega)
    rw [List.getElem?_reverse (by omega), show bits.length - 1 - (114 - i) = i by omega,
      List.getElem?_eq_getElem h2] at h3
    simpa [unpackBits] using h3

theorem length_unpackBits (rs : RawBits) : (unpackBits rs).length = 115 := by
  simp [unpackBits]

/-- The string instruction a RawString decodes to runs the string pipeline on its data bits (R84). -/
theorem exec_decodeRaw (c : Nat) (ts : SampleTime) (rs : RawBits) (s : State) :
    exec (decodeRaw c ts rs) s = onChannel c (stringDone (rawData rs) ts) s := by
  have hd := dataWord_payloadOf (rawData rs)
  have hlt := stringId_lt (rawData rs)
  unfold decodeRaw stringDone instrOfId
  generalize stringId (rawData rs) = n at *
  interval_cases n
  · exact congrArg (fun d => onChannel c (str0 d ts) s) hd
  · exact congrArg (fun d => onChannel c (str1 d ts) s) hd
  · exact congrArg (fun d => onChannel c (str2 d ts) s) hd
  · exact congrArg (fun d => onChannel c (str3 d ts) s) hd
  · exact congrArg (fun d => onChannel c (str4 d ts) s) hd
  · exact congrArg (fun d => onChannel c (str5 d ts) s) hd
  · exact congrArg (fun d => onChannel c (str6 d ts) s) hd
  · exact congrArg (fun d => onChannel c (str7 d ts) s) hd
  · exact congrArg (fun d => onChannel c (str8 d ts) s) hd
  · exact congrArg (fun d => onChannel c (str9 d ts) s) hd
  · exact congrArg (fun d => onChannel c (str10 d ts) s) hd
  · exact congrArg (fun d => onChannel c (str11 d ts) s) hd
  · exact congrArg (fun d => onChannel c (str12 d ts) s) hd
  · exact congrArg (fun d => onChannel c (str13 d ts) s) hd
  · exact congrArg (fun d => onChannel c (str14 d ts) s) hd
  · exact congrArg (fun d => onChannel c (str15 d ts) s) hd

end Sys2Proof.Machine
end

