-- ==== Sys2Proof/Laws/FieldMap.lean ====
section
/-! SUPPORT. Field maps: what a write, a merge and an extraction hold, and under which names. -/

namespace Sys2Proof.Machine

open FieldMap

/-- The names of a map. -/
abbrev FieldMap.names (m : FieldMap) : List FieldName := m.map (·.1)

@[simp] theorem FieldMap.get?_nil (x : FieldName) : FieldMap.get? [] x = none := rfl

theorem FieldMap.get?_cons (y x : FieldName) (v : Rat) (m : FieldMap) :
    FieldMap.get? ((y, v) :: m) x = if x = y then some v else FieldMap.get? m x := by
  unfold FieldMap.get?
  rw [List.lookup_cons]
  by_cases h : x = y
  · simp [h]
  · simp [h, beq_eq_false_iff_ne.2 h]

/-- A write gives its name the value and keeps every other name's. -/
theorem FieldMap.get?_put (m : FieldMap) (x y : FieldName) (v : Rat) :
    FieldMap.get? (FieldMap.put m x v) y = if y = x then some v else FieldMap.get? m y := by
  induction m with
  | nil => simp [FieldMap.put, FieldMap.get?_cons]
  | cons e m ih =>
    obtain ⟨z, w⟩ := e
    by_cases hz : z = x
    · subst hz
      simp only [FieldMap.put, if_pos, FieldMap.get?_cons]
      split <;> simp_all
    · simp only [FieldMap.put, if_neg hz, FieldMap.get?_cons, ih]
      by_cases hy : y = z
      · simp [hy, hz]
      · simp [hy]

/-- A write of a name the map holds keeps the names; of a new name appends it. -/
theorem FieldMap.names_put (m : FieldMap) (x : FieldName) (v : Rat) :
    FieldMap.names (FieldMap.put m x v) = if x ∈ (FieldMap.names m) then (FieldMap.names m) else (FieldMap.names m) ++ [x] := by
  induction m with
  | nil => simp [FieldMap.put, FieldMap.names]
  | cons e m ih =>
    obtain ⟨z, w⟩ := e
    by_cases hz : z = x
    · simp [FieldMap.put, FieldMap.names, hz]
    · have hx : x ≠ z := fun h => hz h.symm
      simp only [FieldMap.names] at ih ⊢
      simp only [FieldMap.put, if_neg hz, List.map_cons, ih, List.mem_cons, hx, false_or]
      split <;> simp

@[simp] theorem FieldMap.merge_nil (m : FieldMap) : FieldMap.merge m [] = m := rfl

@[simp] theorem FieldMap.merge_cons (m f : FieldMap) (e : FieldName × Rat) :
    FieldMap.merge m (e :: f) = FieldMap.merge (FieldMap.put m e.1 e.2) f := rfl

/-- The names of a merge: those of the base, then the new ones, when the merged names differ among themselves. -/
theorem FieldMap.names_merge (m f : FieldMap) (h : (FieldMap.names f).Nodup) :
    FieldMap.names (FieldMap.merge m f) = (FieldMap.names m) ++ (FieldMap.names f).filter (· ∉ (FieldMap.names m)) := by
  induction f generalizing m with
  | nil => simp [FieldMap.names]
  | cons e f ih =>
    obtain ⟨x, v⟩ := e
    rw [FieldMap.names, List.map_cons, List.nodup_cons] at h
    have hx : ∀ y ∈ (FieldMap.names f), y ≠ x := fun y hy hxy => h.1 (hxy ▸ hy)
    rw [FieldMap.merge_cons, ih _ h.2, FieldMap.names_put]
    by_cases hm : x ∈ (FieldMap.names m)
    · simp only [if_pos hm]
      rw [show FieldMap.names ((x, v) :: f) = x :: (FieldMap.names f) from rfl, List.filter_cons]
      simp [hm]
    · simp only [if_neg hm]
      rw [show FieldMap.names ((x, v) :: f) = x :: (FieldMap.names f) from rfl, List.filter_cons]
      have : List.filter (fun y => decide (y ∉ (FieldMap.names m) ++ [x])) (FieldMap.names f) =
          List.filter (fun y => decide (y ∉ (FieldMap.names m))) (FieldMap.names f) := by
        apply List.filter_congr
        intro y hy
        simp [hx y hy]
      rw [this]
      simp [hm]

theorem FieldMap.names_merge_nil (f : FieldMap) (h : (FieldMap.names f).Nodup) :
    FieldMap.names (FieldMap.merge [] f) = (FieldMap.names f) := by
  rw [FieldMap.names_merge [] f h]
  simp [FieldMap.names]

/-- A merge of names the base does not hold appends them. -/
theorem FieldMap.names_merge_disjoint (m f : FieldMap) (h : (FieldMap.names f).Nodup) (hd : ∀ x ∈ (FieldMap.names f), x ∉ (FieldMap.names m)) :
    FieldMap.names (FieldMap.merge m f) = (FieldMap.names m) ++ (FieldMap.names f) := by
  rw [FieldMap.names_merge m f h, List.filter_eq_self.2]
  intro x hx
  simp only [decide_eq_true_eq]
  exact hd x hx

/-- A name is in a map exactly when the map gives it a value. -/
theorem FieldMap.get?_eq_none (m : FieldMap) (x : FieldName) : FieldMap.get? m x = none ↔ x ∉ (FieldMap.names m) := by
  induction m with
  | nil => simp [FieldMap.names]
  | cons e m ih =>
    obtain ⟨y, v⟩ := e
    rw [FieldMap.get?_cons]
    by_cases h : x = y
    · simp [h, FieldMap.names]
    · simp only [if_neg h, ih]
      simp [FieldMap.names, h]

/-- What a record takes from a string: its names but `STRING_ID`. -/
theorem FieldMap.names_record (f : FieldMap) : FieldMap.names (FieldMap.record f) = (FieldMap.names f).filter (· ≠ .stringId) := by
  unfold FieldMap.record FieldMap.names
  rw [List.filter_map]
  rfl

/-- A record keeps every value but that of `STRING_ID`. -/
theorem FieldMap.get?_record (f : FieldMap) (x : FieldName) (hx : x ≠ .stringId) :
    FieldMap.get? (FieldMap.record f) x = FieldMap.get? f x := by
  induction f with
  | nil => rfl
  | cons e f ih =>
    obtain ⟨y, v⟩ := e
    rw [FieldMap.get?_cons, ← ih]
    by_cases hy : y = .stringId
    · have : x ≠ y := by rw [hy]; exact hx
      simp [FieldMap.record, hy, hx]
    · simp [FieldMap.record, hy, FieldMap.get?_cons]

/-- The names of an extraction are the class's, when they differ among themselves (R123). -/
theorem names_extract (t : FieldTable) (cls : FieldClass) (d : DataWord) (h : (fieldNames (t.specs cls)).Nodup) :
    FieldMap.names (extract t cls d) = fieldNames (t.specs cls) := by
  have key : ∀ (l : List FieldSpec) (m : FieldMap),
      l.foldl (fun f fs => FieldMap.put f fs.name (fieldValue d fs)) m =
        FieldMap.merge m (l.map fun fs => (fs.name, fieldValue d fs)) := by
    intro l
    induction l with
    | nil => intro m; rfl
    | cons a l ih => intro m; simp [ih]
  have hn : FieldMap.names ((t.specs cls).map fun fs => (fs.name, fieldValue d fs)) = fieldNames (t.specs cls) := by
    simp [FieldMap.names, fieldNames]
  unfold extract
  rw [key, FieldMap.names_merge_nil _ (by rw [hn]; exact h), hn]

/-- The names of a class differ among themselves (R60). -/
theorem nodup_fieldNames {l : List FieldSpec} (h : ClassWF l) : (fieldNames l).Nodup := by
  unfold fieldNames List.Nodup
  rw [List.pairwise_map]
  exact h.2.1.imp fun hfg => hfg.1

end Sys2Proof.Machine
end

