-- ==== Sys2Proof/Laws/Frame.lean ====
section
/-! SUPPORT. What the string pipeline leaves alone: the parameters, the tag, and all the synchroniser's elements. -/

namespace Sys2Proof.Machine

variable {TS Sat : Type}

/-- Two views agree on what the string pipeline never writes: the parameters, the tag, the window, the
synchroniser's elements, the buffer, and the count of lost syncs. -/
structure LocalOf.KeepsSync (l l' : LocalOf TS Sat) : Prop where
  cfg : l'.cfg = l.cfg
  sat : l'.ch.sat = l.ch.sat
  win : l'.ch.win = l.ch.win
  winTs : l'.ch.winTs = l.ch.winTs
  winN : l'.ch.winN = l.ch.winN
  sync : l'.ch.sync = l.ch.sync
  pol : l'.ch.pol = l.ch.pol
  bitcnt : l'.ch.bitcnt = l.ch.bitcnt
  miss : l'.ch.miss = l.ch.miss
  buf : l'.ch.buf = l.ch.buf
  bufTs : l'.ch.bufTs = l.ch.bufTs

theorem LocalOf.KeepsSync.refl (l : LocalOf TS Sat) : l.KeepsSync l :=
  ⟨rfl, rfl, rfl, rfl, rfl, rfl, rfl, rfl, rfl, rfl, rfl⟩

theorem LocalOf.KeepsSync.trans {a b c : LocalOf TS Sat} (h : a.KeepsSync b) (k : b.KeepsSync c) : a.KeepsSync c :=
  ⟨k.cfg.trans h.cfg, k.sat.trans h.sat, k.win.trans h.win, k.winTs.trans h.winTs, k.winN.trans h.winN,
    k.sync.trans h.sync, k.pol.trans h.pol, k.bitcnt.trans h.bitcnt, k.miss.trans h.miss, k.buf.trans h.buf,
    k.bufTs.trans h.bufTs⟩

theorem raise_keepsSync (e : ErrOf Sat) (l : LocalOf TS Sat) : l.KeepsSync (l.raise e) := by
  constructor <;> simp

theorem ephDiscard_keepsSync (l : LocalOf TS Sat) : l.KeepsSync (ephDiscard l) := by
  constructor <;> rfl

theorem ephStart_keepsSync (f : FieldMap) (l : LocalOf TS Sat) : l.KeepsSync (ephStart f l) := by
  constructor <;> rfl

theorem ephMerge_keepsSync (k : Nat) (f : FieldMap) (l : LocalOf TS Sat) : l.KeepsSync (ephMerge k f l) := by
  constructor <;> rfl

theorem ephCommit_keepsSync (ts : TS) (l : LocalOf TS Sat) : l.KeepsSync (ephCommit ts l) := by
  constructor <;> rfl

theorem ephStep_keepsSync (ev : AsmEvent) (ts : TS) (l : LocalOf TS Sat) : l.KeepsSync (ephStep ev ts l) := by
  obtain ⟨f, -, -, h⟩ | ⟨f, -, -, h⟩ | ⟨f, -, -, -, h⟩ | ⟨f, -, -, -, h⟩ | ⟨-, -, -, h⟩ | ⟨-, -, -, h⟩ :=
    ephStep_cases ev ts l <;> rw [h]
  · exact (ephMerge_keepsSync _ _ l).trans (ephCommit_keepsSync _ _)
  · exact ephMerge_keepsSync _ _ l
  · exact ephStart_keepsSync _ _
  · exact (ephDiscard_keepsSync l).trans (ephStart_keepsSync _ _)
  · exact .refl l
  · exact ephDiscard_keepsSync l

theorem timeStep_keepsSync (ev : AsmEvent) (l : LocalOf TS Sat) : l.KeepsSync (timeStep ev l) := by
  obtain ⟨f, -, h⟩ | ⟨-, h⟩ := timeStep_cases ev l <;> rw [h]
  · constructor <;> rfl
  · exact .refl l

theorem almStep_keepsSync (ev : AsmEvent) (ts : TS) (l : LocalOf TS Sat) : l.KeepsSync (almStep ev ts l) := by
  obtain ⟨id, f, -, -, h⟩ | ⟨id, f, -, -, h⟩ | ⟨-, h⟩ := almStep_cases ev ts l <;> rw [h]
  · unfold almEven
    simp only
    split <;> constructor <;> rfl
  · unfold almOdd
    split
    · split <;> constructor <;> rfl
    · exact .refl l
  · exact .refl l

theorem asm_keepsSync (ev : AsmEvent) (ts : TS) (l : LocalOf TS Sat) : l.KeepsSync (asm ev ts l) :=
  ((ephStep_keepsSync ev ts l).trans (timeStep_keepsSync ev _)).trans (almStep_keepsSync ev ts _)

/-- What a string can run: an accepted string of a class, or a void slot after a signal (R84). -/
theorem stringDone_cases (d : DataWord) (ts : TS) (l : LocalOf TS Sat) :
    (hammingAccept l.cfg.ht d = false ∧ stringDone d ts l = asm .void ts (l.raise (.checksumFailure l.ch.sat))) ∨
    (hammingAccept l.cfg.ht d = true ∧ stringId d = 0 ∧
      stringDone d ts l = asm .void ts (l.raise (.unknownStringId l.ch.sat 0))) ∨
    (hammingAccept l.cfg.ht d = true ∧ ∃ cls, classOf (stringId d) = some cls ∧
      stringDone d ts l = asm (.str (stringId d) (extract l.cfg.ft cls d)) ts l) := by
  have hlt := stringId_lt d
  cases h : hammingAccept l.cfg.ht d with
  | false =>
    refine .inl ⟨rfl, ?_⟩
    unfold stringDone
    split <;> exact strGate_reject h
  | true =>
    right
    unfold stringDone
    generalize stringId d = n at *
    interval_cases n
    · exact .inl ⟨rfl, rfl, strGate_accept h⟩
    all_goals exact .inr ⟨rfl, _, rfl, strGate_accept h⟩

theorem stringDone_keepsSync (d : DataWord) (ts : TS) (l : LocalOf TS Sat) : l.KeepsSync (stringDone d ts l) := by
  obtain ⟨-, h⟩ | ⟨-, -, h⟩ | ⟨-, _, -, h⟩ := stringDone_cases d ts l
  · rw [h]; exact (raise_keepsSync _ l).trans (asm_keepsSync _ _ _)
  · rw [h]; exact (raise_keepsSync _ l).trans (asm_keepsSync _ _ _)
  · rw [h]; exact asm_keepsSync _ _ _

/-! ### What the string pipeline does not read -/

/-- A channel with its synchroniser's elements taken from another one. -/
def ChannelOf.withSync (ch k : ChannelOf TS Sat) : ChannelOf TS Sat :=
  { ch with win := k.win, winTs := k.winTs, winN := k.winN, sync := k.sync, pol := k.pol, bitcnt := k.bitcnt,
            miss := k.miss, buf := k.buf, bufTs := k.bufTs }

/-- A view with the synchroniser's elements of another channel. -/
def LocalOf.withSync (l : LocalOf TS Sat) (k : ChannelOf TS Sat) : LocalOf TS Sat := { l with ch := l.ch.withSync k }

theorem raise_withSync (e : ErrOf Sat) (l : LocalOf TS Sat) (k : ChannelOf TS Sat) : (l.withSync k).raise e = (l.raise e).withSync k := by
  cases e <;> rfl

theorem ephStep_withSync (ev : AsmEvent) (ts : TS) (l : LocalOf TS Sat) (k : ChannelOf TS Sat) :
    ephStep ev ts (l.withSync k) = (ephStep ev ts l).withSync k := by
  have e : (l.withSync k).ch.ephHave = l.ch.ephHave := rfl
  unfold ephStep
  simp only [e]
  cases ev.next? (ephCount l.ch.ephHave) with
  | some f => by_cases h : ephCount l.ch.ephHave + 1 = 4 <;> simp only [h, if_true, if_false] <;> rfl
  | none => by_cases h : 1 ≤ ephCount l.ch.ephHave <;> cases ev.first? <;> simp only [h, if_true, if_false] <;> rfl

theorem timeStep_withSync (ev : AsmEvent) (l : LocalOf TS Sat) (k : ChannelOf TS Sat) :
    timeStep ev (l.withSync k) = (timeStep ev l).withSync k := by
  cases ev with
  | void => rfl
  | str id f =>
    by_cases h : id = 5
    · simp only [timeStep, h, if_true]; rfl
    · simp only [timeStep, h, if_false]

theorem almStep_withSync (ev : AsmEvent) (ts : TS) (l : LocalOf TS Sat) (k : ChannelOf TS Sat) :
    almStep ev ts (l.withSync k) = (almStep ev ts l).withSync k := by
  have e : (l.withSync k).ch.almPend = l.ch.almPend := rfl
  have e2 : (l.withSync k).ch.almNA = l.ch.almNA := rfl
  obtain ⟨id, f, rfl, hc, h⟩ | ⟨id, f, rfl, hc, h⟩ | ⟨hc, h⟩ := almStep_cases ev ts l
  · rw [h]
    simp only [almStep, hc, almEven, e]
    by_cases hp : l.ch.almPend = true <;> simp only [hp, if_true] <;> rfl
  · rw [h]
    simp only [almStep, hc, almOdd, e, e2]
    by_cases hp : l.ch.almPend = true
    · by_cases hn : FieldMap.read f .nA = l.ch.almNA <;> simp only [hp, hn, if_true, if_false] <;> rfl
    · simp only [hp]; rfl
  · rw [h]
    obtain ⟨id, f, rfl, hc', -⟩ | ⟨id, f, rfl, hc', -⟩ | ⟨-, h'⟩ := almStep_cases ev ts (l.withSync k)
    · exact absurd hc' (hc id f rfl).1
    · exact absurd hc' (hc id f rfl).2
    · exact h'

theorem asm_withSync (ev : AsmEvent) (ts : TS) (l : LocalOf TS Sat) (k : ChannelOf TS Sat) :
    asm ev ts (l.withSync k) = (asm ev ts l).withSync k := by
  simp only [asm, ephStep_withSync, timeStep_withSync, almStep_withSync]

/-- The string pipeline reads none of the synchroniser's elements: with others in their place it does the same. -/
theorem stringDone_withSync (d : DataWord) (ts : TS) (l : LocalOf TS Sat) (k : ChannelOf TS Sat) :
    stringDone d ts (l.withSync k) = (stringDone d ts l).withSync k := by
  obtain ⟨ha, h⟩ | ⟨ha, hz, h⟩ | ⟨ha, cls, hc, h⟩ := stringDone_cases d ts l <;>
    obtain ⟨ha', h'⟩ | ⟨ha', hz', h'⟩ | ⟨ha', cls', hc', h'⟩ := stringDone_cases d ts (l.withSync k)
  all_goals have e : (l.withSync k).cfg = l.cfg := rfl
  all_goals rw [e] at ha'
  all_goals try (rw [ha] at ha'; exact absurd ha' (by decide))
  · rw [h, h']; rw [← asm_withSync, ← raise_withSync]; rfl
  · rw [h, h', ← asm_withSync, ← raise_withSync]; rfl
  · rw [hz] at hc'; cases hc'
  · rw [hz'] at hc; cases hc
  · rw [hc] at hc'; cases hc'
    rw [h, h', ← asm_withSync]; rfl

/-! ### The synchroniser's rules -/

/-- A search step acquires in one of the two polarities, or does nothing (R94). -/
theorem searchStep_cases (l : LocalOf TS Sat) :
    (l.ch.winN = 30 ∧ l.cfg.tSync ≤ agree l.ch.win l.cfg.tm ∧ searchStep l = acquire false l) ∨
    (l.ch.winN = 30 ∧ ¬ l.cfg.tSync ≤ agree l.ch.win l.cfg.tm ∧ l.cfg.tSync ≤ 30 - agree l.ch.win l.cfg.tm ∧
      searchStep l = acquire true l) ∨
    (¬ (l.ch.winN = 30 ∧ (l.cfg.tSync ≤ agree l.ch.win l.cfg.tm ∨ l.cfg.tSync ≤ 30 - agree l.ch.win l.cfg.tm)) ∧
      searchStep l = l) := by
  unfold searchStep
  by_cases hw : l.ch.winN = 30
  · simp only [if_pos hw]
    by_cases h1 : l.cfg.tSync ≤ agree l.ch.win l.cfg.tm
    · exact .inl ⟨hw, h1, by simp [h1]⟩
    · by_cases h2 : l.cfg.tSync ≤ 30 - agree l.ch.win l.cfg.tm
      · exact .inr (.inl ⟨hw, h1, h2, by simp [h1, h2]⟩)
      · exact .inr (.inr ⟨by simp [h1, h2], by simp [h1, h2]⟩)
  · exact .inr (.inr ⟨by simp [hw], by simp [hw]⟩)

/-- A PUSH in SEARCHING or LOST is a search step in SEARCHING (R94, R99). -/
theorem pushBit_search {b : Bit} {ts : TS} {l : LocalOf TS Sat} (h : l.ch.sync ≠ .synced) :
    pushBit b ts l = searchStep { l with ch := { l.ch with
      win := shiftBits l.ch.win b
      winTs := shiftTs l.ch.winTs ts
      winN := min 30 (l.ch.winN + 1)
      sync := .searching } } := by
  unfold pushBit
  cases hs : l.ch.sync with
  | synced => exact absurd hs h
  | lost => simp only [windowShift, hs]; rfl
  | searching => simp only [windowShift, hs]

/-- A PUSH in SYNCED consumes the bit (R96). -/
theorem pushBit_synced {b : Bit} {ts : TS} {l : LocalOf TS Sat} (h : l.ch.sync = .synced) :
    pushBit b ts l = consumeBit b ts (windowShift b ts l) := by
  unfold pushBit
  simp only [windowShift, h]

/-- The time-mark check: a hit, a first miss, or the loss of sync (R97). -/
theorem tmCheck_cases (l : LocalOf TS Sat) :
    (l.cfg.tSync ≤ agree (rawMark l.ch.buf) l.cfg.tm ∧ tmCheck l = { l with ch := { l.ch with miss := 0 } }) ∨
    (¬ l.cfg.tSync ≤ agree (rawMark l.ch.buf) l.cfg.tm ∧ l.ch.miss = 0 ∧
      tmCheck l = { l with ch := { l.ch with miss := 1 } }) ∨
    (¬ l.cfg.tSync ≤ agree (rawMark l.ch.buf) l.cfg.tm ∧ l.ch.miss ≠ 0 ∧ tmCheck l = lose l) := by
  unfold tmCheck
  by_cases h1 : l.cfg.tSync ≤ agree (rawMark l.ch.buf) l.cfg.tm
  · exact .inl ⟨h1, by simp [h1]⟩
  · by_cases h2 : l.ch.miss = 0
    · exact .inr (.inl ⟨h1, h2, by simp [h1, h2]⟩)
    · exact .inr (.inr ⟨h1, h2, by simp [h1, h2]⟩)

/-- The consumption of a bit, by its place in the block (R96). -/
theorem consumeBit_cases {b : Bit} {ts : TS} {l : LocalOf TS Sat} (h : l.ch.sync = .synced) :
    (l.ch.bitcnt ≠ 29 ∧ l.ch.bitcnt ≠ 114 ∧ consumeBit b ts l =
      { storeBit (l.ch.bitcnt + 1) b ts l with
        ch := { (storeBit (l.ch.bitcnt + 1) b ts l).ch with bitcnt := l.ch.bitcnt + 1 } }) ∨
    (l.ch.bitcnt = 29 ∧ ((tmCheck (storeBit 30 b ts l)).ch.sync = .synced → consumeBit b ts l =
        { tmCheck (storeBit 30 b ts l) with ch := { (tmCheck (storeBit 30 b ts l)).ch with bitcnt := 30 } }) ∧
      ((tmCheck (storeBit 30 b ts l)).ch.sync ≠ .synced → consumeBit b ts l = tmCheck (storeBit 30 b ts l))) ∨
    (l.ch.bitcnt = 114 ∧ consumeBit b ts l =
      blockDone { storeBit 115 b ts l with ch := { (storeBit 115 b ts l).ch with bitcnt := 0 } }) := by
  have hs : ∀ p, (storeBit p b ts l).ch.sync = .synced := fun p => h
  by_cases h29 : l.ch.bitcnt = 29
  · refine .inr (.inl ⟨h29, fun hk => ?_, fun hk => ?_⟩) <;>
    · unfold consumeBit
      simp [h29, hk]
  · by_cases h114 : l.ch.bitcnt = 114
    · refine .inr (.inr ⟨h114, ?_⟩)
      unfold consumeBit
      simp [h114, hs]
    · refine .inl ⟨h29, h114, ?_⟩
      unfold consumeBit
      simp [h29, h114, hs]

end Sys2Proof.Machine
end

