-- ==== Sys2Proof/Laws/PerInstr.lean ====
section
/-! SUPPORT. One statement about every instruction's encoding, instruction by instruction. -/

namespace Sys2Proof.Laws.EncodedId

open Sys2Proof Sys2Proof.Machine

/-- The id bits of an instruction's encoding are the instruction's own id (R58, R77); an instruction without an id has
no encoding (R88). -/
def Statement (i : Instr) : Prop :=
  ∀ mark, (encode mark i).map (fun rs => BitVec.ofNat 4 (stringId (rawData rs))) = i.id?

/-- The id bits of the RawString of an id and a payload. -/
theorem id_rawOf (mark : TimeMark) (id : BitVec 4) (p : Payload) :
    (some (rawOf mark (p.dataWord id))).map (fun rs => BitVec.ofNat 4 (stringId (rawData rs))) = some id := by
  rw [Option.map_some, rawData_rawOf, stringId_dataWord, BitVec.ofNat_toNat, BitVec.setWidth_eq]

theorem str0 (c : Nat) (p : Payload) (ts : SampleTime) : Statement (.str0 c p ts) := fun mark => id_rawOf mark 0#4 p

theorem str1 (c : Nat) (p : Payload) (ts : SampleTime) : Statement (.str1 c p ts) := fun mark => id_rawOf mark 1#4 p

theorem str2 (c : Nat) (p : Payload) (ts : SampleTime) : Statement (.str2 c p ts) := fun mark => id_rawOf mark 2#4 p

theorem str3 (c : Nat) (p : Payload) (ts : SampleTime) : Statement (.str3 c p ts) := fun mark => id_rawOf mark 3#4 p

theorem str4 (c : Nat) (p : Payload) (ts : SampleTime) : Statement (.str4 c p ts) := fun mark => id_rawOf mark 4#4 p

theorem str5 (c : Nat) (p : Payload) (ts : SampleTime) : Statement (.str5 c p ts) := fun mark => id_rawOf mark 5#4 p

theorem str6 (c : Nat) (p : Payload) (ts : SampleTime) : Statement (.str6 c p ts) := fun mark => id_rawOf mark 6#4 p

theorem str7 (c : Nat) (p : Payload) (ts : SampleTime) : Statement (.str7 c p ts) := fun mark => id_rawOf mark 7#4 p

theorem str8 (c : Nat) (p : Payload) (ts : SampleTime) : Statement (.str8 c p ts) := fun mark => id_rawOf mark 8#4 p

theorem str9 (c : Nat) (p : Payload) (ts : SampleTime) : Statement (.str9 c p ts) := fun mark => id_rawOf mark 9#4 p

theorem str10 (c : Nat) (p : Payload) (ts : SampleTime) : Statement (.str10 c p ts) := fun mark => id_rawOf mark 10#4 p

theorem str11 (c : Nat) (p : Payload) (ts : SampleTime) : Statement (.str11 c p ts) := fun mark => id_rawOf mark 11#4 p

theorem str12 (c : Nat) (p : Payload) (ts : SampleTime) : Statement (.str12 c p ts) := fun mark => id_rawOf mark 12#4 p

theorem str13 (c : Nat) (p : Payload) (ts : SampleTime) : Statement (.str13 c p ts) := fun mark => id_rawOf mark 13#4 p

theorem str14 (c : Nat) (p : Payload) (ts : SampleTime) : Statement (.str14 c p ts) := fun mark => id_rawOf mark 14#4 p

theorem str15 (c : Nat) (p : Payload) (ts : SampleTime) : Statement (.str15 c p ts) := fun mark => id_rawOf mark 15#4 p

theorem reset (sats : List SatId) : Statement (.reset sats) := fun _ => rfl

theorem chReset (c : Nat) (sat : SatId) : Statement (.chReset c sat) := fun _ => rfl

theorem push (c : Nat) (b : Bit) (ts : SampleTime) : Statement (.push c b ts) := fun _ => rfl

theorem query (sod : Rat) (ref : TimeRef) : Statement (.query sod ref) := fun _ => rfl

end Sys2Proof.Laws.EncodedId
end

