-- ==== Sys2Proof/Laws/Tags.lean ====
section
/-! SUPPORT. What replacing the tags of a channel, a signal or an output leaves and replaces, field by field. -/

namespace Sys2Proof.Machine

variable {TS Sat TS' Sat' : Type} (f : TS → TS') (g : Sat → Sat') (ch : ChannelOf TS Sat) (l : LocalOf TS Sat)

@[simp] theorem ChannelOf.mapTags_sat : (ch.mapTags f g).sat = g ch.sat := rfl
@[simp] theorem ChannelOf.mapTags_winTs : (ch.mapTags f g).winTs = ch.winTs.map f := rfl
@[simp] theorem ChannelOf.mapTags_bufTs : (ch.mapTags f g).bufTs = f ch.bufTs := rfl
@[simp] theorem ChannelOf.mapTags_win : (ch.mapTags f g).win = ch.win := rfl
@[simp] theorem ChannelOf.mapTags_winN : (ch.mapTags f g).winN = ch.winN := rfl
@[simp] theorem ChannelOf.mapTags_sync : (ch.mapTags f g).sync = ch.sync := rfl
@[simp] theorem ChannelOf.mapTags_pol : (ch.mapTags f g).pol = ch.pol := rfl
@[simp] theorem ChannelOf.mapTags_bitcnt : (ch.mapTags f g).bitcnt = ch.bitcnt := rfl
@[simp] theorem ChannelOf.mapTags_miss : (ch.mapTags f g).miss = ch.miss := rfl
@[simp] theorem ChannelOf.mapTags_buf : (ch.mapTags f g).buf = ch.buf := rfl
@[simp] theorem ChannelOf.mapTags_ephHave : (ch.mapTags f g).ephHave = ch.ephHave := rfl
@[simp] theorem ChannelOf.mapTags_eph : (ch.mapTags f g).eph = ch.eph := rfl
@[simp] theorem ChannelOf.mapTags_almPend : (ch.mapTags f g).almPend = ch.almPend := rfl
@[simp] theorem ChannelOf.mapTags_almId : (ch.mapTags f g).almId = ch.almId := rfl
@[simp] theorem ChannelOf.mapTags_almNA : (ch.mapTags f g).almNA = ch.almNA := rfl
@[simp] theorem ChannelOf.mapTags_alm : (ch.mapTags f g).alm = ch.alm := rfl
@[simp] theorem ChannelOf.mapTags_cntSyncLoss : (ch.mapTags f g).cntSyncLoss = ch.cntSyncLoss := rfl
@[simp] theorem ChannelOf.mapTags_cntCksumFail : (ch.mapTags f g).cntCksumFail = ch.cntCksumFail := rfl
@[simp] theorem ChannelOf.mapTags_cntUnknownId : (ch.mapTags f g).cntUnknownId = ch.cntUnknownId := rfl
@[simp] theorem ChannelOf.mapTags_cntRestart : (ch.mapTags f g).cntRestart = ch.cntRestart := rfl

@[simp] theorem LocalOf.mapTags_cfg : (l.mapTags f g).cfg = l.cfg := rfl
@[simp] theorem LocalOf.mapTags_time : (l.mapTags f g).time = l.time := rfl
@[simp] theorem LocalOf.mapTags_ch : (l.mapTags f g).ch = l.ch.mapTags f g := rfl
@[simp] theorem LocalOf.mapTags_out : (l.mapTags f g).out = l.out.map (OutputOf.mapTags f g) := rfl

@[simp] theorem OutputOf.mapTags_err (e : ErrOf Sat) :
    (OutputOf.err e : OutputOf TS Sat).mapTags f g = .err (e.mapTags g) := rfl

/-- A signal raised on replaced tags is the raised signal with replaced tags. -/
theorem LocalOf.raise_mapTags (e : ErrOf Sat) : (l.mapTags f g).raise (e.mapTags g) = (l.raise e).mapTags f g := by
  cases e <;> simp [LocalOf.mapTags, LocalOf.raise, ChannelOf.count, ChannelOf.mapTags, OutputOf.mapTags, ErrOf.mapTags]

/-- An output emitted on replaced tags is the emitted output with replaced tags. -/
theorem LocalOf.emit_mapTags (o : OutputOf TS Sat) :
    (l.mapTags f g).emit (o.mapTags f g) = (l.emit o).mapTags f g := by
  simp [LocalOf.mapTags, LocalOf.emit]

end Sys2Proof.Machine
end

