-- ==== Sys2Proof/Tests/Slice0.lean ====
section
/-! SUPPORT. The model's own tests: ill-formed terms are refused, words written out decode, one step of each
instruction against the spec's vectors, and for every obligation with hypotheses a state and operands that meet them. -/

namespace Sys2Proof.Tests

-- The tests are elaborated one after another: many kernel evaluations at once would each hold memory.
set_option Elab.async false

open Sys2Proof Sys2Proof.Machine

/-! ### Helpers -/

/-- The reference parameters with one channel. -/
abbrev cfg1 : Config := Config.reference 1

/-- The reset state with the given channel as its only one. -/
def one (ch : Channel) : State := { State.reset with chans := [ch] }

/-- A channel after reset with tag 3, the tag of the spec's vectors. -/
def ch3 : Channel := Channel.afterReset 3

/-- The payload of a data word written out in hexadecimal. -/
def pay (dw : Nat) : Payload := payloadOf (BitVec.ofNat 85 dw)

/-- The output list of an instruction, if it answers a next state. -/
def outOf (i : Instr) (s : State) : Option (List Output) :=
  match exec i s with
  | .next t => some t.out
  | .fault _ => none
  | .refused _ => none

/-- A channel of the state an instruction answers. -/
def chanOf (i : Instr) (s : State) (c : Nat) : Option Channel :=
  match exec i s with
  | .next t => t.chans[c]?
  | .fault _ => none
  | .refused _ => none

/-- Does an instruction answer a next state? -/
def runs (i : Instr) (s : State) : Bool :=
  match exec i s with
  | .next _ => true
  | .fault _ => false
  | .refused _ => false

/-- Is an instruction refused as ill-formed? -/
def refusedIll (i : Instr) (s : State) : Bool :=
  match exec i s with
  | .refused r => r == .illFormed
  | .next _ => false
  | .fault _ => false

/-! ### WellFormed: an ill-formed term for each check -/

theorem test_wf_str0 : ¬ (Instr.str0 1 (pay 0) 0 : Instr).WellFormed cfg1 ∧ refusedIll (.str0 1 (pay 0) 0) State.reset = true := by
  decide +kernel

theorem test_wf_str1 : ¬ (Instr.str1 1 (pay 0) 0 : Instr).WellFormed cfg1 ∧ refusedIll (.str1 1 (pay 0) 0) State.reset = true := by
  decide +kernel

theorem test_wf_str2 : ¬ (Instr.str2 1 (pay 0) 0 : Instr).WellFormed cfg1 ∧ refusedIll (.str2 1 (pay 0) 0) State.reset = true := by
  decide +kernel

theorem test_wf_str3 : ¬ (Instr.str3 1 (pay 0) 0 : Instr).WellFormed cfg1 ∧ refusedIll (.str3 1 (pay 0) 0) State.reset = true := by
  decide +kernel

theorem test_wf_str4 : ¬ (Instr.str4 1 (pay 0) 0 : Instr).WellFormed cfg1 ∧ refusedIll (.str4 1 (pay 0) 0) State.reset = true := by
  decide +kernel

theorem test_wf_str5 : ¬ (Instr.str5 1 (pay 0) 0 : Instr).WellFormed cfg1 ∧ refusedIll (.str5 1 (pay 0) 0) State.reset = true := by
  decide +kernel

theorem test_wf_str6 : ¬ (Instr.str6 1 (pay 0) 0 : Instr).WellFormed cfg1 ∧ refusedIll (.str6 1 (pay 0) 0) State.reset = true := by
  decide +kernel

theorem test_wf_str7 : ¬ (Instr.str7 1 (pay 0) 0 : Instr).WellFormed cfg1 ∧ refusedIll (.str7 1 (pay 0) 0) State.reset = true := by
  decide +kernel

theorem test_wf_str8 : ¬ (Instr.str8 1 (pay 0) 0 : Instr).WellFormed cfg1 ∧ refusedIll (.str8 1 (pay 0) 0) State.reset = true := by
  decide +kernel

theorem test_wf_str9 : ¬ (Instr.str9 1 (pay 0) 0 : Instr).WellFormed cfg1 ∧ refusedIll (.str9 1 (pay 0) 0) State.reset = true := by
  decide +kernel

theorem test_wf_str10 : ¬ (Instr.str10 1 (pay 0) 0 : Instr).WellFormed cfg1 ∧ refusedIll (.str10 1 (pay 0) 0) State.reset = true := by
  decide +kernel

theorem test_wf_str11 : ¬ (Instr.str11 1 (pay 0) 0 : Instr).WellFormed cfg1 ∧ refusedIll (.str11 1 (pay 0) 0) State.reset = true := by
  decide +kernel

theorem test_wf_str12 : ¬ (Instr.str12 1 (pay 0) 0 : Instr).WellFormed cfg1 ∧ refusedIll (.str12 1 (pay 0) 0) State.reset = true := by
  decide +kernel

theorem test_wf_str13 : ¬ (Instr.str13 1 (pay 0) 0 : Instr).WellFormed cfg1 ∧ refusedIll (.str13 1 (pay 0) 0) State.reset = true := by
  decide +kernel

theorem test_wf_str14 : ¬ (Instr.str14 1 (pay 0) 0 : Instr).WellFormed cfg1 ∧ refusedIll (.str14 1 (pay 0) 0) State.reset = true := by
  decide +kernel

theorem test_wf_str15 : ¬ (Instr.str15 1 (pay 0) 0 : Instr).WellFormed cfg1 ∧ refusedIll (.str15 1 (pay 0) 0) State.reset = true := by
  decide +kernel

theorem test_wf_push : ¬ (Instr.push 1 true 0 : Instr).WellFormed cfg1 ∧ refusedIll (.push 1 true 0) State.reset = true := by
  decide +kernel

theorem test_wf_chReset : ¬ (Instr.chReset 1 9 : Instr).WellFormed cfg1 ∧ refusedIll (.chReset 1 9) State.reset = true := by
  decide +kernel

theorem test_wf_reset : ¬ (Instr.reset [1, 2] : Instr).WellFormed cfg1 ∧ refusedIll (.reset [1, 2]) State.reset = true := by
  decide +kernel

/-! The parameter conditions of R204, one by one. -/

/-- The sizes of R6 that the tables and the decoder have. -/
theorem test_sizes : ftRef.classes.length = nClass ∧ htRef.length = nChk ∧
    ((List.range 16).filter fun id => (classOf id).isSome).length = nId := by decide +kernel

theorem test_config_reference : cfg1.WF := by decide +kernel

/-- The reference parameters with another number of channels and another threshold. -/
def cfgWith (n t : Nat) : Config := { cfg1 with nCh := n, tSync := t }

theorem test_config_channels : ¬ (cfgWith 0 28).WF ∧ (cfgWith 5 28).WF :=
  ⟨by decide +kernel, by decide +kernel⟩

theorem test_config_tSync : ¬ (cfgWith 1 15).WF ∧ ¬ (cfgWith 1 31).WF ∧ (cfgWith 1 16).WF ∧ (cfgWith 1 30).WF :=
  ⟨by decide +kernel, by decide +kernel, by decide +kernel, by decide +kernel⟩

theorem test_config_rows : ¬ HammingWF (htRef.drop 1) := by decide +kernel

theorem test_config_ownCheck : ¬ HammingWF (htRef.set 0 ⟨85, [2, 85]⟩) := by decide +kernel

theorem test_config_sameCheck : ¬ HammingWF (htRef.set 0 ⟨84, [2]⟩) := by decide +kernel

theorem test_config_range : ¬ HammingWF (htRef.set 0 ⟨86, [2]⟩) ∧ ¬ HammingWF (htRef.set 0 ⟨85, [0]⟩) := by
  decide +kernel

theorem test_config_repeat : ¬ HammingWF (htRef.set 0 ⟨85, [2, 2]⟩) := by decide +kernel

theorem test_class_range : ¬ ClassWF [stringIdSpec, ⟨.n4, 80, 7, .u, 1⟩] ∧ ¬ ClassWF [stringIdSpec, ⟨.n4, 80, 0, .u, 1⟩] ∧
    ClassWF [stringIdSpec, ⟨.n4, 80, 6, .u, 1⟩] := by decide +kernel

theorem test_class_overlap : ¬ ClassWF [stringIdSpec, ⟨.n4, 5, 5, .u, 1⟩] ∧ ClassWF [stringIdSpec, ⟨.n4, 6, 5, .u, 1⟩] := by
  decide +kernel

theorem test_class_names : ¬ ClassWF [stringIdSpec, ⟨.n4, 6, 5, .u, 1⟩, ⟨.n4, 11, 5, .u, 1⟩] := by decide +kernel

theorem test_class_id : ¬ ClassWF [⟨.n4, 6, 5, .u, 1⟩] := by decide +kernel

/-- The reference table with other classes C2, C5, EVEN and ODD. -/
def tableWith (c2 c5 even odd : List FieldSpec) : FieldTable := { ftRef with c2 := c2, c5 := c5, even := even, odd := odd }

theorem test_names_missing : ¬ (tableWith [stringIdSpec] ftRefC5 ftRefEven ftRefOdd).NamesWF ∧
    ¬ (tableWith ftRefC2 [stringIdSpec] ftRefEven ftRefOdd).NamesWF ∧
    ¬ (tableWith ftRefC2 ftRefC5 [stringIdSpec] ftRefOdd).NamesWF ∧
    ¬ (tableWith ftRefC2 ftRefC5 ftRefEven [stringIdSpec]).NamesWF ∧
    (tableWith ftRefC2 ftRefC5 ftRefEven ftRefOdd).NamesWF :=
  ⟨by decide +kernel, by decide +kernel, by decide +kernel, by decide +kernel, by decide +kernel⟩

theorem test_names_meet : ¬ (tableWith (ftRefC2 ++ [⟨.xn, 78, 1, .u, 1⟩]) ftRefC5 ftRefEven ftRefOdd).NamesWF ∧
    ¬ (tableWith ftRefC2 ftRefC5 ftRefEven (ftRefOdd ++ [⟨.cn, 78, 1, .u, 1⟩])).NamesWF :=
  ⟨by decide +kernel, by decide +kernel⟩

/-! ### Decoding and encoding: words written out from R49, R58 and R77, with the check bits of vector V25 -/

theorem test_decode_str0 : decodeTableWord 88 0x0000000000000000000000 = some (.str0 0 ⟨false, 0x00#80⟩ 0) := by decide +kernel

theorem test_decode_str1 : decodeTableWord 88 0x01000000000000000000D0 = some (.str1 0 ⟨false, 0xD0#80⟩ 0) := by decide +kernel

theorem test_decode_str2 : decodeTableWord 88 0x0200000000000000000051 = some (.str2 0 ⟨false, 0x51#80⟩ 0) := by decide +kernel

theorem test_decode_str3 : decodeTableWord 88 0x0300000000000000000081 = some (.str3 0 ⟨false, 0x81#80⟩ 0) := by decide +kernel

theorem test_decode_str4 : decodeTableWord 88 0x0400000000000000000052 = some (.str4 0 ⟨false, 0x52#80⟩ 0) := by decide +kernel

theorem test_decode_str5 : decodeTableWord 88 0x0500000000000000000082 = some (.str5 0 ⟨false, 0x82#80⟩ 0) := by decide +kernel

theorem test_decode_str6 : decodeTableWord 88 0x0600000000000000000003 = some (.str6 0 ⟨false, 0x03#80⟩ 0) := by decide +kernel

theorem test_decode_str7 : decodeTableWord 88 0x07000000000000000000D3 = some (.str7 0 ⟨false, 0xD3#80⟩ 0) := by decide +kernel

theorem test_decode_str8 : decodeTableWord 88 0x08000000000000000000D3 = some (.str8 0 ⟨false, 0xD3#80⟩ 0) := by decide +kernel

theorem test_decode_str9 : decodeTableWord 88 0x0900000000000000000003 = some (.str9 0 ⟨false, 0x03#80⟩ 0) := by decide +kernel

theorem test_decode_str10 : decodeTableWord 88 0x0A00000000000000000082 = some (.str10 0 ⟨false, 0x82#80⟩ 0) := by decide +kernel

theorem test_decode_str11 : decodeTableWord 88 0x0B00000000000000000052 = some (.str11 0 ⟨false, 0x52#80⟩ 0) := by decide +kernel

theorem test_decode_str12 : decodeTableWord 88 0x0C00000000000000000081 = some (.str12 0 ⟨false, 0x81#80⟩ 0) := by decide +kernel

theorem test_decode_str13 : decodeTableWord 88 0x0D00000000000000000051 = some (.str13 0 ⟨false, 0x51#80⟩ 0) := by decide +kernel

theorem test_decode_str14 : decodeTableWord 88 0x0E000000000000000000D0 = some (.str14 0 ⟨false, 0xD0#80⟩ 0) := by decide +kernel

theorem test_decode_str15 : decodeTableWord 88 0x0F00000000000000000000 = some (.str15 0 ⟨false, 0x00#80⟩ 0) := by decide +kernel

/-- Vector V30: the 115 bits of one string as they are received. -/
theorem test_decode_bits : (decode 4 9 (("111110001101110101000010010110" ++
    "0010100001100100000000000000000000000000000000000001110000000000000000000000011011000").toList.map (· == '1'))).toOption =
    some (.str5 4 ⟨false, 0x0C8000000003800000D8#80⟩ 9 : Instr) := by decide +kernel

theorem test_decode_length :
    (decode 0 0 (List.replicate 114 false) : Except DecodeError Instr) = .error (.wrongLength 114) := by decide +kernel

/-- R88: an interface operation has no word; a word of more than 115 bits does not exist. -/
theorem test_decode_none : decodeTableWord 0 0 = none ∧ decodeTableWord 128 (2 ^ 115) = none := by decide +kernel

/-- Vector V20: the 115 bits of one string in hexadecimal. -/
theorem test_encode : encode tmRef (.str5 0 ⟨false, 0x0C8000000003800000D8#80⟩ 0 : Instr) =
    some 0x7C6EA12C50C8000000003800000D8#115 := by decide +kernel

theorem test_encode_none : encode tmRef (.push 0 true 0 : Instr) = none := by decide +kernel

/-! ### The blocks, against the vectors -/

/-- The data word of vector V20. -/
abbrev v20 : DataWord := 0x050C8000000003800000D8#85

/-- `D[p]` complemented. -/
def flip (d : DataWord) (p : Nat) : DataWord := setDataBit d p (!dataBit d p)

/-- A syndrome as a number, row 1 first. -/
def synNum (d : DataWord) : Nat := (syndrome htRef d).foldl (fun a b => 2 * a + b.toNat) 0

/-- Vectors V20, V21, V23 and V24. -/
theorem test_syndromes : synNum v20 = 0 ∧ synNum (flip v20 1) = 0b00101011 ∧ synNum (flip v20 2) = 0b11001011 ∧
    synNum (flip v20 6) = 0b11110011 ∧ synNum (flip v20 13) = 0b00010011 ∧ synNum (flip v20 40) = 0b00110101 ∧
    synNum (flip v20 77) = 0b11000001 ∧ synNum (flip v20 78) = 0b00000001 ∧ synNum (flip v20 85) = 0b10000001 ∧
    synNum (~~~v20) = 0b00101011 ∧ synNum ([78, 79, 80, 81, 82, 83, 84, 85].foldl flip v20) = 0b11111110 := by
  decide +kernel

/-- Vector V22: four positions that escape; the word then has another id. -/
theorem test_escape : hammingAccept htRef ([1, 2, 6, 13].foldl flip v20) = true ∧
    stringId ([1, 2, 6, 13].foldl flip v20) = 13 := by decide +kernel

/-- Vectors V32 and V34. -/
theorem test_signedness : ival .sm 5 0b00111 = 7 ∧ ival .sm 5 0b10011 = -3 ∧ ival .sm 5 0b10000 = 0 ∧
    ival .sm 5 0b11111 = -15 ∧ ival .u 5 0b10011 = 19 ∧ ival .tc 5 0b10011 = -13 ∧ ival .tc 5 0b10000 = -16 := by
  decide +kernel

/-- Vector V35, classes C3 and EVEN. -/
theorem test_extract : FieldMap.get? (extract ftRef .c3 0x03FFF7FFFFFF00000001A6#85) .gammaN = some (-1023 / 1099511627776) ∧
    FieldMap.get? (extract ftRef .c3 0x03FFF7FFFFFF00000001A6#85) .zn = some (1 / 2048) ∧
    FieldMap.get? (extract ftRef .even 0x06A5FFFFFFFE80007FFF6E#85) .deltaINA = some (1 / 16) := by decide +kernel

/-- Vectors V50 and V51. -/
theorem test_resolve : resolve epoch0Ref ⟨true, 7, 100, -3 / 2147483648, 1 / 1024⟩ 9000 .utc =
      .at (1644854362767359997 / 2147483648) ∧
    resolve epoch0Ref ⟨true, 0, 0, 0, 0⟩ 0 .glonass = .at (-126316800) ∧
    resolve epoch0Ref ⟨true, 31, 2047, 0, 0⟩ 0 .glonass = .at 3963686400 := by decide +kernel

/-! ### One step of each instruction -/

/-- A channel with a set in progress that holds the given strings. -/
def inSet (e : BitVec 4) : Channel := { ch3 with ephHave := e, eph := [(.tb, 9000)] }

/-- A channel with an even string 6 waiting, `n_A = 5`. -/
def waiting : Channel := { ch3 with almPend := true, almId := 6, almNA := 5, alm := [(.nA, 5)] }

/-- Vector V42 (a). -/
theorem test_str0_in_set : outOf (.str0 0 (pay 0) 230) (one (inSet 0b1100#4)) =
    some [.err (.unknownStringId 3 0), .err (.incompleteFrame 3 .eph)] := by decide +kernel

/-- Vector V41: a string 1 inside a set. -/
theorem test_str1_in_set : outOf (.str1 0 (pay 0x01000000000000000000D0) 230) (one (inSet 0b1100#4)) =
    some [.err (.incompleteFrame 3 .eph)] := by decide +kernel

theorem test_str1_starts : (chanOf (.str1 0 (pay 0x0116459000009938800015) 0) (one ch3) 0).map (fun ch =>
    (ch.ephHave, FieldMap.get? ch.eph .xn, FieldMap.get? ch.eph .stringId)) = some (0b1000#4, some 10000, none) := by
  decide +kernel

/-- Vector V40. -/
theorem test_str2_joins : (chanOf (.str2 0 (pay 0x0291402000007FFFFFFF5E) 0) (one (inSet 0b1000#4)) 0).map (fun ch =>
    (ch.ephHave, FieldMap.get? ch.eph .yn)) = some (0b1100#4, some (-67108863 / 2048)) := by decide +kernel

/-- Vector V49: a second string 2. -/
theorem test_str2_again : outOf (.str2 0 (pay 0x0200000000000000000051) 0) (one (inSet 0b1100#4)) =
    some [.err (.incompleteFrame 3 .eph)] := by decide +kernel

theorem test_str3_joins : (chanOf (.str3 0 (pay 0x03FFF7FFFFFF00000001A6) 0) (one (inSet 0b1100#4)) 0).map (fun ch =>
    (ch.ephHave, FieldMap.get? ch.eph .zn)) = some (0b1110#4, some (1 / 2048)) := by decide +kernel

/-- Vector V46. -/
theorem test_str3_alone : outOf (.str3 0 (pay 0x0300000000000000000081) 0) (one ch3) = some [] ∧
    chanOf (.str3 0 (pay 0x0300000000000000000081) 0) (one ch3) 0 = some ch3 := by decide +kernel

/-- Vector V49b: the stamp of `t_b = 9000` with `N_4 = 7`, `N_T = 100`. -/
theorem test_str4_commits : (outOf (.str4 0 (pay 0x0400000000000000000052) 690)
    { one (inSet 0b1110#4) with time := ⟨true, 7, 100, 0, 0⟩ }).map (fun l => l.map fun
      | .ephemerisReady sat f stamp rx => (sat, FieldMap.get? f .tb, stamp, rx)
      | _ => (0, none, .unresolved, 0)) = some [(3, some 9000, .at 765945000, 690)] := by decide +kernel

/-- Vector V49 (a string 4 after a string 1). -/
theorem test_str4_early : (chanOf (.str4 0 (pay 0x0400000000000000000052) 0) (one (inSet 0b1000#4)) 0).map (fun ch =>
    (ch.ephHave, ch.cntRestart)) = some (0b0000#4, 1) := by decide +kernel

/-- Vector V35, class C5. -/
theorem test_str5_time : outOf (.str5 0 (pay 0x050C9000000063A0000006) 0) (one ch3) =
    some [.timeUpdate 3 7 100 (-3 / 2147483648) (1 / 1024)] := by decide +kernel

/-- Vector V21: a wrong check bit alone rejects. -/
theorem test_str5_reject : outOf (.str5 0 (pay 0x050C8000000003800000D9) 0) (one ch3) =
    some [.err (.checksumFailure 3)] := by decide +kernel

theorem test_str6_waits : (chanOf (.str6 0 (pay 0x06A5FFFFFFFE80007FFF6E) 0) (one ch3) 0).map (fun ch =>
    (ch.almPend, ch.almId, ch.almNA)) = some (true, 6, 5) := by decide +kernel

/-- Vector V47. -/
theorem test_str8_two_signals : outOf (.str8 0 (pay 0x08000000000000000000D3) 0)
    (one { waiting with ephHave := 0b1000#4 }) =
    some [.err (.incompleteFrame 3 .eph), .err (.incompleteFrame 3 .alm)] := by decide +kernel

/-- Vector V35, class ODD: the halves meet. -/
theorem test_str7_pairs : (outOf (.str7 0 (pay 0x07C000FFFFFC0000252358) 460)
    { one waiting with time := ⟨true, 7, 100, 0, 0⟩ }).map (fun l => l.map fun
      | .almanacReady _ _ f stamp rx => (FieldMap.get? f .hnA, stamp, rx)
      | _ => (none, .unresolved, 0)) = some [(some 17, .at 765936000, 460)] := by decide +kernel

/-- Vector V44: the halves do not meet. -/
theorem test_str7_mismatch : outOf (.str7 0 (pay 0x07000000000000001F005C) 460) (one waiting) =
    some [.err (.incompleteFrame 3 .alm)] := by decide +kernel

theorem test_str8_supersedes : (chanOf (.str8 0 (pay 0x08000000000000000000D3) 0) (one waiting) 0).map (fun ch =>
    (ch.almPend, ch.almId, ch.almNA, ch.cntRestart)) = some (true, 8, 0, 1) := by decide +kernel

theorem test_str10_supersedes : (chanOf (.str10 0 (pay 0x0A00000000000000000082) 0) (one waiting) 0).map (fun ch =>
    (ch.almPend, ch.almId, ch.almNA, ch.cntRestart)) = some (true, 10, 0, 1) := by decide +kernel

theorem test_str12_supersedes : (chanOf (.str12 0 (pay 0x0C00000000000000000081) 0) (one waiting) 0).map (fun ch =>
    (ch.almPend, ch.almId, ch.almNA, ch.cntRestart)) = some (true, 12, 0, 1) := by decide +kernel

theorem test_str14_supersedes : (chanOf (.str14 0 (pay 0x0E000000000000000000D0) 0) (one waiting) 0).map (fun ch =>
    (ch.almPend, ch.almId, ch.almNA, ch.cntRestart)) = some (true, 14, 0, 1) := by decide +kernel

theorem test_str9_mismatch : (chanOf (.str9 0 (pay 0x0900000000000000000003) 0) (one waiting) 0).map (fun ch =>
    (ch.almPend, ch.alm, ch.cntRestart)) = some (false, [], 1) := by decide +kernel

theorem test_str9_pairs : (outOf (.str9 0 (pay 0x0900000000000000000003) 115) (one { waiting with almNA := 0 })).map (·.length) =
    some 1 := by decide +kernel

theorem test_str11_mismatch : (chanOf (.str11 0 (pay 0x0B00000000000000000052) 0) (one waiting) 0).map (fun ch =>
    (ch.almPend, ch.alm, ch.cntRestart)) = some (false, [], 1) := by decide +kernel

theorem test_str11_pairs : (outOf (.str11 0 (pay 0x0B00000000000000000052) 115) (one { waiting with almNA := 0 })).map (·.length) =
    some 1 := by decide +kernel

theorem test_str13_mismatch : (chanOf (.str13 0 (pay 0x0D00000000000000000051) 0) (one waiting) 0).map (fun ch =>
    (ch.almPend, ch.alm, ch.cntRestart)) = some (false, [], 1) := by decide +kernel

theorem test_str13_pairs : (outOf (.str13 0 (pay 0x0D00000000000000000051) 115) (one { waiting with almNA := 0 })).map (·.length) =
    some 1 := by decide +kernel

theorem test_str15_mismatch : (chanOf (.str15 0 (pay 0x0F00000000000000000000) 0) (one waiting) 0).map (fun ch =>
    (ch.almPend, ch.alm, ch.cntRestart)) = some (false, [], 1) := by decide +kernel

theorem test_str15_pairs : (outOf (.str15 0 (pay 0x0F00000000000000000000) 115) (one { waiting with almNA := 0 })).map (·.length) =
    some 1 := by decide +kernel

theorem test_reset : chanOf (.reset [9]) (one { waiting with cntRestart := 4 }) 0 = some (Channel.afterReset 9) := by
  decide +kernel

theorem test_chReset : outOf (.chReset 0 11) (one waiting) = some [] ∧
    chanOf (.chReset 0 11) (one waiting) 0 = some (Channel.afterReset 11) := by decide +kernel

/-- The complement of the time mark but for its newest bit, in the window of a searching channel. -/
def searching : Channel := { ch3 with win := (~~~tmRef) >>> 1, winN := 29 }

/-- R94, R95: the last bit of a complemented time mark acquires with polarity 1. -/
theorem test_push_acquires : (chanOf (.push 0 true 29) (one searching) 0).map (fun ch =>
    (ch.sync, ch.pol, ch.bitcnt, rawMark ch.buf)) = some (.synced, true, 30, tmRef) := by decide +kernel

/-- A synchronised channel before the last bit of the string of vector V20. -/
def lastBit : Channel := { ch3 with sync := .synced, winN := 30, bitcnt := 114, buf := rawOf tmRef v20 }

/-- Vector V30: the last bit runs the string. -/
theorem test_push_last : outOf (.push 0 false 114) (one lastBit) = some [.timeUpdate 3 7 100 0 0] := by decide +kernel

theorem test_query_unresolved : outOf (.query 0 .gps) (one ch3) = some [.err .timeUnresolved] := by decide +kernel

/-- Vector V50. -/
theorem test_query : outOf (.query 9000 .gps) { one ch3 with time := ⟨true, 7, 100, -3 / 2147483648, 1 / 1024⟩ } =
    some [.resolved (784327680001 / 1024)] := by decide +kernel

/-- A word placed for the next fetch is run by the next step, from reset. -/
theorem test_withFetchWord : (match step (State.reset.withFetchWord 88 0x050C8000000003800000D8) with
    | .next t => some (t.out, t.time.n4)
    | .fault _ => none
    | .refused _ => none) = some ([.timeUpdate 0 7 100 0 0], 7) := by decide +kernel

/-! ### The hypotheses of the obligations can be met -/

theorem witness_ResetGivesEveryElementItsResetValue : (one ch3).cfg.WF ∧ [9].length = (one ch3).cfg.nCh ∧ [9][0]? = some 9 := by decide +kernel

theorem witness_ChannelResetTouchesOneChannelOnly : (one ch3).started = true ∧ 0 < (one ch3).chans.length := by decide +kernel

theorem witness_QueryBeforeStringFiveIsUnresolved : (one ch3).started = true ∧ (one ch3).time.valid = false := by decide +kernel

/-- A state with a valid TimeState. -/
def timed : State := { one ch3 with time := ⟨true, 7, 100, 0, 0⟩ }

theorem witness_QueryResolvesTheEpoch : timed.started = true ∧ timed.time.valid = true := by decide +kernel

/-- R168: an `EPOCH0` of an instance's own, by its values. -/
theorem test_epoch0_table : (Epoch0.table [(1, 0), (2, 126230400)] (-1)).eval 2 = 126230400 ∧
    (Epoch0.table [(1, 0), (2, 126230400)] (-1)).eval 3 = -1 := by decide +kernel

/-- The core before its first RESET. -/
def unstarted : State := { State.reset with started := false, chans := [] }

theorem witness_OnlyResetRunsBeforeTheFirstReset : unstarted.started = false ∧
    ∀ sats, (Instr.push 0 true 0 : Instr) ≠ .reset sats := ⟨rfl, fun _ h => by cases h⟩

/-- The core before its first RESET, with a threshold below the range. -/
def badStart : State := { unstarted with cfg := cfgWith 1 15 }

theorem witness_BadParametersAreRefused : ¬ badStart.cfg.WF ∧ badStart.Inv :=
  ⟨by decide +kernel, fun h => by cases h⟩

theorem witness_ExactlyTheWellFormedRun : State.reset.started = true ∧ State.reset.Inv ∧ (Instr.push 0 true 0 : Instr).WellFormed State.reset.cfg ∧
    ¬ (Instr.push 1 true 0 : Instr).WellFormed State.reset.cfg := 
  ⟨rfl, fun _ => ⟨test_config_reference, rfl, by decide +kernel⟩, by decide +kernel, by decide +kernel⟩

theorem witness_PushShiftsTheWindow : (one ch3).started = true ∧ (one ch3).chans[0]? = some ch3 := by decide +kernel

/-- The time mark but for its newest bit, in the window of a searching channel. -/
def plain : Channel := { ch3 with win := tmRef >>> 1, winN := 29 }

/-- Both polarities: the mark, and its complement, complete but for the newest bit. -/
theorem witness_AgreementAcquires : (one plain).started = true ∧ (one plain).chans[0]? = some plain ∧ plain.sync ≠ .synced ∧ 29 ≤ plain.winN ∧
    cfg1.tSync ≤ agree (shiftBits plain.win false) cfg1.tm ∧ searching.sync ≠ .synced ∧ 29 ≤ searching.winN ∧
    ¬ cfg1.tSync ≤ agree (shiftBits searching.win true) cfg1.tm ∧
    cfg1.tSync ≤ 30 - agree (shiftBits searching.win true) cfg1.tm := by decide +kernel

/-- A window two bits short of full. -/
def short : Channel := { ch3 with winN := 28 }

/-- A full window of zeros in a channel that has lost its sync. -/
def full : Channel := { ch3 with winN := 30, sync := .lost }

/-- A window one bit short of full, and a full one that agrees neither way. -/
theorem witness_NoAgreementKeepsSearching : (one short).started = true ∧ (one short).chans[0]? = some short ∧ short.sync ≠ .synced ∧ short.winN < 29 ∧
    (one full).started = true ∧ (one full).chans[0]? = some full ∧ full.sync ≠ .synced ∧
    ¬ cfg1.tSync ≤ agree (shiftBits full.win true) cfg1.tm ∧
    ¬ cfg1.tSync ≤ 30 - agree (shiftBits full.win true) cfg1.tm := by decide +kernel

theorem witness_ThePolaritiesAreExclusive : 16 ≤ cfg1.tSync := by decide +kernel

/-- A synchronised channel at a given place of its block. -/
def synced (n m : Nat) (mark : TimeMark) : Channel :=
  { ch3 with sync := .synced, winN := 30, bitcnt := n, miss := m, buf := rawOf mark 0#85 }

/-- The first position, the one before the check, and the last one before the end. -/
theorem witness_SyncedBitIsStored : ∀ n ∈ [0, 28, 30, 113], (one (synced n 0 tmRef)).started = true ∧
    (one (synced n 0 tmRef)).chans[0]? = some (synced n 0 tmRef) ∧ (synced n 0 tmRef).sync = .synced ∧
    (synced n 0 tmRef).bitcnt ≤ 113 ∧ (synced n 0 tmRef).bitcnt ≠ 29 := by decide +kernel

/-- A hit, and a first miss. -/
theorem witness_TimeMarkCheckToleratesOneMiss : (one (synced 29 1 tmRef)).started = true ∧
    (one (synced 29 1 tmRef)).chans[0]? = some (synced 29 1 tmRef) ∧ (synced 29 1 tmRef).sync = .synced ∧
    (synced 29 1 tmRef).bitcnt = 29 ∧ cfg1.tSync ≤ agree (rawMark (memWrite (synced 29 1 tmRef).buf 30 false)) cfg1.tm ∧
    (one (synced 29 0 0#30)).chans[0]? = some (synced 29 0 0#30) ∧ (synced 29 0 0#30).miss = 0 ∧
    ¬ cfg1.tSync ≤ agree (rawMark (memWrite (synced 29 0 0#30).buf 30 false)) cfg1.tm := by decide +kernel

theorem witness_SecondMissLosesSync : (one (synced 29 1 0#30)).started = true ∧
    (one (synced 29 1 0#30)).chans[0]? = some (synced 29 1 0#30) ∧ (synced 29 1 0#30).sync = .synced ∧
    (synced 29 1 0#30).bitcnt = 29 ∧ (synced 29 1 0#30).miss ≠ 0 ∧
    ¬ cfg1.tSync ≤ agree (rawMark (memWrite (synced 29 1 0#30).buf 30 (false ^^ (synced 29 1 0#30).pol))) cfg1.tm := by
  decide +kernel

theorem witness_LastBitRunsTheDecodedString : (one lastBit).started = true ∧ (one lastBit).chans[0]? = some lastBit ∧
    lastBit.sync = .synced ∧ lastBit.bitcnt = 114 := by decide +kernel

/-- An acquisition, a search that goes on, a loss of sync, and a bit that is kept. -/
theorem witness_SyncTransitionsAreTheTable : ∀ ch ∈ [searching, ch3, synced 29 1 0#30, synced 30 0 tmRef],
    (one ch).chans[0]? = some ch ∧ ch.miss ≤ 1 ∧ runs (.push 0 true 0) (one ch) = true := by decide +kernel

theorem witness_ComplementaryPushesStayMirrored : 16 ≤ (one ch3).cfg.tSync ∧ (one ch3).MirroredOn 0 (one ch3) ∧
    runs (.push 0 true 0) (one ch3) = true := by
  refine ⟨by decide +kernel, ⟨rfl, rfl, rfl, rfl, rfl, rfl, fun _ _ => rfl, ?_⟩, by decide +kernel⟩
  intro a b ha hb
  have e : (one ch3).chans[0]? = some ch3 := rfl
  rw [e] at ha hb
  cases ha; cases hb
  exact ⟨rfl, rfl, rfl, fun i _ h => absurd h (Nat.not_lt_zero i), rfl, fun h => (by cases h), rfl, rfl, rfl, rfl, rfl, rfl,
    rfl, rfl, rfl, rfl, rfl, rfl, rfl, rfl⟩

/-- A channel as after reset, with other contents where nothing holds a value. -/
def ch3' : Channel := { ch3 with win := 7#30, buf := 9#115, almNA := 5 }

theorem witness_PolarityInvariance : 16 ≤ (one ch3').cfg.tSync ∧
    (∃ ch, (one ch3').chans[0]? = some ch ∧ ch.AtReset 3) ∧
    (runOps (pushAll 0 0 [true, false, true]) (one ch3')).isSome = true :=
  ⟨by decide +kernel, ⟨ch3', rfl, by simp [ChannelOf.AtReset, ch3', ch3, ChannelOf.afterReset]⟩, by decide +kernel⟩

/-- Two words that differ in a position no row names. -/
theorem witness_VerdictIsTheEightParities : ∀ r ∈ ([⟨85, [2, 4]⟩] : List HammingRow), ∀ p ∈ r.chk :: r.sub, dataBit (0#85) p = dataBit (flip 0#85 3) p := by decide +kernel

theorem witness_RejectedStringIsDroppedWhole : (one (inSet 0b1100#4)).started = true ∧
    (one (inSet 0b1100#4)).chans[0]? = some (inSet 0b1100#4) ∧ (one ch3).chans[0]? = some ch3 ∧
    (∀ f ∈ stringForms 0 (pay 1) 0, hammingAccept cfg1.ht f.2 = false) ∧ (stringForms 0 (pay 1) 0).length = 16 ∧
    (inSet 0b1100#4).ephHave ≠ 0b0000#4 ∧ ch3.ephHave = 0b0000#4 := by decide +kernel

theorem witness_ReferenceTableDetectsThreeErrors : ∀ ps ∈ [[1], [85], [1, 85], [1, 2, 85]],
    hammingAccept htRef v20 = true ∧ ps.Nodup ∧ (∀ p ∈ ps, 1 ≤ p ∧ p ≤ 85) ∧ ps ≠ [] ∧ ps.length ≤ 3 := by decide +kernel

theorem witness_ReferenceTableKnownPatterns : hammingAccept htRef v20 = true := by decide +kernel

theorem witness_FillGivesAnAcceptedWord : HammingWF htRef ∧ Fillable htRef := by decide +kernel

theorem witness_ExtractionHasOneEntryPerField : ClassWF (ftRef.specs .c1) ∧ ClassWF (ftRef.specs .odd) := by
  decide +kernel

/-- Two words that differ in the uncovered position 1 of vector V33. -/
theorem witness_UncoveredPositionsAreIgnored : ∀ f ∈ ftRef.specs .c5, ∀ p < 86, f.start ≤ p → p < f.start + f.len →
    dataBit v20 p = dataBit (flip v20 1) p := by decide +kernel

/-- The extremes of vector V31, for a field of each signedness the table has. -/
theorem witness_FieldsRoundTrip : ∀ v ∈ [(67108863 : Int), -67108863], classOf 1 = some .c1 ∧ ClassWF (ftRef.specs .c1) ∧
    (⟨.xn, 51, 27, .sm, twoNeg 11⟩ : FieldSpec) ∈ ftRef.specs .c1 ∧ FieldName.xn ≠ .stringId ∧
    (∀ g ∈ ftRef.specs .c1, ∀ w, List.lookup g.name [(FieldName.xn, v)] = some w → fieldAdmits g.sign g.len w) ∧
    (∀ r ∈ htRef, r.chk < 51 ∨ 51 + 27 ≤ r.chk) := by
  intro v hv
  refine ⟨rfl, by decide +kernel, by decide +kernel, by decide, ?_, by decide +kernel⟩
  intro g hg w hw
  simp only [ftRef, FieldTable.specs, ftRefC1, List.mem_cons, List.not_mem_nil, or_false] at hg hv
  obtain rfl | rfl | rfl | rfl | rfl | rfl | rfl | rfl := hg <;> cases hw
  obtain rfl | rfl := hv <;> decide

theorem witness_StringZeroIsDropped : State.reset.started = true ∧
    (one (inSet 0b0000#4)).chans[0]? = some (inSet 0b0000#4) ∧ (inSet 0b0000#4).ephHave = 0b0000#4 ∧
    (one (inSet 0b1100#4)).chans[0]? = some (inSet 0b1100#4) ∧ (inSet 0b1100#4).ephHave = 0b1100#4 ∧
    hammingAccept cfg1.ht ((pay 0x0000000000000000000000).dataWord 0#4) = true := by decide +kernel

theorem witness_StringOneStartsASet : State.reset.started = true ∧
    (one (inSet 0b0000#4)).chans[0]? = some (inSet 0b0000#4) ∧ (inSet 0b0000#4).ephHave = 0b0000#4 ∧
    (one (inSet 0b1100#4)).chans[0]? = some (inSet 0b1100#4) ∧ (inSet 0b1100#4).ephHave = 0b1100#4 ∧
    hammingAccept cfg1.ht ((pay 0x01000000000000000000D0).dataWord 1#4) = true := by decide +kernel

theorem witness_StringTwoSucceedsStringOne : State.reset.started = true ∧
    (one (inSet 0b0000#4)).chans[0]? = some (inSet 0b0000#4) ∧ (inSet 0b0000#4).ephHave = 0b0000#4 ∧
    (one (inSet 0b1000#4)).chans[0]? = some (inSet 0b1000#4) ∧ (inSet 0b1000#4).ephHave = 0b1000#4 ∧
    (one (inSet 0b1100#4)).chans[0]? = some (inSet 0b1100#4) ∧ (inSet 0b1100#4).ephHave = 0b1100#4 ∧
    (one (inSet 0b1110#4)).chans[0]? = some (inSet 0b1110#4) ∧ (inSet 0b1110#4).ephHave = 0b1110#4 ∧
    hammingAccept cfg1.ht ((pay 0x0200000000000000000051).dataWord 2#4) = true := by decide +kernel

theorem witness_StringThreeSucceedsStringTwo : State.reset.started = true ∧
    (one (inSet 0b0000#4)).chans[0]? = some (inSet 0b0000#4) ∧ (inSet 0b0000#4).ephHave = 0b0000#4 ∧
    (one (inSet 0b1000#4)).chans[0]? = some (inSet 0b1000#4) ∧ (inSet 0b1000#4).ephHave = 0b1000#4 ∧
    (one (inSet 0b1100#4)).chans[0]? = some (inSet 0b1100#4) ∧ (inSet 0b1100#4).ephHave = 0b1100#4 ∧
    (one (inSet 0b1110#4)).chans[0]? = some (inSet 0b1110#4) ∧ (inSet 0b1110#4).ephHave = 0b1110#4 ∧
    hammingAccept cfg1.ht ((pay 0x0300000000000000000081).dataWord 3#4) = true := by decide +kernel

theorem witness_StringFourCommitsTheSet : State.reset.started = true ∧
    (one (inSet 0b0000#4)).chans[0]? = some (inSet 0b0000#4) ∧ (inSet 0b0000#4).ephHave = 0b0000#4 ∧
    (one (inSet 0b1000#4)).chans[0]? = some (inSet 0b1000#4) ∧ (inSet 0b1000#4).ephHave = 0b1000#4 ∧
    (one (inSet 0b1100#4)).chans[0]? = some (inSet 0b1100#4) ∧ (inSet 0b1100#4).ephHave = 0b1100#4 ∧
    (one (inSet 0b1110#4)).chans[0]? = some (inSet 0b1110#4) ∧ (inSet 0b1110#4).ephHave = 0b1110#4 ∧
    hammingAccept cfg1.ht ((pay 0x0400000000000000000052).dataWord 4#4) = true := by decide +kernel

theorem witness_StringFiveReplacesTimeState : State.reset.started = true ∧
    (one (inSet 0b0000#4)).chans[0]? = some (inSet 0b0000#4) ∧ (inSet 0b0000#4).ephHave = 0b0000#4 ∧
    (one (inSet 0b1110#4)).chans[0]? = some (inSet 0b1110#4) ∧ (inSet 0b1110#4).ephHave = 0b1110#4 ∧
    hammingAccept cfg1.ht ((pay 0x0500000000000000000082).dataWord 5#4) = true := by decide +kernel

/-- Every even string, with and without a half that waits and a set in progress. -/
theorem witness_EvenStringWaitsForItsOddHalf : (one waiting).started = true ∧ (one waiting).chans[0]? = some waiting ∧
    (one (inSet 0b1100#4)).chans[0]? = some (inSet 0b1100#4) ∧
    ∀ x ∈ [(0, 0x06A5FFFFFFFE80007FFF6E), (1, 0x08000000000000000000D3), (2, 0x0A00000000000000000082),
      (3, 0x0C00000000000000000081), (4, 0x0E000000000000000000D0)],
      ((evenForms 0 (pay x.2) 0)[x.1]?.map fun f => hammingAccept cfg1.ht f.2.1) = some true := by decide +kernel

/-- Every odd string: nothing waits, an equal `n_A`, another `n_A`. -/
theorem witness_OddStringDecidesTheWaitingHalf : (one waiting).started = true ∧ (one waiting).chans[0]? = some waiting ∧
    (one ch3).chans[0]? = some ch3 ∧ ch3.almPend = false ∧ waiting.almPend = true ∧
    (∀ x ∈ [(0, 0x07C000FFFFFC0000252358), (1, 0x0900000000000000000003), (2, 0x0B00000000000000000052),
      (3, 0x0D00000000000000000051), (4, 0x0F00000000000000000000)],
      ((oddForms 0 (pay x.2) 0)[x.1]?.map fun f => hammingAccept cfg1.ht f.2) = some true) ∧
    FieldMap.read (extract ftRef .odd 0x07C000FFFFFC0000252358#85) .nA = waiting.almNA ∧
    FieldMap.read (extract ftRef .odd 0x0900000000000000000003#85) .nA ≠ waiting.almNA := by decide +kernel

theorem witness_MergeOverwritesByName : (([(FieldName.tb, 1), (FieldName.xn, 2)] : FieldMap).map (·.1)).Nodup := by
  decide +kernel

theorem witness_StringDoneIsThePipeline : hammingAccept htRef (flip v20 1) = false ∧ hammingAccept htRef 0#85 = true ∧
    classOf (fld 0#85 2 4) = none ∧ hammingAccept htRef v20 = true ∧ classOf (fld v20 2 4) = some .c5 := by
  decide +kernel

/-- The view of a channel after reset. -/
def view3 : Local := (one ch3).view ch3

/-- An acquisition and three strings of a set. -/
def ephInputs : List AsmInput :=
  [.acquisition, .slot (.str 1 [(.xn, 1)]) 0, .slot (.str 2 [(.tb, 9000)]) 115, .slot (.str 3 []) 230]

/-- An acquisition, an even string and a void slot. -/
def almInputs : List AsmInput := [.acquisition, .slot (.str 6 [(.nA, 5)]) 0, .slot .void 115]

/-- Four strings in a row, and the fourth emits. -/
theorem witness_EphemerisIsOneFrameOnly : view3.ch.ephHave = 0b0000#4 ∧
    (asm (.str 4 []) 345 (asmRun ephInputs view3)).out = (asmRun ephInputs view3).out ++
      [.ephemerisReady 3 [(.xn, 1), (.tb, 9000)] .unresolved 345] := by decide +kernel

/-- An even string, a void slot, and the odd string that emits. -/
theorem witness_AlmanacIsOnePairOnly : view3.ch.almPend = false ∧
    (asm (.str 7 [(.nA, 5), (.hnA, 1)]) 230 (asmRun almInputs view3)).out = (asmRun almInputs view3).out ++
      [.almanacReady 3 5 [(.nA, 5), (.hnA, 1)] .unresolved 230] := by decide +kernel

theorem witness_PushOutputsAreTheList : ∀ ch ∈ [ch3, synced 29 1 0#30, lastBit],
    (one ch).chans[0]? = some ch ∧ runs (.push 0 false 0) (one ch) = true := by decide +kernel

theorem witness_CountersCountTheSignals : (one (synced 29 1 0#30)).chans[0]? = some (synced 29 1 0#30) ∧
    (chanOf (.push 0 false 0) (one (synced 29 1 0#30)) 0).map (·.cntSyncLoss) = some 1 := by decide +kernel

/-- A state with two channels. -/
def two : State := { State.reset with cfg := Config.reference 2, chans := [lastBit, Channel.afterReset 11] }

theorem witness_OtherChannelsAreNotWritten : runs (.push 0 false 0) two = true ∧ runs (.chReset 0 1) two = true ∧
    runs (.str5 0 (payloadOf v20) 0) two = true ∧
    (Instr.str5 0 (payloadOf v20) 0 : Instr).tags?.map (·.1) = some 0 ∧ 1 ≠ 0 := by decide +kernel

theorem witness_OtherChannelsAreNotRead : two.AgreeOn 0 { two with chans := [lastBit, waiting] } ∧
    (Instr.str5 0 (payloadOf v20) 0 : Instr).tags?.map (·.1) = some 0 :=
  ⟨⟨rfl, rfl, rfl, rfl, rfl⟩, rfl⟩

/-- A step that replaces TimeState, and one that does not. -/
theorem witness_TimeStateIsReplacedAsAWhole : runs (.push 0 false 0) (one lastBit) = true ∧
    runs (.push 0 false 0) (one ch3) = true ∧ ∀ sats, (Instr.push 0 false 0 : Instr) ≠ .reset sats :=
  ⟨by decide +kernel, by decide +kernel, fun _ h => by cases h⟩

/-- Does the next step answer a next state? -/
def steps (s : State) : Bool :=
  match step s with
  | .next _ => true
  | .fault _ => false
  | .refused _ => false

theorem witness_ParametersNeverChange : steps ((one lastBit).withOps [.push 0 false 0, .query 0 .utc]) = true := by
  decide +kernel

theorem witness_StepKeepsTheInvariants : ((one lastBit).withOps [.push 0 false 0]).Inv ∧
    steps ((one lastBit).withOps [.push 0 false 0]) = true ∧ unstarted.Inv ∧
    steps (unstarted.withOps [.reset [4]]) = true :=
  ⟨fun _ => ⟨test_config_reference, rfl, by decide +kernel⟩, by decide +kernel, fun h => (by cases h), by decide +kernel⟩

theorem witness_PartialsAreEmptyExactlyWhenNothingIsHeld : cfg1.WF ∧ ch3.Inv cfg1 ∧ recordNames cfg1.ft.c1 ≠ [] :=
  ⟨test_config_reference, by decide +kernel, by decide +kernel⟩

/-- A channel that meets the invariants before the last bit of a string 4 that completes a set. -/
def lastOfSet : Channel :=
  { lastBit with
    buf := rawOf tmRef 0x0400000000000000000052#85
    ephHave := 0b1110#4
    eph := (recordNames ftRef.c1 ++ recordNames ftRef.c2 ++ recordNames ftRef.c3).map fun x => (x, 0) }

theorem witness_RecordsHoldExactlyTheirFields : (one lastOfSet).Inv ∧
    ((outOf (.push 0 false 0) (one lastOfSet)).map fun l => l.map fun
      | .ephemerisReady _ f _ _ => f.length
      | _ => 0) = some [28] :=
  ⟨fun _ => ⟨test_config_reference, rfl, by decide +kernel⟩, by decide +kernel⟩

/-- Two states that differ in what holds no value: an unfilled window and an unused buffer. -/
theorem witness_NoRuleReadsAnElementWithoutValue : (one ch3).Same (one { ch3 with win := 7#30, buf := 9#115, almNA := 5 }) := by
  refine ⟨rfl, rfl, ⟨rfl, fun _ => rfl⟩, ?_, rfl, rfl⟩
  refine .cons ⟨rfl, rfl, fun i _ h => absurd h (Nat.not_lt_zero i), fun _ _ _ => rfl, rfl, rfl, rfl, rfl, fun h => (by cases h),
    fun h => (by cases h), rfl, rfl, rfl, fun h => (by cases h), rfl, rfl, rfl, rfl, rfl⟩ .nil

/-- Doubling every timestamp, in a step whose output carries one. -/
theorem witness_EveryStepOnlyCopiesTags : (fun n : SampleTime => 2 * n) default = default ∧
    steps ((one lastOfSet).withOps [.push 0 false 7]) = true ∧
    outOf (.push 0 false 7) (one lastOfSet) ≠ some [] := by decide +kernel

theorem witness_DecodeOfEncodeIsTheInstruction : (Instr.str5 4 (payloadOf v20) 9 : Instr).tags? = some (4, 9) ∧
    (Instr.query 0 .gps : Instr).tags? = none := by decide +kernel

theorem witness_EncodeOfDecodeIsTheString : (List.replicate 115 true).length = 115 ∧
    (List.replicate 116 true).length ≠ 115 ∧ (List.replicate 114 true).length ≠ 115 := by decide +kernel

theorem witness_StepRunsTheQueuedOperation : ((one ch3).withOps [.push 0 true 0]).ops = .push 0 true 0 :: [] ∧
    (one ch3).ops = [] := by decide +kernel

theorem witness_PlacedWordIsWhatTheStepRuns : (one ch3).started = true ∧ (one ch3).chans = ch3 :: [] ∧
    (decodeTableWord 88 0x050C8000000003800000D8).isSome = true := by decide +kernel

end Sys2Proof.Tests
end

section
/-! PROOFS. The id bits of a string and the instruction they select (R58, R59, R77). -/

namespace Sys2Proof.Machine

/-- An id below 16 selects the string instruction that carries it (R59). -/
theorem id?_instrOfId {TS Sat : Type} {n : Nat} (hn : n < 16) (c : Nat) (p : Payload) (ts : TS) :
    (instrOfId n c p ts : Instr TS Sat).id? = some (BitVec.ofNat 4 n) := by
  interval_cases n <;> rfl

/-- The instruction of a RawString has the RawString's own id (R58, R59). -/
theorem id?_decodeRaw {TS Sat : Type} (c : Nat) (ts : TS) (rs : RawBits) :
    (decodeRaw c ts rs : Instr TS Sat).id? = some (BitVec.ofNat 4 (stringId (rawData rs))) :=
  id?_instrOfId (stringId_lt _) _ _ _

/-- The id of a RawString is the number of its positions 32 to 35, most significant first (R48, R58). -/
theorem stringId_rawData (rs : RawBits) : stringId (rawData rs) =
    8 * (rsBit rs 32).toNat + 4 * (rsBit rs 33).toNat + 2 * (rsBit rs 34).toNat + (rsBit rs 35).toNat := by
  rw [stringId_eq, dataBit_rawData rs 2 (by omega), dataBit_rawData rs 3 (by omega), dataBit_rawData rs 4 (by omega),
    dataBit_rawData rs 5 (by omega)]

/-- The opcode table's mask has ones at the places of `D[2..5]` and nowhere else (R77). -/
theorem getLsbD_tableMask (i : Nat) :
    (0x0F00000000000000000000#85).getLsbD i = (decide (80 ≤ i) && decide (i < 84)) := by
  have hmask : 0x0F00000000000000000000#85 = (BitVec.allOnes 4).setWidth 85 <<< 80 := by decide
  rw [hmask, BitVec.getLsbD_shiftLeft, BitVec.getLsbD_setWidth, BitVec.getLsbD_allOnes, Bool.eq_iff_iff]
  simp only [Bool.and_eq_true, Bool.not_eq_true', decide_eq_true_eq, decide_eq_false_iff_not]
  omega

/-- The table's mask keeps the id of a data word, in its place, and clears the payload (R77). -/
theorem dataWord_and_tableMask (id : BitVec 4) (p : Payload) :
    p.dataWord id &&& 0x0F00000000000000000000#85 = id.setWidth 85 <<< 80 := by
  apply BitVec.eq_of_getLsbD_eq
  intro i hi
  rw [BitVec.getLsbD_and, getLsbD_tableMask, getLsbD_dataWord id p i hi, BitVec.getLsbD_shiftLeft,
    BitVec.getLsbD_setWidth]
  by_cases hbody : i < 80
  · simp [hbody, show ¬ 80 ≤ i by omega]
  by_cases hid : i < 84
  · simp [hbody, hid, hi, show 80 ≤ i by omega, show i - 80 < 85 by omega]
  · have hout : id.getLsbD (i - 80) = false := BitVec.getLsbD_of_ge id (i - 80) (by omega)
    simp [hid, hout]

/-- Shifting an id to the place of `D[2..5]` multiplies it by `2 ^ 80`. -/
theorem shiftLeft_id (n : Nat) (hn : n < 16) :
    (BitVec.ofNat 4 n).setWidth 85 <<< 80 = BitVec.ofNat 85 (n * 2 ^ 80) := by
  apply BitVec.eq_of_toNat_eq
  rw [BitVec.toNat_shiftLeft, BitVec.toNat_setWidth, BitVec.toNat_ofNat, BitVec.toNat_ofNat, Nat.shiftLeft_eq]
  omega

/-- A data word under the table's mask is its id at the place of `D[2..5]` (R77). -/
theorem and_tableMask_eq_stringId (d : DataWord) :
    d &&& 0x0F00000000000000000000#85 = BitVec.ofNat 85 (stringId d * 2 ^ 80) := by
  calc d &&& 0x0F00000000000000000000#85
      = (payloadOf d).dataWord (BitVec.ofNat 4 (stringId d)) &&& 0x0F00000000000000000000#85 := by
        rw [dataWord_payloadOf]
    _ = (BitVec.ofNat 4 (stringId d)).setWidth 85 <<< 80 := dataWord_and_tableMask _ _
    _ = BitVec.ofNat 85 (stringId d * 2 ^ 80) := shiftLeft_id _ (stringId_lt d)

/-- Settles O56, from the positions of the id (R58), the selection by id (R59) and the table's mask (R77). -/
theorem theIdBitsSelectTheInstruction : Obligations.TheIdBitsSelectTheInstruction := by
  intro c ts rs
  exact ⟨stringId_rawData rs, id?_decodeRaw c ts rs, and_tableMask_eq_stringId (rawData rs)⟩

end Sys2Proof.Machine
end

section
/-! PROOFS. CH_RESET (R82): the channel it gives, and the state it answers. -/

namespace Sys2Proof.Machine

/-- The channel that RESET and CH_RESET write has every value of R37, whatever stands in the places without a value. -/
theorem ChannelOf.atReset_afterReset {TS Sat : Type} (noTs : TS) (sat : Sat) :
    (ChannelOf.afterReset noTs sat).AtReset sat :=
  ⟨rfl, rfl, rfl, rfl, rfl, rfl, rfl, rfl, rfl, rfl, rfl, rfl, rfl, rfl⟩

/-- What a CH_RESET on an existing channel answers: the fresh channel written back, TimeState as it was, no output. -/
theorem exec_chReset_eq {s : State} {c : Nat} {ch : Channel} (sat : SatId) (h : s.started = true)
    (hc : s.chans[c]? = some ch) :
    exec (.chReset c sat) s = .next (s.putView c { s.view ch with ch := Channel.afterReset sat, out := [] }) := by
  rw [exec_chReset, onChannel_eq h hc]

/-- Settles O2: CH_RESET writes one channel's view back, and what it writes there is the channel of R37. -/
theorem channelResetTouchesOneChannelOnly : Obligations.ChannelResetTouchesOneChannelOnly := by
  intro s c sat hstarted hlt
  have hc : s.chans[c]? = some s.chans[c] := List.getElem?_eq_getElem hlt
  refine ⟨_, exec_chReset_eq sat hstarted hc, ?atReset, ?others, ?count, rfl, rfl, rfl, hstarted, rfl⟩
  case atReset => exact ⟨_, getElem?_putView_self _ hc, ChannelOf.atReset_afterReset 0 sat⟩
  case others => exact fun d hd => getElem?_putView_ne _ hd
  case count => exact List.length_set

end Sys2Proof.Machine
end

section
/-! PROOFS. The frame_synchronizer: the window of a PUSH (R91), acquisition (R95) and the loss of sync (R98). -/

namespace Sys2Proof.Machine

variable {TS Sat : Type}

/-! ### What the rules after the window shift leave alone (R91) -/

/-- Two views agree on what no rule of a PUSH writes after the window shift: the tag and the window. -/
structure LocalOf.KeepsWindow (l l' : LocalOf TS Sat) : Prop where
  sat : l'.ch.sat = l.ch.sat
  win : l'.ch.win = l.ch.win
  winTs : l'.ch.winTs = l.ch.winTs
  winN : l'.ch.winN = l.ch.winN

theorem LocalOf.KeepsWindow.refl (l : LocalOf TS Sat) : l.KeepsWindow l :=
  ⟨rfl, rfl, rfl, rfl⟩

theorem LocalOf.KeepsWindow.trans {a b c : LocalOf TS Sat} (h : a.KeepsWindow b) (k : b.KeepsWindow c) :
    a.KeepsWindow c :=
  ⟨k.sat.trans h.sat, k.win.trans h.win, k.winTs.trans h.winTs, k.winN.trans h.winN⟩

theorem LocalOf.KeepsSync.keepsWindow {l l' : LocalOf TS Sat} (h : l.KeepsSync l') : l.KeepsWindow l' :=
  ⟨h.sat, h.win, h.winTs, h.winN⟩

theorem acquire_keepsWindow (p : Bit) (l : LocalOf TS Sat) : l.KeepsWindow (acquire p l) :=
  ⟨rfl, rfl, rfl, rfl⟩

theorem searchStep_keepsWindow (l : LocalOf TS Sat) : l.KeepsWindow (searchStep l) := by
  obtain ⟨-, -, h⟩ | ⟨-, -, -, h⟩ | ⟨-, h⟩ := searchStep_cases l <;> rw [h]
  · exact acquire_keepsWindow false l
  · exact acquire_keepsWindow true l
  · exact .refl l

theorem leaveLost_keepsWindow (l : LocalOf TS Sat) : l.KeepsWindow (leaveLost l) :=
  have hsearching : l.KeepsWindow { l with ch := { l.ch with sync := .searching } } := ⟨rfl, rfl, rfl, rfl⟩
  hsearching.trans (searchStep_keepsWindow _)

theorem tmCheck_keepsWindow (l : LocalOf TS Sat) : l.KeepsWindow (tmCheck l) := by
  obtain ⟨-, h⟩ | ⟨-, -, h⟩ | ⟨-, -, h⟩ := tmCheck_cases l <;> rw [h] <;> exact ⟨rfl, rfl, rfl, rfl⟩

theorem storeBit_keepsWindow (p : Nat) (b : Bit) (ts : TS) (l : LocalOf TS Sat) : l.KeepsWindow (storeBit p b ts l) :=
  ⟨rfl, rfl, rfl, rfl⟩

theorem setBitcnt_keepsWindow (n : Nat) (l : LocalOf TS Sat) :
    l.KeepsWindow { l with ch := { l.ch with bitcnt := n } } :=
  ⟨rfl, rfl, rfl, rfl⟩

theorem blockDone_keepsWindow (l : LocalOf TS Sat) : l.KeepsWindow (blockDone l) :=
  (stringDone_keepsSync _ _ l).keepsWindow

theorem consumeBit_keepsWindow (b : Bit) (ts : TS) {l : LocalOf TS Sat} (hsync : l.ch.sync = .synced) :
    l.KeepsWindow (consumeBit b ts l) := by
  obtain ⟨-, -, h⟩ | ⟨-, hgoesOn, hloses⟩ | ⟨-, h⟩ := consumeBit_cases (b := b) (ts := ts) hsync
  · rw [h]
    exact (storeBit_keepsWindow _ b ts l).trans (setBitcnt_keepsWindow _ _)
  · have hcheck := (storeBit_keepsWindow 30 b ts l).trans (tmCheck_keepsWindow _)
    by_cases hk : (tmCheck (storeBit 30 b ts l)).ch.sync = .synced
    · rw [hgoesOn hk]
      exact hcheck.trans (setBitcnt_keepsWindow _ _)
    · rw [hloses hk]
      exact hcheck
  · rw [h]
    exact ((storeBit_keepsWindow _ b ts l).trans (setBitcnt_keepsWindow _ _)).trans (blockDone_keepsWindow _)

/-- A PUSH in SEARCHING or LOST shifts the window and searches (R94, R99). -/
theorem pushBit_notSynced {b : Bit} {ts : TS} {l : LocalOf TS Sat} (h : l.ch.sync ≠ .synced) :
    pushBit b ts l = leaveLost (windowShift b ts l) :=
  pushBit_search h

/-- After the window shift a PUSH writes neither the window nor the tag, whatever else it does (R91). -/
theorem pushBit_keepsWindow (b : Bit) (ts : TS) (l : LocalOf TS Sat) :
    (windowShift b ts l).KeepsWindow (pushBit b ts l) := by
  by_cases h : l.ch.sync = .synced
  · rw [pushBit_synced h]
    exact consumeBit_keepsWindow b ts h
  · rw [pushBit_notSynced h]
    exact leaveLost_keepsWindow _

/-- Settles O8: the window shift gives the window read off here, and the rest of the PUSH keeps it. -/
theorem pushShiftsTheWindow : Obligations.PushShiftsTheWindow := by
  intro s c ch b ts hstarted hc
  obtain ⟨hsat, hwin, hwinTs, hwinN⟩ := pushBit_keepsWindow b ts { s.view ch with out := [] }
  refine ⟨_, _, exec_push_eq b ts hstarted hc, getElem?_putView_self _ hc, ?older, ?newest, ?olderTs, ?newestTs, hwinN,
    hsat, ?others, List.length_set, rfl, rfl, rfl⟩
  case older =>
    intro i h1 h29
    rw [hwin]
    exact markBit_shiftBits ch.win b i ⟨h1, h29⟩
  case newest =>
    rw [hwin]
    exact markBit_shiftBits_newest ch.win b
  case olderTs =>
    intro i h
    simp only [hwinTs]
    exact shiftTs_get ch.winTs ts i h
  case newestTs =>
    simp only [hwinTs]
    exact shiftTs_get_newest ch.winTs ts
  case others => exact fun d hd => getElem?_putView_ne _ hd

/-! ### Acquisition (R94, R95) -/

/-- The search of R94 acquires with polarity `p` on the window `w`: the pattern is tried first, its complement after
it. -/
def AcquiresWith (cfg : Config) (w : TimeMark) (p : Bit) : Prop :=
  p = false ∧ cfg.tSync ≤ agree w cfg.tm ∨
  p = true ∧ ¬ cfg.tSync ≤ agree w cfg.tm ∧ cfg.tSync ≤ 30 - agree w cfg.tm

/-- A full window that the search finds is acquired with the polarity it was found in (R94). -/
theorem searchStep_acquires {l : LocalOf TS Sat} {p : Bit} (hfull : l.ch.winN = 30)
    (hfound : AcquiresWith l.cfg l.ch.win p) : searchStep l = acquire p l := by
  obtain ⟨rfl, hm⟩ | ⟨rfl, hm, hinv⟩ := hfound
  · simp only [searchStep, if_pos hfull, if_pos hm]
  · simp only [searchStep, if_pos hfull, if_neg hm, if_pos hinv]

/-- A window of at least 29 bits is full after the shift (R91). -/
theorem windowShift_fills {l : LocalOf TS Sat} (b : Bit) (ts : TS) (h : 29 ≤ l.ch.winN) :
    (windowShift b ts l).ch.winN = 30 :=
  Nat.min_eq_left (Nat.succ_le_succ h)

/-- A PUSH in SEARCHING or LOST that fills the window with bits the search finds acquires on the shifted window
(R94, R95, R99). -/
theorem pushBit_acquires {b : Bit} {ts : TS} {l : LocalOf TS Sat} {p : Bit} (hsync : l.ch.sync ≠ .synced)
    (hwinN : 29 ≤ l.ch.winN) (hfound : AcquiresWith l.cfg (shiftBits l.ch.win b) p) :
    pushBit b ts l = acquire p (windowShift b ts l) := by
  rw [pushBit_notSynced hsync]
  exact searchStep_acquires (windowShift_fills b ts hwinN) hfound

/-- The time mark that ACQUIRE writes is the one a later read of the buffer gives (R95). -/
theorem rawMark_memWriteMark (rs : RawBits) (m : TimeMark) : rawMark (memWriteMark rs m) = m :=
  rawMark_rawOf m (rawData rs)

/-- Settles O9: the PUSH is ACQUIRE on the shifted window, which is now full. The witnesses for what holds no value
are the old `alm_id` and `alm_nA` and the old data bits of the buffer. -/
theorem agreementAcquires : Obligations.AgreementAcquires := by
  intro s c ch b ts p hstarted hc hsync hwinN hfound
  refine ⟨memWriteMark ch.buf (xorPol (shiftBits ch.win b) p), ch.almId, ch.almNA, rawMark_memWriteMark _ _, ?_⟩
  have hpush : pushBit b ts { s.view ch with out := [] } =
      acquire p (windowShift b ts { s.view ch with out := [] }) :=
    pushBit_acquires hsync hwinN hfound
  have hfull : min 30 (ch.winN + 1) = 30 := Nat.min_eq_left (Nat.succ_le_succ hwinN)
  rw [exec_push_eq b ts hstarted hc, hpush]
  simp only [acquire, asmReset, windowShift, State.putView, State.view, hfull]

/-! ### The second miss (R97, R98) -/

/-- A miss on top of a miss loses sync (R97). -/
theorem tmCheck_loses {l : LocalOf TS Sat} (hmark : ¬ l.cfg.tSync ≤ agree (rawMark l.ch.buf) l.cfg.tm)
    (hmiss : l.ch.miss ≠ 0) : tmCheck l = lose l := by
  simp only [tmCheck, if_neg hmark, if_neg hmiss]

/-- The 30th bit of a block that misses again ends in LOSE, and nothing is counted after it (R96, R97, R98). -/
theorem consumeBit_loses {b : Bit} {ts : TS} {l : LocalOf TS Sat} (hsync : l.ch.sync = .synced)
    (hpos : l.ch.bitcnt = 29) (hmiss : l.ch.miss ≠ 0)
    (hmark : ¬ l.cfg.tSync ≤ agree (rawMark (memWrite l.ch.buf 30 (b ^^ l.ch.pol))) l.cfg.tm) :
    consumeBit b ts l = lose (storeBit 30 b ts l) := by
  have hloses : tmCheck (storeBit 30 b ts l) = lose (storeBit 30 b ts l) := tmCheck_loses hmark hmiss
  have hlost : (lose (storeBit 30 b ts l)).ch.sync ≠ .synced := by simp [lose]
  obtain ⟨hne, -, -⟩ | ⟨-, -, hout⟩ | ⟨hlast, -⟩ := consumeBit_cases (b := b) (ts := ts) hsync
  · exact absurd hpos hne
  · rw [hloses] at hout
    exact hout hlost
  · omega

/-- Settles O14: the PUSH is LOSE after the bit is stored; the witness for the buffer is the one with that bit. -/
theorem secondMissLosesSync : Obligations.SecondMissLosesSync := by
  intro s c ch b ts hstarted hc hsync hpos hmiss hmark
  refine ⟨memWrite ch.buf 30 (b ^^ ch.pol), ?_⟩
  have hpush : pushBit b ts { s.view ch with out := [] } =
      lose (storeBit 30 b ts (windowShift b ts { s.view ch with out := [] })) := by
    rw [pushBit_synced hsync]
    exact consumeBit_loses hsync hpos hmiss hmark
  rw [exec_push_eq b ts hstarted hc, hpush]
  rfl

end Sys2Proof.Machine
end

section
/-! PROOFS. The hamming_validator's gate: a rejected string is dropped whole (R109). -/

namespace Sys2Proof.Machine

/-- Whatever its id, a string instruction is the gate on its own data word; the id decides only what runs behind the
gate (R84, R109). -/
theorem exec_stringForm {c : Nat} {p : Payload} {ts : SampleTime} {i : Instr} {d : DataWord}
    (h : (i, d) ∈ stringForms c p ts) :
    ∃ accepted : Local → Local, ∀ s, exec i s = onChannel c (strGate d ts accepted) s := by
  simp only [stringForms, List.mem_cons, List.not_mem_nil, or_false, Prod.mk.injEq] at h
  obtain ⟨rfl, rfl⟩ | ⟨rfl, rfl⟩ | ⟨rfl, rfl⟩ | ⟨rfl, rfl⟩ | ⟨rfl, rfl⟩ | ⟨rfl, rfl⟩ | ⟨rfl, rfl⟩ | ⟨rfl, rfl⟩ |
    ⟨rfl, rfl⟩ | ⟨rfl, rfl⟩ | ⟨rfl, rfl⟩ | ⟨rfl, rfl⟩ | ⟨rfl, rfl⟩ | ⟨rfl, rfl⟩ | ⟨rfl, rfl⟩ | ⟨rfl, rfl⟩ := h
  all_goals exact ⟨_, fun _ => rfl⟩

/-- What a rejected string of any id answers: ChecksumFailure is raised, and the assembler sees a void slot
(R109, R177). -/
theorem exec_stringForm_rejected {s : State} {c : Nat} {ch : Channel} {p : Payload} {ts : SampleTime} {i : Instr}
    {d : DataWord} (hstarted : s.started = true) (hc : s.chans[c]? = some ch) (hform : (i, d) ∈ stringForms c p ts)
    (hreject : hammingAccept s.cfg.ht d = false) :
    exec i s = .next (s.putView c (asm .void ts ((s.view ch).raise (.checksumFailure ch.sat)))) := by
  obtain ⟨accepted, hgate⟩ := exec_stringForm hform
  have hdropped : strGate d ts accepted (s.view ch) = asm .void ts ((s.view ch).raise (.checksumFailure ch.sat)) :=
    strGate_reject hreject
  rw [hgate, onChannel_eq hstarted hc, hdropped]

/-- Settles O20: after ChecksumFailure the void slot does nothing to a clear partial (R133), and discards a set in
progress (R138). -/
theorem rejectedStringIsDroppedWhole : Obligations.RejectedStringIsDroppedWhole := by
  intro s c ch p ts i d hstarted hc hform hreject
  rw [exec_stringForm_rejected hstarted hc hform hreject]
  have hkept : ((s.view ch).raise (.checksumFailure ch.sat)).ch.ephHave = ch.ephHave := rfl
  constructor
  · intro hclear
    rw [asm_void_clear (hkept.trans hclear)]
    rfl
  · intro hset
    rw [asm_void_set (hkept ▸ hset), ephDiscard_eq]
    simp [State.putView, State.view]

end Sys2Proof.Machine
end

section
/-! PROOFS. The bit_field_extractor: one entry per FieldSpec, with the scaled value of its bits (R122, R123). -/

namespace Sys2Proof.Machine

/-- The loop of `EXTRACT` (R123), from any map: the fields of `l` are read off `d` and written in order. -/
def putFields (d : DataWord) (l : List FieldSpec) (m : FieldMap) : FieldMap :=
  l.foldl (fun m f => FieldMap.put m f.name (fieldValue d f)) m

theorem extract_eq_putFields (t : FieldTable) (cls : FieldClass) (d : DataWord) :
    extract t cls d = putFields d (t.specs cls) [] := rfl

@[simp] theorem putFields_nil (d : DataWord) (m : FieldMap) : putFields d [] m = m := rfl

@[simp] theorem putFields_cons (d : DataWord) (f : FieldSpec) (l : List FieldSpec) (m : FieldMap) :
    putFields d (f :: l) m = putFields d l (FieldMap.put m f.name (fieldValue d f)) := rfl

theorem fieldNames_cons (f : FieldSpec) (l : List FieldSpec) : fieldNames (f :: l) = f.name :: fieldNames l := rfl

/-- The loop keeps the value of a name that no field bears. -/
theorem get?_putFields_of_notMem (d : DataWord) {l : List FieldSpec} {x : FieldName} (hx : x ∉ fieldNames l)
    (m : FieldMap) : FieldMap.get? (putFields d l m) x = FieldMap.get? m x := by
  induction l generalizing m with
  | nil => rfl
  | cons g l ih =>
    rw [fieldNames_cons, List.mem_cons, not_or] at hx
    obtain ⟨hne, hrest⟩ := hx
    rw [putFields_cons, ih hrest, FieldMap.get?_put, if_neg hne]

/-- When the names differ among themselves no later field overwrites an earlier one's value. -/
theorem get?_putFields_of_mem (d : DataWord) {l : List FieldSpec} (hnodup : (fieldNames l).Nodup) {f : FieldSpec}
    (hf : f ∈ l) (m : FieldMap) : FieldMap.get? (putFields d l m) f.name = some (fieldValue d f) := by
  induction l generalizing m with
  | nil => cases hf
  | cons g l ih =>
    rw [fieldNames_cons, List.nodup_cons] at hnodup
    obtain ⟨hfresh, hrest⟩ := hnodup
    rw [putFields_cons]
    obtain rfl | hl := List.mem_cons.1 hf
    · rw [get?_putFields_of_notMem d hfresh, FieldMap.get?_put, if_pos rfl]
    · exact ih hrest hl _

/-- An extraction gives every field of its class the field's value (R122, R123). -/
theorem get?_extract {t : FieldTable} {cls : FieldClass} (d : DataWord) (hwf : ClassWF (t.specs cls)) {f : FieldSpec}
    (hf : f ∈ t.specs cls) : FieldMap.get? (extract t cls d) f.name = some (fieldValue d f) := by
  rw [extract_eq_putFields]
  exact get?_putFields_of_mem d (nodup_fieldNames hwf) hf []

/-- Settles O24: the names of a class differ among themselves (R60), so the extraction holds them in the class's own
order, and each with its field's value. -/
theorem extractionHasOneEntryPerField : Obligations.ExtractionHasOneEntryPerField := by
  intro t cls d hwf
  have hnames : FieldMap.names (extract t cls d) = fieldNames (t.specs cls) :=
    names_extract t cls d (nodup_fieldNames hwf)
  exact ⟨.of_eq hnames, fun _ hf => get?_extract d hwf hf⟩

end Sys2Proof.Machine
end

section
/-! PROOFS. The message_assembler: what an accepted string of each type does (R141 to R154). -/

namespace Sys2Proof.Machine

/-! ### From an instruction to the assembler -/

/-- What an accepted string answers: the rule behind the gate, written back to its channel (R84, R108). -/
theorem exec_accepted {i : Instr} {s : State} {c : Nat} {ch : Channel} {d : DataWord} {ts : SampleTime}
    {accepted : Local → Local} (hgate : exec i s = onChannel c (strGate d ts accepted) s) (hstarted : s.started = true)
    (hc : s.chans[c]? = some ch) (haccept : hammingAccept s.cfg.ht d = true) :
    exec i s = .next (s.putView c (accepted (s.view ch))) := by
  have hopen : strGate d ts accepted (s.view ch) = accepted (s.view ch) := strGate_accept haccept
  rw [hgate, onChannel_eq hstarted hc, hopen]

/-- Writing an untouched channel back changes no channel. -/
theorem set_chans_self {s : State} {c : Nat} {ch : Channel} (hc : s.chans[c]? = some ch) : s.chans.set c ch = s.chans :=
  congrArg State.chans (putView_view hc)

/-- A set that ends without being complete, seen in the state: one signal, one count, an empty partial (R133, R179). -/
theorem putView_ephDiscard (s : State) (c : Nat) (ch : Channel) : s.putView c (ephDiscard (s.view ch)) = { s with
    out := s.out ++ [.err (.incompleteFrame ch.sat .eph)]
    chans := s.chans.set c { ch with ephHave := 0b0000#4, eph := [], cntRestart := ch.cntRestart + 1 } } := rfl

/-! ### String 0 (R154) -/

/-- Settles O28: behind UnknownStringId the string is a void slot, which does nothing to a clear partial and ends a set
in progress (R138). -/
theorem stringZeroIsDropped : Obligations.StringZeroIsDropped := by
  intro s c ch p ts hstarted hc haccept
  rw [exec_accepted (exec_str0 c p ts s) hstarted hc haccept]
  have hkept : ((s.view ch).raise (.unknownStringId ch.sat 0)).ch.ephHave = ch.ephHave := rfl
  constructor
  · intro hclear
    rw [State.view_ch, asm_void_clear (hkept.trans hclear)]
    rfl
  · intro hset
    rw [State.view_ch, asm_void_set (hkept ▸ hset), ephDiscard_eq]
    simp [State.putView, State.view]

/-! ### Strings 3 and 4 (R141, R142) -/

section EphStep

variable {TS Sat : Type} {l : LocalOf TS Sat}

/-- The expected string joins a set that it does not complete (R133). -/
theorem ephStep_joins {k : Nat} (f : FieldMap) (ts : TS) (hk : ephCount l.ch.ephHave = k) (hone : 1 ≤ k) (hthree : k ≠ 3) :
    ephStep (.str (k + 1) f) ts l = ephMerge k f l := by
  simp [ephStep, hk, next?_str_succ f hone, hthree]

/-- A string 4 completes a set of three (R133, R134). -/
theorem ephStep_completes (f : FieldMap) (ts : TS) (hk : l.ch.ephHave = 0b1110#4) :
    ephStep (.str 4 f) ts l = ephCommit ts (ephMerge 3 f l) := by
  have hnext : AsmEvent.next? 3 (.str 4 f) = some f := next?_str_succ f (by decide)
  simp [ephStep, hk, hnext]

/-- A string other than the first leaves a clear partial alone (R133). -/
theorem ephStep_str_clear {id : Nat} (f : FieldMap) (ts : TS) (hid : id ≠ 1) (hclear : l.ch.ephHave = 0b0000#4) :
    ephStep (.str id f) ts l = l :=
  ephStep_skip hclear (first?_str f hid)

/-- A string that is neither the first nor the expected one ends a set in progress (R133). -/
theorem ephStep_str_ends {id : Nat} (f : FieldMap) (ts : TS) (hid : id ≠ 1) (hset : l.ch.ephHave ≠ 0b0000#4)
    (hlate : id ≠ ephCount l.ch.ephHave + 1) : ephStep (.str id f) ts l = ephDiscard l :=
  ephStep_drop hset (next?_str f (.inr hlate)) (first?_str f hid)

end EphStep

/-- An accepted string of the immediate data runs the ephemeris sub-step alone on its channel (R132, R133). -/
theorem exec_immediate {i : Instr} {s : State} {c : Nat} {ch : Channel} {d : DataWord} {ts : SampleTime} {id : Nat}
    {cls : FieldClass} (hid : id ≤ 4)
    (hgate : exec i s = onChannel c (strGate d ts fun l => asm (.str id (extract l.cfg.ft cls d)) ts l) s)
    (hstarted : s.started = true) (hc : s.chans[c]? = some ch) (haccept : hammingAccept s.cfg.ht d = true) :
    exec i s = .next (s.putView c (ephStep (.str id (extract s.cfg.ft cls d)) ts (s.view ch))) := by
  rw [exec_accepted hgate hstarted hc haccept, asm_immediate hid, State.view_cfg]

/-- Settles O31: string 3 is the expected one exactly of a set that holds strings 1 and 2. -/
theorem stringThreeSucceedsStringTwo : Obligations.StringThreeSucceedsStringTwo := by
  intro s c ch p ts hstarted hc haccept
  rw [exec_immediate (by decide) (exec_str3 c p ts s) hstarted hc haccept]
  refine ⟨?clear, ?joins, ?ends⟩
  case clear =>
    intro hclear
    rw [ephStep_str_clear _ ts (by decide) hclear, putView_view hc]
  case joins =>
    intro htwo
    have hk : ephCount ch.ephHave = 2 := by rw [htwo, ephCount_two]
    rw [ephStep_joins _ ts hk (by decide) (by decide)]
    simp [ephMerge, State.putView, State.view, htwo]
  case ends =>
    intro hother
    obtain ⟨hset, hlate⟩ : ch.ephHave ≠ 0b0000#4 ∧ 3 ≠ ephCount ch.ephHave + 1 := by
      obtain h | h := hother <;> rw [h] <;> decide
    rw [ephStep_str_ends _ ts (by decide) hset hlate, putView_ephDiscard]

/-- Settles O32: string 4 is the expected one exactly of a set that holds strings 1 to 3, and completes it. -/
theorem stringFourCommitsTheSet : Obligations.StringFourCommitsTheSet := by
  intro s c ch p ts hstarted hc haccept
  rw [exec_immediate (by decide) (exec_str4 c p ts s) hstarted hc haccept]
  refine ⟨?clear, ?completes, ?ends⟩
  case clear =>
    intro hclear
    rw [ephStep_str_clear _ ts (by decide) hclear, putView_view hc]
  case completes =>
    intro hthree
    rw [ephStep_completes _ ts hthree, ephCommit_eq]
    rfl
  case ends =>
    intro hother
    obtain ⟨hset, hlate⟩ : ch.ephHave ≠ 0b0000#4 ∧ 4 ≠ ephCount ch.ephHave + 1 := by
      obtain h | h := hother <;> rw [h] <;> decide
    rw [ephStep_str_ends _ ts (by decide) hset hlate, putView_ephDiscard]

/-! ### String 5 (R143) -/

/-- A string 5 replaces TimeState after the ephemeris sub-step, and the almanac sub-step passes it over (R132). -/
theorem asm_time {TS Sat : Type} (f : FieldMap) (ts : TS) (l : LocalOf TS Sat) :
    asm (.str 5 f) ts l = timeReplace f (ephStep (.str 5 f) ts l) := rfl

/-- Settles O33: the ephemeris sub-step comes first, so a set in progress ends before TimeState is replaced. -/
theorem stringFiveReplacesTimeState : Obligations.StringFiveReplacesTimeState := by
  intro s c ch p ts hstarted hc hfull haccept
  rw [exec_accepted (exec_str5 c p ts s) hstarted hc haccept, asm_time]
  constructor
  · intro hclear
    rw [ephStep_str_clear _ ts (by decide) hclear]
    simp [timeReplace, LocalOf.emit, State.putView, State.view, set_chans_self hc]
  · intro hset
    have hlate : 5 ≠ ephCount ch.ephHave + 1 := by
      have := ephCount_le_three hfull
      omega
    rw [ephStep_str_ends _ ts (by decide) hset hlate, ephDiscard_eq]
    simp [timeReplace, LocalOf.emit, State.putView, State.view]

/-! ### The almanac strings (R135, R136, R144 to R153) -/

section Almanac

variable {TS Sat : Type}

/-- What an almanac string signals about the ephemeris partial (R133, R179). -/
def ChannelOf.ephErr (ch : ChannelOf TS Sat) : List (OutputOf TS Sat) :=
  if ch.ephHave = 0b0000#4 then [] else [.err (.incompleteFrame ch.sat .eph)]

/-- What an even string signals about a half that waited (R135, R179). -/
def ChannelOf.almErr (ch : ChannelOf TS Sat) : List (OutputOf TS Sat) :=
  if ch.almPend then [.err (.incompleteFrame ch.sat .alm)] else []

/-- The channel after a set in progress, if there was one, is discarded and counted. -/
def ChannelOf.endSet (ch : ChannelOf TS Sat) : ChannelOf TS Sat :=
  { ch with
    ephHave := 0b0000#4
    eph := if ch.ephHave = 0b0000#4 then ch.eph else []
    cntRestart := ch.cntRestart + ch.ephErr.length }

/-- With no set in progress there is nothing to end. -/
theorem ChannelOf.endSet_clear {ch : ChannelOf TS Sat} (h : ch.ephHave = 0b0000#4) : ch.endSet = ch := by
  rcases ch
  cases h
  rfl

/-- An almanac string never is a string of a set: it ends the one in progress (R133). -/
theorem ephStep_almanac {id : Nat} (f : FieldMap) (ts : TS) (l : LocalOf TS Sat) (hid : 6 ≤ id) :
    ephStep (.str id f) ts l = { l with out := l.out ++ l.ch.ephErr, ch := l.ch.endSet } := by
  by_cases hclear : l.ch.ephHave = 0b0000#4
  · rw [ephStep_str_clear f ts (by omega) hclear]
    simp [ChannelOf.endSet_clear hclear, ChannelOf.ephErr, hclear]
  · have hlate : id ≠ ephCount l.ch.ephHave + 1 := by
      have := ephCount_le l.ch.ephHave
      omega
    rw [ephStep_str_ends f ts (by omega) hclear hlate, ephDiscard_eq]
    simp [ChannelOf.endSet, ChannelOf.ephErr, hclear]

/-- `ALM_STEP` for an even string, field by field (R135). -/
theorem almEven_eq (id : Nat) (f : FieldMap) (l : LocalOf TS Sat) : almEven id f l = { l with
    out := l.out ++ l.ch.almErr
    ch := { l.ch with
      almPend := true
      almId := Fin.ofNat 16 id
      almNA := FieldMap.read f .nA
      alm := FieldMap.merge [] (FieldMap.record f)
      cntRestart := l.ch.cntRestart + l.ch.almErr.length } } := by
  cases hwaits : l.ch.almPend <;> simp [almEven, ChannelOf.almErr, hwaits, LocalOf.raise]

/-- With nothing waiting an odd string does nothing to the almanac (R136). -/
theorem almOdd_alone (f : FieldMap) (ts : TS) {l : LocalOf TS Sat} (h : l.ch.almPend = false) : almOdd f ts l = l := by
  simp [almOdd, h]

/-- An odd string with the waiting half's `n_A` commits the pair (R136, R184). -/
theorem almOdd_pair {f : FieldMap} (ts : TS) {l : LocalOf TS Sat} (h : l.ch.almPend = true)
    (hsame : FieldMap.read f .nA = l.ch.almNA) : almOdd f ts l = { l with
      out := l.out ++ [.almanacReady l.ch.sat l.ch.almNA (FieldMap.merge l.ch.alm (FieldMap.record f))
        (resolve l.cfg.epoch0.eval l.time 0 .glonass) ts]
      ch := { l.ch with almPend := false, alm := [] } } := by
  simp [almOdd, h, hsame, almClear, LocalOf.emit]

/-- An odd string with another `n_A` discards the waiting half with itself (R136, R179). -/
theorem almOdd_mismatch {f : FieldMap} (ts : TS) {l : LocalOf TS Sat} (h : l.ch.almPend = true)
    (hother : FieldMap.read f .nA ≠ l.ch.almNA) : almOdd f ts l = { l with
      out := l.out ++ [.err (.incompleteFrame l.ch.sat .alm)]
      ch := { l.ch with almPend := false, alm := [], cntRestart := l.ch.cntRestart + 1 } } := by
  simp [almOdd, h, hother, almClear, LocalOf.raise]

end Almanac

/-- The five even string instructions are one rule, with the id as its parameter (R144, R146, R148, R150, R152). -/
theorem exec_evenForm {c : Nat} {p : Payload} {ts : SampleTime} {i : Instr} {d : DataWord} {id : Fin 16}
    (h : (i, d, id) ∈ evenForms c p ts) : 6 ≤ id.val ∧ classOf id.val = some .even ∧
      ∀ s, exec i s = onChannel c (strGate d ts fun l => asm (.str id.val (extract l.cfg.ft .even d)) ts l) s := by
  simp only [evenForms, List.mem_cons, List.not_mem_nil, or_false, Prod.mk.injEq] at h
  obtain ⟨rfl, rfl, rfl⟩ | ⟨rfl, rfl, rfl⟩ | ⟨rfl, rfl, rfl⟩ | ⟨rfl, rfl, rfl⟩ | ⟨rfl, rfl, rfl⟩ := h
  all_goals exact ⟨by decide, rfl, fun _ => rfl⟩

/-- The five odd string instructions are one rule, in which the id only selects the class (R145, R147, R149, R151,
R153). -/
theorem exec_oddForm {c : Nat} {p : Payload} {ts : SampleTime} {i : Instr} {d : DataWord}
    (h : (i, d) ∈ oddForms c p ts) : ∃ id, 6 ≤ id ∧ classOf id = some .odd ∧
      ∀ s, exec i s = onChannel c (strGate d ts fun l => asm (.str id (extract l.cfg.ft .odd d)) ts l) s := by
  simp only [oddForms, List.mem_cons, List.not_mem_nil, or_false, Prod.mk.injEq] at h
  obtain ⟨rfl, rfl⟩ | ⟨rfl, rfl⟩ | ⟨rfl, rfl⟩ | ⟨rfl, rfl⟩ | ⟨rfl, rfl⟩ := h
  · exact ⟨7, by decide, rfl, fun _ => rfl⟩
  · exact ⟨9, by decide, rfl, fun _ => rfl⟩
  · exact ⟨11, by decide, rfl, fun _ => rfl⟩
  · exact ⟨13, by decide, rfl, fun _ => rfl⟩
  · exact ⟨15, by decide, rfl, fun _ => rfl⟩

/-- Settles O34: the ephemeris sub-step ends a set in progress, then the almanac sub-step supersedes a waiting half, so
the two signals come in this order. -/
theorem evenStringWaitsForItsOddHalf : Obligations.EvenStringWaitsForItsOddHalf := by
  intro s c ch p ts i d id hstarted hc hform haccept
  obtain ⟨hsix, heven, hgate⟩ := exec_evenForm hform
  rw [exec_accepted (hgate s) hstarted hc haccept, asm_even heven (by omega), ephStep_almanac _ ts _ hsix, almEven_eq,
    Fin.ofNat_val_eq_self]
  rfl

/-- Settles O35: once a set in progress is ended, the almanac sub-step finds nothing waiting, the half with the same
`n_A`, or one with another. -/
theorem oddStringDecidesTheWaitingHalf : Obligations.OddStringDecidesTheWaitingHalf := by
  intro s c ch p ts i d hstarted hc hform haccept
  obtain ⟨id, hsix, hodd, hgate⟩ := exec_oddForm hform
  rw [exec_accepted (hgate s) hstarted hc haccept, asm_odd hodd (by omega), ephStep_almanac _ ts _ hsix]
  refine ⟨?alone, ?pair, ?mismatch⟩
  case alone =>
    intro hnone
    rw [almOdd_alone _ ts hnone]
    rfl
  case pair =>
    intro hwaits hsame
    rw [almOdd_pair ts hwaits hsame]
    exact ⟨ch.almId, ch.almNA, rfl⟩
  case mismatch =>
    intro hwaits hother
    rw [almOdd_mismatch ts hwaits hother]
    exact ⟨ch.almId, ch.almNA, rfl⟩

end Sys2Proof.Machine
end

section
/-! PROOFS. The instructions: RESET, QUERY, and the rules on one channel; what is refused, and what is left alone
(R80, R81, R85, R87, R203, R204). -/

namespace Sys2Proof.Machine

variable {TS Sat : Type}

/-! ### The kinds of instructions -/

/-- The five kinds of instructions: the four interface operations (R80), and the strings, each given by its id, its
channel, its payload and its timestamp (R57, R59). -/
inductive InstrKind : Instr TS Sat → Prop
  | reset (sats : List Sat) : InstrKind (.reset sats)
  | query (sod : Rat) (ref : TimeRef) : InstrKind (.query sod ref)
  | chReset (c : Nat) (sat : Sat) : InstrKind (.chReset c sat)
  | push (c : Nat) (b : Bit) (ts : TS) : InstrKind (.push c b ts)
  | string (id : BitVec 4) (c : Nat) (p : Payload) (ts : TS) : InstrKind (instrOfId id.toNat c p ts)

/-- Every instruction is of one of the five kinds. -/
theorem instrKind (i : Instr TS Sat) : InstrKind i := by
  cases i with
  | reset sats => exact .reset sats
  | query sod ref => exact .query sod ref
  | chReset c sat => exact .chReset c sat
  | push c b ts => exact .push c b ts
  | str0 c p ts => exact .string 0#4 c p ts
  | str1 c p ts => exact .string 1#4 c p ts
  | str2 c p ts => exact .string 2#4 c p ts
  | str3 c p ts => exact .string 3#4 c p ts
  | str4 c p ts => exact .string 4#4 c p ts
  | str5 c p ts => exact .string 5#4 c p ts
  | str6 c p ts => exact .string 6#4 c p ts
  | str7 c p ts => exact .string 7#4 c p ts
  | str8 c p ts => exact .string 8#4 c p ts
  | str9 c p ts => exact .string 9#4 c p ts
  | str10 c p ts => exact .string 10#4 c p ts
  | str11 c p ts => exact .string 11#4 c p ts
  | str12 c p ts => exact .string 12#4 c p ts
  | str13 c p ts => exact .string 13#4 c p ts
  | str14 c p ts => exact .string 14#4 c p ts
  | str15 c p ts => exact .string 15#4 c p ts

/-- A string of any id carries the tags it is given (R57). -/
@[simp] theorem tags?_instrOfId (n c : Nat) (p : Payload) (ts : TS) :
    (instrOfId n c p ts : Instr TS Sat).tags? = some (c, ts) := by
  unfold instrOfId
  split <;> rfl

/-- A string of any id carries the payload it is given (R49). -/
@[simp] theorem payload?_instrOfId (n c : Nat) (p : Payload) (ts : TS) :
    (instrOfId n c p ts : Instr TS Sat).payload? = some p := by
  unfold instrOfId
  split <;> rfl

/-- An instruction with tags is the string of its id and payload (R57, R59). -/
theorem eq_instrOfId_of_tags? {i : Instr TS Sat} {c : Nat} {ts : TS} (h : i.tags? = some (c, ts)) :
    ∃ (id : BitVec 4) (p : Payload), i = instrOfId id.toNat c p ts := by
  cases instrKind i with
  | string id c' p ts' =>
    rw [tags?_instrOfId] at h
    cases h
    exact ⟨id, p, rfl⟩
  | _ => cases h

/-- The string of an id runs the string pipeline on the data word of that id and its payload (R84). -/
theorem execOf_string [Inhabited TS] (id : BitVec 4) (c : Nat) (p : Payload) (ts : TS) (s : State TS Sat) :
    execOf (instrOfId id.toNat c p ts) s = onChannel c (stringDone (p.dataWord id) ts) s := by
  have key : ∀ n, n < 16 → execOf (instrOfId n c p ts) s =
      onChannel c (stringDone (p.dataWord (BitVec.ofNat 4 n)) ts) s := by
    intro n hn
    unfold stringDone
    simp only [stringId_dataWord]
    interval_cases n <;> rfl
  have := key id.toNat id.isLt
  rwa [BitVec.ofNat_toNat, BitVec.setWidth_eq] at this

theorem exec_string (id : BitVec 4) (c : Nat) (p : Payload) (ts : SampleTime) (s : State) :
    exec (instrOfId id.toNat c p ts) s = onChannel c (stringDone (p.dataWord id) ts) s :=
  (exec_eq_execOf _ s).trans (execOf_string id c p ts s)

/-- What acts on a channel is well formed exactly when the channel exists (R80). -/
theorem wellFormed_iff_of_actsOn {i : Instr} {c : Nat} (h : Instr.ActsOn i c) (cfg : Config) :
    i.WellFormed cfg ↔ c < cfg.nCh := by
  obtain htags | ⟨b, ts, rfl⟩ | ⟨sat, rfl⟩ := h
  · cases i <;> cases htags <;> exact Iff.rfl
  · exact Iff.rfl
  · exact Iff.rfl

/-! ### RESET (R81, R204) -/

/-- The state RESET answers. -/
def State.afterReset [Inhabited TS] (s : State TS Sat) (sats : List Sat) : State TS Sat :=
  { s with
    started := true
    time := TimeState.afterReset
    chans := sats.map (ChannelOf.afterReset default)
    out := [] }

/-- RESET on checked parameters and a list of the right length (R81). -/
theorem execReset_eq [Inhabited TS] {sats : List Sat} {s : State TS Sat} (hwf : s.cfg.WF)
    (hlen : sats.length = s.cfg.nCh) : execReset sats s = .next (s.afterReset sats) := by
  simp only [execReset, if_pos hwf, if_pos hlen, State.afterReset]

/-- RESET with a list of the wrong length is ill formed (R80). -/
theorem execReset_illFormed [Inhabited TS] {sats : List Sat} {s : State TS Sat} (hwf : s.cfg.WF)
    (hlen : sats.length ≠ s.cfg.nCh) : execReset sats s = .refused .illFormed := by
  simp only [execReset, if_pos hwf, if_neg hlen]

/-- RESET on parameters that break a condition is refused (R204). -/
theorem execReset_badParameters [Inhabited TS] (sats : List Sat) {s : State TS Sat} (hwf : ¬ s.cfg.WF) :
    execReset sats s = .refused .badParameters := by
  simp only [execReset, if_neg hwf]

/-- If RESET answers a next state, the parameters were good and the list of the right length. -/
theorem execReset_next [Inhabited TS] {sats : List Sat} {s t : State TS Sat} (h : execReset sats s = .next t) :
    s.cfg.WF ∧ sats.length = s.cfg.nCh ∧ t = s.afterReset sats := by
  by_cases hwf : s.cfg.WF
  · by_cases hlen : sats.length = s.cfg.nCh
    · rw [execReset_eq hwf hlen] at h
      cases h
      exact ⟨hwf, hlen, rfl⟩
    · rw [execReset_illFormed hwf hlen] at h
      cases h
  · rw [execReset_badParameters sats hwf] at h
    cases h

/-- Settles O1: the channel of each tag of the list is a fresh one. -/
theorem resetGivesEveryElementItsResetValue : Obligations.ResetGivesEveryElementItsResetValue := by
  intro s sats hwf hlen
  refine ⟨s.afterReset sats, execReset_eq hwf hlen, rfl, rfl, rfl, rfl, rfl, ?count, ?fresh⟩
  case count => exact List.length_map _ |>.trans hlen
  case fresh =>
    intro c sat hc
    refine ⟨Channel.afterReset sat, ?_, ChannelOf.atReset_afterReset 0 sat⟩
    simp only [State.afterReset, List.getElem?_map, hc, Option.map_some]
    rfl

/-! ### QUERY (R85) -/

/-- What a QUERY answers after the first RESET (R85). -/
theorem execQuery_eq {s : State TS Sat} (sod : Rat) (ref : TimeRef) (h : s.started = true) : execQuery sod ref s =
    .next { s with out := [queryAnswer (resolve s.cfg.epoch0.eval s.time sod ref)] } := by
  simp only [execQuery, if_pos h]

theorem execQuery_notStarted {s : State TS Sat} (sod : Rat) (ref : TimeRef) (h : s.started = false) :
    execQuery sod ref s = .refused .beforeReset := by
  simp [execQuery, h]

/-- If a QUERY answers a next state, only the output list has changed. -/
theorem execQuery_next {s t : State TS Sat} {sod : Rat} {ref : TimeRef} (h : execQuery sod ref s = .next t) :
    s.started = true ∧ t = { s with out := [queryAnswer (resolve s.cfg.epoch0.eval s.time sod ref)] } := by
  have hs : s.started = true := by
    by_contra hnot
    rw [execQuery_notStarted sod ref (Bool.eq_false_iff.2 hnot)] at h
    cases h
  rw [execQuery_eq sod ref hs] at h
  cases h
  exact ⟨hs, rfl⟩

/-- While no string 5 has been accepted there is no answer (R167). -/
theorem resolve_invalid {t : TimeState} (h : t.valid = false) (epoch0 : Rat → Rat) (sod : Rat) (ref : TimeRef) :
    resolve epoch0 t sod ref = .unresolved := by
  simp [resolve, h]

/-- With a valid TimeState the answer is the base epoch and the reference's shift (R169, R170). -/
theorem resolve_valid {t : TimeState} (h : t.valid = true) (epoch0 : Rat → Rat) (sod : Rat) (ref : TimeRef) :
    resolve epoch0 t sod ref = .at (epochBase epoch0 t sod + refShift t ref) := by
  simp [resolve, h]

/-- Settles O3. -/
theorem queryBeforeStringFiveIsUnresolved : Obligations.QueryBeforeStringFiveIsUnresolved := by
  intro s sod ref hstarted hinvalid
  rw [exec_query, execQuery_eq sod ref hstarted, resolve_invalid hinvalid]
  rfl

/-- Settles O4: the three references differ in what they add to the base epoch. -/
theorem queryResolvesTheEpoch : Obligations.QueryResolvesTheEpoch := by
  intro s sod hstarted hvalid
  have answer : ∀ ref, exec (.query sod ref) s = .next { s with
      out := [.resolved (epochBase s.cfg.epoch0.eval s.time sod + refShift s.time ref)] } := by
    intro ref
    rw [exec_query, execQuery_eq sod ref hstarted, resolve_valid hvalid]
    rfl
  refine ⟨?glonass, answer .utc, answer .gps⟩
  have hglonass := answer .glonass
  rwa [refShift, add_zero] at hglonass

/-! ### Refusals (R80, R203, R204) -/

/-- Settles O5: only RESET looks at anything but the flag of the first RESET. -/
theorem onlyResetRunsBeforeTheFirstReset : Obligations.OnlyResetRunsBeforeTheFirstReset := by
  intro s i hnot hi
  obtain ⟨sats, rfl⟩ | ⟨sod, ref, rfl⟩ | ⟨c, hacts⟩ := instr_cases i
  · exact absurd rfl (hi sats)
  · exact execQuery_notStarted sod ref hnot
  · obtain ⟨f, hf⟩ := exec_actsOn hacts
    rw [hf, onChannel_notStarted hnot]

/-- Settles O6: with bad parameters RESET refuses, and a state that meets the invariants is not started. -/
theorem badParametersAreRefused : Obligations.BadParametersAreRefused := by
  intro s i hbad hinv
  have hnot : s.started = false := Bool.eq_false_iff.2 fun hstarted => hbad (hinv hstarted).1
  by_cases hreset : ∃ sats, i = .reset sats
  · obtain ⟨sats, rfl⟩ := hreset
    exact ⟨_, execReset_badParameters sats hbad⟩
  · exact ⟨_, onlyResetRunsBeforeTheFirstReset s i hnot fun sats h => hreset ⟨sats, h⟩⟩

/-- Settles O7: in a started state that meets the invariants the parameters are good, and the channels that exist are
those below `N_CH`. -/
theorem exactlyTheWellFormedRun : Obligations.ExactlyTheWellFormedRun := by
  intro s i hstarted hinv
  obtain ⟨hwf, hcount, -⟩ := hinv hstarted
  obtain ⟨sats, rfl⟩ | ⟨sod, ref, rfl⟩ | ⟨c, hacts⟩ := instr_cases i
  · exact ⟨fun hlen => ⟨_, execReset_eq hwf hlen⟩, fun hlen => execReset_illFormed hwf hlen⟩
  · exact ⟨fun _ => ⟨_, execQuery_eq sod ref hstarted⟩, fun hill => absurd trivial hill⟩
  · obtain ⟨f, hf⟩ := exec_actsOn hacts
    rw [wellFormed_iff_of_actsOn hacts, ← hcount, hf]
    exact ⟨fun hlt => ⟨_, onChannel_eq hstarted (List.getElem?_eq_getElem hlt)⟩,
      fun hge => onChannel_missing hstarted (List.getElem?_eq_none (Nat.le_of_not_lt hge))⟩

/-! ### What an instruction leaves alone (R32, R51, R87, R202) -/

/-- No instruction changes the parameters or the queue. -/
theorem exec_keeps_cfg_ops {i : Instr} {s t : State} (h : exec i s = .next t) : t.cfg = s.cfg ∧ t.ops = s.ops := by
  obtain ⟨sats, rfl⟩ | ⟨sod, ref, rfl⟩ | ⟨c, hacts⟩ := instr_cases i
  · obtain ⟨-, -, rfl⟩ := execReset_next h
    exact ⟨rfl, rfl⟩
  · obtain ⟨-, rfl⟩ := execQuery_next h
    exact ⟨rfl, rfl⟩
  · obtain ⟨f, hf⟩ := exec_actsOn hacts
    obtain ⟨-, ch, -, rfl⟩ := onChannel_next ((hf s).symm.trans h)
    exact ⟨rfl, rfl⟩

/-- If a step answers a next state, it was idle, or it ran the first queued operation on an empty output list. -/
theorem step_next {s t : State} (h : step s = .next t) :
    (s.ops = [] ∧ t = { s with out := [] }) ∨
    ∃ op rest, s.ops = op :: rest ∧ exec op.instr { s with ops := rest, out := [] } = .next t := by
  unfold step stepWith at h
  split at h
  · next hops =>
    cases h
    exact .inl ⟨hops, rfl⟩
  · next op rest hops => exact .inr ⟨op, rest, hops, h⟩

/-- Settles O58. -/
theorem stepRunsTheQueuedOperation : Obligations.StepRunsTheQueuedOperation := by
  intro s op rest
  constructor
  · intro hops
    simp only [step, stepWith, hops]
  · intro hops
    simp only [step, stepWith, hops]

/-- Settles O45. -/
theorem parametersNeverChange : Obligations.ParametersNeverChange := by
  intro s t h
  obtain ⟨-, rfl⟩ | ⟨op, rest, -, hexec⟩ := step_next h
  · rfl
  · obtain ⟨hcfg, -⟩ := exec_keeps_cfg_ops hexec
    exact hcfg

/-- Settles O42: the rule's result is written back to its own channel, TimeState and the output list. -/
theorem otherChannelsAreNotWritten : Obligations.OtherChannelsAreNotWritten := by
  intro s t i c d h hacts hd
  obtain ⟨f, hf⟩ := exec_actsOn hacts
  obtain ⟨-, ch, -, rfl⟩ := onChannel_next ((hf s).symm.trans h)
  exact ⟨getElem?_putView_ne _ hd, List.length_set, rfl, rfl⟩

/-- A rule on one channel goes the same way from two states that agree on what it is given. -/
theorem onChannel_agreeOn {c : Nat} (f : Local → Local) {s t : State} (h : s.AgreeOn c t) :
    OutcomesAgree (State.AgreeOn c) (onChannel c f s) (onChannel c f t) := by
  obtain ⟨hcfg, hstarted, htime, hchan, hout⟩ := h
  cases hs : s.started with
  | false =>
    rw [onChannel_notStarted hs, onChannel_notStarted (hstarted ▸ hs)]
    rfl
  | true =>
    cases hc : s.chans[c]? with
    | none =>
      rw [onChannel_missing hs hc, onChannel_missing (hstarted ▸ hs) (hchan ▸ hc)]
      rfl
    | some ch =>
      have hview : s.view ch = t.view ch := by rw [State.view, State.view, hcfg, htime, hout]
      rw [onChannel_eq hs hc, onChannel_eq (hstarted ▸ hs) (hchan ▸ hc), hview]
      refine ⟨hcfg, hstarted, rfl, ?_, rfl⟩
      rw [getElem?_putView_self _ hc, getElem?_putView_self _ (hchan ▸ hc)]

/-- Settles O43: what acts on a channel is a rule on it. -/
theorem otherChannelsAreNotRead : Obligations.OtherChannelsAreNotRead := by
  intro s t i c hagree hacts
  obtain ⟨f, hf⟩ := exec_actsOn hacts
  rw [hf, hf]
  exact onChannel_agreeOn f hagree

end Sys2Proof.Machine
end

section
/-! PROOFS. Encoding and decoding are inverse to each other (R55, R58, R59, R68, R77, R88). -/

namespace Sys2Proof.Machine

variable {TS Sat : Type}

/-- The encoding of the string of an id: the time mark, then the data word of the id and the payload (R49, R55). -/
theorem encode_instrOfId (mark : TimeMark) (id : BitVec 4) (c : Nat) (p : Payload) (ts : TS) :
    encode mark (instrOfId id.toNat c p ts : Instr TS Sat) = some (rawOf mark (p.dataWord id)) := by
  have hid : (instrOfId id.toNat c p ts : Instr TS Sat).id? = some id := by
    rw [id?_instrOfId id.isLt, BitVec.ofNat_toNat, BitVec.setWidth_eq]
  simp only [encode, hid, payload?_instrOfId]

/-- A RawString made of a mark, an id and a payload is the string of that id and payload; the mark takes no part
(R84). -/
theorem decodeRaw_rawOf (mark : TimeMark) (id : BitVec 4) (c : Nat) (p : Payload) (ts : TS) :
    (decodeRaw c ts (rawOf mark (p.dataWord id)) : Instr TS Sat) = instrOfId id.toNat c p ts := by
  rw [decodeRaw, rawData_rawOf, stringId_dataWord, payloadOf_dataWord]

/-- What a RawString decodes to encodes, after the same time mark, to the RawString. -/
theorem encode_decodeRaw (c : Nat) (ts : TS) (rs : RawBits) :
    encode (rawMark rs) (decodeRaw c ts rs : Instr TS Sat) = some rs := by
  have hid : stringId (rawData rs) = (BitVec.ofNat 4 (stringId (rawData rs))).toNat := by
    rw [BitVec.toNat_ofNat, Nat.mod_eq_of_lt (stringId_lt _)]
  rw [decodeRaw, hid, encode_instrOfId, dataWord_payloadOf, rawOf_rawMark_rawData]

/-- A list of 115 bits decodes to what its RawString is (R55). -/
theorem decode_of_length {bits : List Bit} (h : bits.length = 115) (c : Nat) (ts : TS) :
    (decode c ts bits : Except DecodeError (Instr TS Sat)) = .ok (decodeRaw c ts (packBits bits)) := by
  rw [decode, if_pos h]

/-- The bits of a RawString decode to what it is. -/
theorem decode_unpackBits (c : Nat) (ts : TS) (rs : RawBits) :
    (decode c ts (unpackBits rs) : Except DecodeError (Instr TS Sat)) = .ok (decodeRaw c ts rs) := by
  rw [decode_of_length (length_unpackBits rs), packBits_unpackBits]

/-- Settles O54: an instruction with tags is the string of its id and payload, and these are what its encoding
holds. -/
theorem decodeOfEncodeIsTheInstruction : Obligations.DecodeOfEncodeIsTheInstruction := by
  intro mark i
  constructor
  · intro c ts htags
    obtain ⟨id, p, rfl⟩ := eq_instrOfId_of_tags? htags
    refine ⟨_, encode_instrOfId mark id c p ts, rawMark_rawOf mark _, ?_⟩
    rw [decode_unpackBits, decodeRaw_rawOf]
  · intro htags
    cases instrKind i with
    | string id c p ts => rw [tags?_instrOfId] at htags; cases htags
    | _ => rfl

/-- Settles O55: packing and unpacking 115 bits, and splitting a RawString into mark, id and payload, lose nothing. -/
theorem encodeOfDecodeIsTheString : Obligations.EncodeOfDecodeIsTheString := by
  intro c ts bits
  constructor
  · intro hlen
    refine ⟨_, decode_of_length hlen c ts, tags?_instrOfId _ c _ ts, ?_⟩
    rw [encode_decodeRaw, Option.map_some, unpackBits_packBits bits hlen]
  · intro hlen
    rw [decode, if_neg hlen]

/-- A word of the opcode table is the RawString of its number, on channel 0 with timestamp 0. -/
theorem decodeTableWord_eq {nbits w : Nat} (hn : nbits ≠ 0) (hw : w < 2 ^ 115) :
    decodeTableWord nbits w = some (decodeRaw 0 0 (BitVec.ofNat 115 w)) := by
  rw [decodeTableWord, if_neg (by omega), decode_unpackBits]

/-- A row of the opcode table that decodes has bits, and is the RawString of its number. -/
theorem decodeTableWord_some {nbits w : Nat} {i : Instr} (h : decodeTableWord nbits w = some i) :
    nbits ≠ 0 ∧ i = decodeRaw 0 0 (BitVec.ofNat 115 w) := by
  by_cases hnone : nbits = 0 ∨ 2 ^ 115 ≤ w
  · rw [decodeTableWord, if_pos hnone] at h
    cases h
  · rw [not_or, Nat.not_le] at hnone
    obtain ⟨hn, hw⟩ := hnone
    rw [decodeTableWord_eq hn hw] at h
    cases h
    exact ⟨hn, rfl⟩

/-- Settles O57: each word is split into its id and payload by evaluation. -/
theorem writtenOutWordsDecode : Obligations.WrittenOutWordsDecode := by
  have word : ∀ w < 2 ^ 115, decodeTableWord 88 w = some (decodeRaw 0 0 (BitVec.ofNat 115 w)) :=
    fun w hw => decodeTableWord_eq (by decide) hw
  refine ⟨?id0, ?id1, ?id4, ?id5, ?id6, ?id15⟩
  all_goals
    rw [word _ (by norm_num)]
    rfl

end Sys2Proof.Machine
end

section
/-! PROOFS. The hamming_validator: check bits are parities (R105 to R108), the facts about the reference table (R113),
and the check-bit filler (R114). -/

namespace Sys2Proof.Machine

/-! ### Parity -/

/-- The exclusive or of `g` over a list of positions. -/
def parity (g : Nat → Bool) (l : List Nat) : Bool := l.foldl (fun acc p => acc ^^ g p) false

/-- A recomputed check bit is the parity of its row's positions (R107). -/
theorem calcBit_eq_parity (d : DataWord) (r : HammingRow) : calcBit d r = parity (dataBit d) r.sub := rfl

@[simp] theorem parity_nil (g : Nat → Bool) : parity g [] = false := rfl

@[simp] theorem parity_cons (g : Nat → Bool) (p : Nat) (l : List Nat) : parity g (p :: l) = (g p ^^ parity g l) := by
  have key : ∀ (l : List Nat) (a : Bool), l.foldl (fun acc p => acc ^^ g p) a = (a ^^ parity g l) := by
    intro l
    induction l with
    | nil => simp
    | cons q l ih =>
      intro a
      simp only [parity, List.foldl_cons] at ih ⊢
      rw [ih, ih (false ^^ g q), Bool.false_xor, Bool.xor_assoc]
  rw [parity, List.foldl_cons, key, Bool.false_xor]

theorem parity_congr {g h : Nat → Bool} {l : List Nat} (heq : ∀ p ∈ l, g p = h p) : parity g l = parity h l := by
  induction l with
  | nil => rfl
  | cons p l ih =>
    rw [List.forall_mem_cons] at heq
    obtain ⟨hp, hl⟩ := heq
    rw [parity_cons, parity_cons, hp, ih hl]

/-- A parity is 1 exactly when an odd number of the positions hold a one. -/
theorem parity_eq_true_iff (g : Nat → Bool) (l : List Nat) : parity g l = true ↔ l.countP g % 2 = 1 := by
  induction l with
  | nil => simp
  | cons p l ih =>
    rw [parity_cons, List.countP_cons]
    cases hp : g p with
    | false => simpa using ih
    | true =>
      cases hl : parity g l <;> simp only [hl, Bool.false_eq_true, false_iff, true_iff] at ih <;> simp <;> omega

theorem parity_xor (g h : Nat → Bool) (l : List Nat) : parity (fun p => g p ^^ h p) l = (parity g l ^^ parity h l) := by
  induction l with
  | nil => rfl
  | cons p l ih =>
    rw [parity_cons, parity_cons, parity_cons, ih, Bool.xor_assoc, Bool.xor_assoc, Bool.xor_left_comm (h p)]

/-- The parity of a constant one is that of the length. -/
theorem parity_true (l : List Nat) : parity (fun _ => true) l = decide (l.length % 2 = 1) := by
  rw [Bool.eq_iff_iff, parity_eq_true_iff, decide_eq_true_iff, List.countP_true]

/-- In a list without repeats, a position occurs an odd number of times exactly when it occurs. -/
theorem parity_beq {l : List Nat} (hnodup : l.Nodup) (p : Nat) : parity (fun q => q == p) l = decide (p ∈ l) := by
  rw [Bool.eq_iff_iff, parity_eq_true_iff, decide_eq_true_iff, ← List.count, List.Nodup.count hnodup]
  split <;> simp_all

/-! ### The syndrome -/

/-- The positions of a row: its check position and its set. -/
abbrev rowPositions (r : HammingRow) : List Nat := r.chk :: r.sub

/-- A bit of the syndrome is the parity of the row's positions, the check bit included (R107). -/
theorem synBit_eq_parity (d : DataWord) (r : HammingRow) : synBit d r = parity (dataBit d) (rowPositions r) := by
  rw [synBit, calcBit_eq_parity, parity_cons, Bool.xor_comm]

theorem synBit_congr {d e : DataWord} {r : HammingRow} (h : ∀ p ∈ rowPositions r, dataBit d p = dataBit e p) :
    synBit d r = synBit e r := by
  rw [synBit_eq_parity, synBit_eq_parity, parity_congr h]

/-- A word is accepted exactly when every bit of its syndrome is 0 (R108). -/
theorem hammingAccept_iff {ht : List HammingRow} {d : DataWord} :
    hammingAccept ht d = true ↔ ∀ r ∈ ht, synBit d r = false := by
  simp [hammingAccept]

/-- A word is rejected exactly when some bit of its syndrome is 1 (R108). -/
theorem hammingAccept_eq_false_iff {ht : List HammingRow} {d : DataWord} :
    hammingAccept ht d = false ↔ ∃ r ∈ ht, synBit d r = true := by
  simp [hammingAccept]

/-- Settles O19. -/
theorem verdictIsTheEightParities : Obligations.VerdictIsTheEightParities := by
  intro ht d e
  refine ⟨fun r => ?parity, ?compares, fun hagree => ?depends⟩
  case parity => rw [calcBit_eq_parity, parity_eq_true_iff]
  case compares =>
    rw [hammingAccept_iff]
    simp only [synBit, bne_eq_false_iff_eq]
  case depends =>
    rw [Bool.eq_iff_iff, hammingAccept_iff, hammingAccept_iff]
    exact forall₂_congr fun r hr => by rw [synBit_congr (hagree r hr)]

/-! ### Complemented positions -/

/-- A word with the positions of a list complemented, one after another. -/
abbrev flipBits (d : DataWord) (ps : List Nat) : DataWord := ps.foldl (fun e p => setDataBit e p (!dataBit e p)) d

/-- Complementing one position flips the bit there and no other. -/
theorem dataBit_flip (d : DataWord) {p : Nat} (hp : 1 ≤ p ∧ p ≤ 85) (q : Nat) :
    dataBit (setDataBit d p (!dataBit d p)) q = (dataBit d q ^^ (q == p)) := by
  rw [dataBit_setDataBit]
  by_cases hq : q = p
  · simp [hq, hp]
  · simp [hq, beq_eq_false_iff_ne.2 hq]

/-- Complementing positions flips a bit of the syndrome once for each of them that the row holds. -/
theorem synBit_flipBits {r : HammingRow} (hwf : r.WF) {ps : List Nat} (hps : ∀ p ∈ ps, 1 ≤ p ∧ p ≤ 85) (d : DataWord) :
    synBit (flipBits d ps) r = (synBit d r ^^ parity (fun p => decide (p ∈ rowPositions r)) ps) := by
  obtain ⟨-, -, hnotin, hnodup⟩ := hwf
  have hpositions : (rowPositions r).Nodup := List.nodup_cons.2 ⟨hnotin, hnodup⟩
  induction ps generalizing d with
  | nil => simp
  | cons p ps ih =>
    rw [List.forall_mem_cons] at hps
    obtain ⟨hp, hrest⟩ := hps
    have hflip : synBit (setDataBit d p (!dataBit d p)) r = (synBit d r ^^ decide (p ∈ rowPositions r)) := by
      rw [synBit_eq_parity, synBit_eq_parity, ← parity_beq hpositions p, ← parity_xor]
      exact parity_congr fun q _ => dataBit_flip d hp q
    rw [flipBits, List.foldl_cons, ← flipBits, ih hrest, hflip, parity_cons, Bool.xor_assoc]

/-- The complement of a word flips a bit of the syndrome once for each position of the row. -/
theorem synBit_not {r : HammingRow} (hwf : r.WF) (d : DataWord) :
    synBit (~~~d) r = (synBit d r ^^ decide ((rowPositions r).length % 2 = 1)) := by
  obtain ⟨hchk, hsub, -, -⟩ := hwf
  have hrange : ∀ p ∈ rowPositions r, 1 ≤ p ∧ p ≤ 85 := List.forall_mem_cons.2 ⟨hchk, hsub⟩
  rw [synBit_eq_parity, synBit_eq_parity, ← parity_true, ← parity_xor]
  exact parity_congr fun p hp => by rw [dataBit_not d p (hrange p hp), Bool.xor_true]

/-! ### The reference table (R112, R113) -/

theorem htRef_wf : HammingWF htRef := by decide +kernel

theorem htRef_row_wf {r : HammingRow} (hr : r ∈ htRef) : r.WF :=
  have ⟨_, hrows, _⟩ := htRef_wf
  hrows r hr

/-- The last row of the reference table holds every position: it is the parity of the whole word. -/
theorem htRef_overall_row : ∃ r ∈ htRef, ∀ p, 1 ≤ p ∧ p ≤ 85 → p ∈ rowPositions r := by
  refine ⟨⟨78, span 1 77 ++ span 79 85⟩, by decide +kernel, fun p hp => ?_⟩
  simp only [List.mem_cons, List.mem_append, span, List.mem_range'_1]
  omega

/-- The column of a position: which rows of the reference table hold it. -/
def htRefColumn (p : Nat) : List Bool := htRef.map fun r => decide (p ∈ rowPositions r)

/-- No two positions have the same column. -/
theorem htRefColumn_nodup : ((List.range' 1 85).map htRefColumn).Nodup := by decide +kernel

/-- Two different positions are told apart by some row of the reference table. -/
theorem htRef_separates {p q : Nat} (hp : 1 ≤ p ∧ p ≤ 85) (hq : 1 ≤ q ∧ q ≤ 85) (hne : p ≠ q) :
    ∃ r ∈ htRef, decide (p ∈ rowPositions r) ≠ decide (q ∈ rowPositions r) := by
  by_contra hsame
  push Not at hsame
  have hcolumn : htRefColumn p = htRefColumn q := List.map_congr_left hsame
  refine hne (List.inj_on_of_nodup_map htRefColumn_nodup ?_ ?_ hcolumn) <;> rw [List.mem_range'_1] <;> omega

/-- Complementing an odd number of positions is seen by the overall row. -/
theorem htRef_detects_odd {ps : List Nat} (hps : ∀ p ∈ ps, 1 ≤ p ∧ p ≤ 85) (hodd : ps.length % 2 = 1) :
    ∃ r ∈ htRef, parity (fun p => decide (p ∈ rowPositions r)) ps = true := by
  obtain ⟨r, hr, hall⟩ := htRef_overall_row
  refine ⟨r, hr, ?_⟩
  rw [parity_congr (h := fun _ => true) fun p hp => decide_eq_true (hall p (hps p hp)), parity_true, hodd]
  rfl

/-- Complementing one, two or three positions is seen by some row: an odd number by the overall row, two by a row that
tells them apart. -/
theorem htRef_detects {ps : List Nat} (hnodup : ps.Nodup) (hps : ∀ p ∈ ps, 1 ≤ p ∧ p ≤ 85) (hne : ps ≠ [])
    (hlen : ps.length ≤ 3) : ∃ r ∈ htRef, parity (fun p => decide (p ∈ rowPositions r)) ps = true := by
  match ps with
  | [] => exact absurd rfl hne
  | [_] => exact htRef_detects_odd hps rfl
  | [p, q] =>
    have hpq : p ≠ q := by simpa using hnodup
    obtain ⟨r, hr, hdiff⟩ := htRef_separates (hps p (by simp)) (hps q (by simp)) hpq
    exact ⟨r, hr, by simpa only [parity_cons, parity_nil, Bool.xor_false, bne_iff_ne] using hdiff⟩
  | [_, _, _] => exact htRef_detects_odd hps (by simp)
  | _ :: _ :: _ :: _ :: _ =>
    simp only [List.length_cons] at hlen
    omega

/-- Settles O21: the syndrome of the accepted word was 0, and the row that sees the change makes it 1. -/
theorem referenceTableDetectsThreeErrors : Obligations.ReferenceTableDetectsThreeErrors := by
  intro d ps haccept hnodup hps hne hlen
  obtain ⟨r, hr, hseen⟩ := htRef_detects hnodup hps hne hlen
  refine hammingAccept_eq_false_iff.2 ⟨r, hr, ?_⟩
  rw [synBit_flipBits (htRef_row_wf hr) hps, hammingAccept_iff.1 haccept r hr, hseen]
  rfl

/-- Every row of the reference table holds an even number of the positions 1, 2, 6 and 13. -/
theorem htRef_misses_four : ∀ r ∈ htRef, parity (fun p => decide (p ∈ rowPositions r)) [1, 2, 6, 13] = false := by
  decide +kernel

/-- Which rows of the reference table hold an odd number of positions. -/
theorem htRef_row_parities : htRef.map (fun r => decide ((rowPositions r).length % 2 = 1)) =
    [false, false, true, false, true, false, true, true] := by decide +kernel

/-- The complement of an accepted word has the syndrome of the rows' parities. -/
theorem syndrome_not {d : DataWord} (haccept : hammingAccept htRef d = true) :
    syndrome htRef (~~~d) = [false, false, true, false, true, false, true, true] := by
  rw [← htRef_row_parities]
  refine List.map_congr_left fun r hr => ?_
  rw [synBit_not (htRef_row_wf hr), hammingAccept_iff.1 haccept r hr, Bool.false_xor]

/-- Settles O22. -/
theorem referenceTableKnownPatterns : Obligations.ReferenceTableKnownPatterns := by
  refine ⟨by decide +kernel, fun d haccept => ⟨?four, ?rejected, syndrome_not haccept⟩⟩
  case four =>
    refine hammingAccept_iff.2 fun r hr => ?_
    rw [synBit_flipBits (htRef_row_wf hr) (by decide), hammingAccept_iff.1 haccept r hr, htRef_misses_four r hr]
    rfl
  case rejected =>
    have hone : true ∈ syndrome htRef (~~~d) := by rw [syndrome_not haccept]; decide
    obtain ⟨r, hr, hbit⟩ := List.mem_map.1 hone
    exact hammingAccept_eq_false_iff.2 ⟨r, hr, hbit⟩

/-! ### The check-bit filler (R114) -/

theorem fill_cons (r : HammingRow) (ht : List HammingRow) (d : DataWord) :
    fill (r :: ht) d = fill ht (setDataBit d r.chk (calcBit d r)) := rfl

/-- The filler writes check positions only. -/
theorem dataBit_fill_of_notMem {ht : List HammingRow} {p : Nat} (hp : p ∉ ht.map (·.chk)) (d : DataWord) :
    dataBit (fill ht d) p = dataBit d p := by
  induction ht generalizing d with
  | nil => rfl
  | cons r ht ih =>
    rw [List.map_cons, List.mem_cons, not_or] at hp
    obtain ⟨hne, hrest⟩ := hp
    rw [fill_cons, ih hrest, dataBit_setDataBit, if_neg (not_and_of_not_left _ hne)]

/-- A row whose check bit is written from its set has syndrome 0: the set does not hold the check position. -/
theorem synBit_setDataBit_calcBit {r : HammingRow} (hchk : 1 ≤ r.chk ∧ r.chk ≤ 85) (hnotin : r.chk ∉ r.sub)
    (d : DataWord) : synBit (setDataBit d r.chk (calcBit d r)) r = false := by
  have hsub : calcBit (setDataBit d r.chk (calcBit d r)) r = calcBit d r := by
    rw [calcBit_eq_parity, calcBit_eq_parity]
    refine parity_congr fun p hp => ?_
    have hne : p ≠ r.chk := fun h => hnotin (h ▸ hp)
    rw [dataBit_setDataBit, if_neg (not_and_of_not_left _ hne)]
  rw [synBit, hsub, dataBit_setDataBit, if_pos ⟨rfl, hchk⟩, Bool.xor_self]

/-- The filler makes every row's syndrome 0: what it writes after a row is in no position of that row. -/
theorem hammingAccept_fill {ht : List HammingRow} (hchk : ∀ r ∈ ht, 1 ≤ r.chk ∧ r.chk ≤ 85)
    (hnodup : (ht.map (·.chk)).Nodup) (hfill : Fillable ht) (d : DataWord) : hammingAccept ht (fill ht d) = true := by
  induction ht generalizing d with
  | nil => rfl
  | cons r ht ih =>
    obtain ⟨hpairs, hown⟩ := hfill
    rw [List.pairwise_cons] at hpairs
    rw [List.forall_mem_cons] at hchk hown
    rw [List.map_cons, List.nodup_cons] at hnodup
    obtain ⟨hlater, hpairs⟩ := hpairs
    obtain ⟨hr, hchk⟩ := hchk
    obtain ⟨hrown, hown⟩ := hown
    obtain ⟨hfresh, hnodup⟩ := hnodup
    have hrest := hammingAccept_iff.1 (ih hchk hnodup ⟨hpairs, hown⟩ (setDataBit d r.chk (calcBit d r)))
    have hkept : ∀ p ∈ rowPositions r, p ∉ ht.map (·.chk) := by
      refine List.forall_mem_cons.2 ⟨hfresh, fun p hp hmem => ?_⟩
      obtain ⟨r', hr', rfl⟩ := List.mem_map.1 hmem
      exact hlater r' hr' hp
    refine hammingAccept_iff.2 (List.forall_mem_cons.2 ⟨?_, hrest⟩)
    rw [fill_cons, synBit_congr fun p hp => dataBit_fill_of_notMem (hkept p hp) _, synBit_setDataBit_calcBit hr hrown]

/-- Settles O23. -/
theorem fillGivesAnAcceptedWord : Obligations.FillGivesAnAcceptedWord := by
  refine ⟨by decide +kernel, fun ht d hwf hfill => ?_⟩
  obtain ⟨-, hrows, hnodup⟩ := hwf
  have hchk : ∀ r ∈ ht, 1 ≤ r.chk ∧ r.chk ≤ 85 := fun r hr => have ⟨h, _⟩ := hrows r hr; h
  exact ⟨hammingAccept_fill hchk hnodup hfill d, fun p hp => dataBit_fill_of_notMem hp d⟩

end Sys2Proof.Machine
end

section
/-! PROOFS. The bit_field_extractor: raw values and signednesses (R118 to R121), what it does not read (R66), and the
round trip with `ENC` (R126, R127); the merge of field maps (R133). -/

namespace Sys2Proof.Machine

/-! ### Raw values (R9, R118) -/

/-- The raw value of `n` bits is below `2^n`. -/
theorem fld_lt (d : DataWord) (s n : Nat) : fld d s n < 2 ^ n := by
  induction n with
  | zero => simp [fld]
  | succ n ih =>
    have hbit := Bool.toNat_lt (dataBit d (s + n))
    rw [fld, Nat.pow_succ]
    omega

/-- A raw value depends on its own positions only. -/
theorem fld_congr {d e : DataWord} {s n : Nat} (h : ∀ p, s ≤ p → p < s + n → dataBit d p = dataBit e p) :
    fld d s n = fld e s n := by
  induction n with
  | zero => rfl
  | succ n ih =>
    rw [fld, fld, ih fun p h1 h2 => h p h1 (by omega), h (s + n) (by omega) (by omega)]

theorem fld_zero (s n : Nat) : fld 0#85 s n = 0 := by
  induction n with
  | zero => rfl
  | succ n ih => simp [fld, ih, dataBit]

/-! ### Signednesses (R119 to R121) -/

/-- Sign-magnitude: the magnitude is below the sign bit's weight (R120). -/
theorem smag_range (n v : Nat) : -((2 : Int) ^ (n - 1)) < smag n v ∧ smag n v < 2 ^ (n - 1) := by
  have hmod : v % 2 ^ (n - 1) < 2 ^ (n - 1) := Nat.mod_lt _ (by positivity)
  have hcast : ((2 ^ (n - 1) : Nat) : Int) = 2 ^ (n - 1) := by norm_cast
  unfold smag
  split <;> omega

/-- Two's complement: a raw value of `n` bits is in the range of R121. -/
theorem sext_range {n v : Nat} (hn : 1 ≤ n) (hv : v < 2 ^ n) :
    -((2 : Int) ^ (n - 1)) ≤ sext n v ∧ sext n v < 2 ^ (n - 1) := by
  obtain ⟨m, rfl⟩ := Nat.exists_eq_add_of_le' hn
  have hcast : ((2 ^ m : Nat) : Int) = 2 ^ m := by norm_cast
  rw [Nat.pow_succ] at hv
  simp only [sext, Nat.add_sub_cancel, pow_succ]
  split <;> omega

/-- The raw value 0 stands for 0 in every signedness. -/
theorem ival_zero (sg : Signedness) (n : Nat) : ival sg n 0 = 0 := by
  cases sg <;> simp [ival, smag, sext]

/-- Settles O25. -/
theorem signednessRanges : Obligations.SignednessRanges := by
  intro d s n hn
  have hpos : 0 < 2 ^ (n - 1) := by positivity
  exact ⟨fld_lt d s n, rfl, smag_range n _, sext_range hn (fld_lt d s n), by simp [ival, smag]⟩

/-! ### What an extraction reads (R66) -/

/-- Settles O26: the loop of `EXTRACT` reads a word through the raw values of its fields only. -/
theorem uncoveredPositionsAreIgnored : Obligations.UncoveredPositionsAreIgnored := by
  intro t cls d e hagree
  have hvalue : ∀ f ∈ t.specs cls, fieldValue d f = fieldValue e f := fun f hf => by
    rw [fieldValue, fieldValue, fld_congr (hagree f hf)]
  exact List.foldl_ext _ _ _ fun m f hf => by rw [hvalue f hf]

/-! ### `ENC` (R127) -/

/-- Writing a field changes no position outside it. -/
theorem dataBit_writeField_of_outside {s n p : Nat} (hp : p < s ∨ s + n ≤ p) (d : DataWord) (raw : Nat) :
    dataBit (writeField d s n raw) p = dataBit d p := by
  induction n generalizing raw with
  | zero => rfl
  | succ n ih =>
    have hne : p ≠ s + n := by omega
    rw [writeField, dataBit_setDataBit, if_neg (not_and_of_not_left _ hne), ih (by omega)]

/-- A written field reads as its low bits. -/
theorem fld_writeField {s n : Nat} (hs : 1 ≤ s) (hend : s + n - 1 ≤ 85) (d : DataWord) (raw : Nat) :
    fld (writeField d s n raw) s n = raw % 2 ^ n := by
  induction n generalizing raw with
  | zero => simp [fld, Nat.mod_one]
  | succ n ih =>
    have hlast : dataBit (writeField d s (n + 1) raw) (s + n) = decide (raw % 2 = 1) := by
      rw [writeField, dataBit_setDataBit, if_pos ⟨rfl, by omega, by omega⟩]
    have hfront : fld (writeField d s (n + 1) raw) s n = raw / 2 % 2 ^ n := by
      rw [← ih (by omega)]
      refine fld_congr fun p _ hlt => ?_
      have hne : p ≠ s + n := by omega
      rw [writeField, dataBit_setDataBit, if_neg (not_and_of_not_left _ hne)]
    have hbit : (decide (raw % 2 = 1)).toNat = raw % 2 := by
      obtain h | h := Nat.mod_two_eq_zero_or_one raw <;> simp [h]
    rw [fld, hfront, hlast, hbit, Nat.pow_succ', Nat.mod_mul]
    omega

/-- An integer a field admits comes back from its raw value, which fits the field (R126). -/
theorem ival_rawOfInt {sg : Signedness} {n : Nat} {v : Int} (hn : 1 ≤ n) (h : fieldAdmits sg n v) :
    ival sg n (rawOfInt sg n v % 2 ^ n) = v := by
  obtain ⟨m, rfl⟩ := Nat.exists_eq_add_of_le' hn
  have hcast : ((2 ^ m : Nat) : Int) = 2 ^ m := by norm_cast
  have hcast' : ((2 ^ (m + 1) : Nat) : Int) = 2 ^ (m + 1) := by norm_cast
  cases sg with
  | u =>
    obtain ⟨h0, hlt⟩ : 0 ≤ v ∧ v < 2 ^ (m + 1) := h
    simp only [ival, rawOfInt]
    rw [Nat.mod_eq_of_lt (by omega)]
    omega
  | sm =>
    obtain ⟨hlow, hhigh⟩ : -(2 ^ m) < v ∧ v < 2 ^ m := h
    have hdouble : 2 ^ (m + 1) = 2 * 2 ^ m := Nat.pow_succ'
    simp only [ival, rawOfInt, smag, Nat.add_sub_cancel]
    by_cases hneg : v < 0
    · rw [if_pos hneg, Nat.mod_eq_of_lt (a := v.natAbs + 2 ^ m) (by omega), if_neg (by omega), Nat.add_mod_right,
        Nat.mod_eq_of_lt (by omega)]
      omega
    · rw [if_neg hneg, Nat.add_zero, Nat.mod_eq_of_lt (b := 2 ^ (m + 1)) (by omega), if_pos (by omega),
        Nat.mod_eq_of_lt (by omega)]
      omega
  | tc =>
    obtain ⟨hlow, hhigh⟩ : -(2 ^ m) ≤ v ∧ v < 2 ^ m := h
    have hdouble : (2 : Int) ^ (m + 1) = 2 * 2 ^ m := pow_succ' 2 m
    simp only [ival, rawOfInt, sext, Nat.add_sub_cancel]
    by_cases hneg : v < 0
    · have hmod : v % 2 ^ (m + 1) = v + 2 ^ (m + 1) := by
        rw [← Int.add_emod_right, Int.emod_eq_of_lt (by omega) (by omega)]
      rw [hmod, Nat.mod_eq_of_lt (by omega), if_neg (by omega)]
      omega
    · rw [Int.emod_eq_of_lt (by omega) (by omega), Nat.mod_eq_of_lt (by omega), if_pos (by omega)]
      omega

/-- Writing a field changes no field that is disjoint from it. -/
theorem fld_encField_of_disjoint {f g : FieldSpec} (h : g.Disjoint f) (vals : FieldInts) (d : DataWord) :
    fld (encField vals d g) f.start f.len = fld d f.start f.len := by
  unfold encField
  split
  · exact fld_congr fun p h1 h2 => dataBit_writeField_of_outside (by omega) _ _
  · rfl

theorem fld_encFields_of_disjoint {f : FieldSpec} {l : List FieldSpec} (h : ∀ g ∈ l, g.Disjoint f) (vals : FieldInts)
    (d : DataWord) : fld (l.foldl (encField vals) d) f.start f.len = fld d f.start f.len := by
  induction l generalizing d with
  | nil => rfl
  | cons g l ih =>
    rw [List.forall_mem_cons] at h
    obtain ⟨hg, hl⟩ := h
    rw [List.foldl_cons, ih hl, fld_encField_of_disjoint hg]

/-- A field reads as its integer's raw value if it is named, and as before if it is not. -/
theorem fld_encField_self {f : FieldSpec} (hrange : f.InRange) (vals : FieldInts) (d : DataWord) :
    fld (encField vals d f) f.start f.len =
      (vals.lookup f.name).elim (fld d f.start f.len) fun v => rawOfInt f.sign f.len v % 2 ^ f.len := by
  obtain ⟨-, hstart, hend⟩ := hrange
  unfold encField
  split
  · next v hv => rw [fld_writeField hstart hend, hv, Option.elim_some]
  · next hv => rw [hv, Option.elim_none]

/-- Among disjoint fields each keeps what `ENC` writes in it. -/
theorem fld_encFields {l : List FieldSpec} (hpairs : l.Pairwise FieldSpec.Disjoint) {f : FieldSpec} (hf : f ∈ l)
    (hrange : f.InRange) (vals : FieldInts) (d : DataWord) : fld (l.foldl (encField vals) d) f.start f.len =
      (vals.lookup f.name).elim (fld d f.start f.len) fun v => rawOfInt f.sign f.len v % 2 ^ f.len := by
  induction l generalizing d with
  | nil => cases hf
  | cons g l ih =>
    rw [List.pairwise_cons] at hpairs
    obtain ⟨hg, hl⟩ := hpairs
    rw [List.foldl_cons]
    obtain rfl | hmem := List.mem_cons.1 hf
    · rw [fld_encFields_of_disjoint (fun g' hg' => (hg g' hg').symm) vals, fld_encField_self hrange]
    · rw [ih hl hmem, fld_encField_of_disjoint (hg f hmem)]

/-- A field other than `STRING_ID` covers none of the id's positions (R63, R64). -/
theorem stringIdSpec_disjoint {l : List FieldSpec} (hwf : ClassWF l) {f : FieldSpec} (hf : f ∈ l)
    (hname : f.name ≠ .stringId) : stringIdSpec.Disjoint f := by
  obtain ⟨-, hpairs, hid⟩ := hwf
  have hsymm : Std.Symm fun f g : FieldSpec => f.name ≠ g.name ∧ f.Disjoint g :=
    ⟨fun _ _ ⟨hne, hdisjoint⟩ => ⟨hne.symm, hdisjoint.symm⟩⟩
  have hne : stringIdSpec ≠ f := fun h => hname (h ▸ rfl)
  exact (hpairs.forall hid hf hne).2

/-- A field of the word `ENC` builds stands for its integer, and for 0 if it is not named (R78, R126). -/
theorem ival_encData {t : FieldTable} {id : Nat} {cls : FieldClass} {vals : FieldInts} {f : FieldSpec}
    (hcls : classOf id = some cls) (hwf : ClassWF (t.specs cls)) (hf : f ∈ t.specs cls) (hname : f.name ≠ .stringId)
    (hadmits : ∀ v, vals.lookup f.name = some v → fieldAdmits f.sign f.len v) :
    ival f.sign f.len (fld (encData t id vals) f.start f.len) = (vals.lookup f.name).getD 0 := by
  have ⟨hranges, hpairs, _⟩ := hwf
  have hempty : fld (writeField 0#85 2 4 id) f.start f.len = 0 := by
    have hdisjoint : 2 + 4 ≤ f.start ∨ f.start + f.len ≤ 2 := stringIdSpec_disjoint hwf hf hname
    refine (fld_congr fun p h1 h2 => ?_).trans (fld_zero f.start f.len)
    exact dataBit_writeField_of_outside (by omega) _ _
  have hraw := fld_encFields (hpairs.imp fun h => h.2) hf (hranges f hf) vals (writeField 0#85 2 4 id)
  simp only [encData, hcls]
  rw [hraw, hempty]
  cases hv : vals.lookup f.name with
  | none => exact ival_zero _ _
  | some v => exact ival_rawOfInt (hranges f hf).1 (hadmits v hv)

/-- Settles O27: what a field decodes to is its integer times its scale, and the filler writes no position of it. -/
theorem fieldsRoundTrip : Obligations.FieldsRoundTrip := by
  intro t ht id cls vals f hcls hwf hf hname hadmits
  have hint := ival_encData hcls hwf hf hname (hadmits f hf)
  have hvalue : fieldValue (encData t id vals) f = (((vals.lookup f.name).getD 0 : Int) : Rat) * f.scale := by
    rw [fieldValue, hint]
  refine ⟨(get?_extract _ hwf hf).trans (congrArg some hvalue), fun hchk => ?_⟩
  have hfilled : fld (fill ht (encData t id vals)) f.start f.len = fld (encData t id vals) f.start f.len := by
    refine fld_congr fun p h1 h2 => dataBit_fill_of_notMem (fun hmem => ?_) _
    obtain ⟨r, hr, rfl⟩ := List.mem_map.1 hmem
    have := hchk r hr
    omega
  rw [get?_extract _ hwf hf, ← hvalue, fieldValue, fieldValue, hfilled]

/-! ### The merge of field maps (R133) -/

/-- A merge gives every name of the merged map its value there, and keeps every other name's. -/
theorem FieldMap.get?_merge {f : FieldMap} (hnodup : (FieldMap.names f).Nodup) (m : FieldMap) (x : FieldName) :
    FieldMap.get? (FieldMap.merge m f) x = (FieldMap.get? f x).or (FieldMap.get? m x) := by
  induction f generalizing m with
  | nil => rfl
  | cons e f ih =>
    obtain ⟨y, v⟩ := e
    rw [FieldMap.names, List.map_cons, List.nodup_cons] at hnodup
    obtain ⟨hfresh, hrest⟩ := hnodup
    rw [FieldMap.merge_cons, ih hrest, FieldMap.get?_put, FieldMap.get?_cons]
    by_cases hx : x = y
    · rw [if_pos hx, if_pos hx, (FieldMap.get?_eq_none f x).2 (hx ▸ hfresh), Option.none_or, Option.some_or]
    · rw [if_neg hx, if_neg hx]

/-- Settles O36. -/
theorem mergeOverwritesByName : Obligations.MergeOverwritesByName :=
  fun m _ x hnodup => FieldMap.get?_merge hnodup m x

end Sys2Proof.Machine
end

section
/-! PROOFS. The frame_synchronizer: what a PUSH can do, said once (R83, R91 to R100), and the rules that follow for
one PUSH (R94, R96, R97, R99 to R102); a placed word (log entry 12). -/

namespace Sys2Proof.Machine

variable {TS Sat : Type}

/-! ### What a PUSH can do (R83) -/

/-- The time mark of a completed mark part is a hit (R97). -/
abbrev MarkHit (cfg : Config) (buf : RawBits) : Prop := cfg.tSync ≤ agree (rawMark buf) cfg.tm

/-- The search finds a polarity exactly when one of its two tests succeeds (R94). -/
theorem exists_acquiresWith_iff (cfg : Config) (w : TimeMark) : (∃ p, AcquiresWith cfg w p) ↔
    cfg.tSync ≤ agree w cfg.tm ∨ cfg.tSync ≤ 30 - agree w cfg.tm := by
  constructor
  · rintro ⟨p, ⟨-, h⟩ | ⟨-, -, h⟩⟩
    · exact .inl h
    · exact .inr h
  · intro h
    by_cases hm : cfg.tSync ≤ agree w cfg.tm
    · exact ⟨false, .inl ⟨rfl, hm⟩⟩
    · exact ⟨true, .inr ⟨rfl, hm, h.resolve_left hm⟩⟩

/-- A view with the position in the block replaced. -/
abbrev LocalOf.atBit (n : Nat) (l : LocalOf TS Sat) : LocalOf TS Sat := { l with ch := { l.ch with bitcnt := n } }

/-- A view with the count of missed time marks replaced. -/
abbrev LocalOf.withMiss (m : Nat) (l : LocalOf TS Sat) : LocalOf TS Sat := { l with ch := { l.ch with miss := m } }

/-- A view with the synchroniser searching. -/
abbrev LocalOf.searching (l : LocalOf TS Sat) : LocalOf TS Sat := { l with ch := { l.ch with sync := .searching } }

/-- The six things a PUSH can do after the window shift: search on, acquire, store a bit, pass the time-mark check, lose
sync, or hand the completed block to the string pipeline (R94 to R100). -/
inductive PushStep (b : Bit) (ts : TS) (l : LocalOf TS Sat) : LocalOf TS Sat → Prop
  | searches (hsync : l.ch.sync ≠ .synced)
      (hnone : ¬ (min 30 (l.ch.winN + 1) = 30 ∧ ∃ p, AcquiresWith l.cfg (shiftBits l.ch.win b) p)) :
      PushStep b ts l (windowShift b ts l).searching
  | acquires (p : Bit) (hsync : l.ch.sync ≠ .synced) (hfull : min 30 (l.ch.winN + 1) = 30)
      (hfound : AcquiresWith l.cfg (shiftBits l.ch.win b) p) : PushStep b ts l (acquire p (windowShift b ts l))
  | stores (hsync : l.ch.sync = .synced) (hmark : l.ch.bitcnt ≠ 29) (hlast : l.ch.bitcnt ≠ 114) :
      PushStep b ts l ((storeBit (l.ch.bitcnt + 1) b ts (windowShift b ts l)).atBit (l.ch.bitcnt + 1))
  | passes (miss : Nat) (hsync : l.ch.sync = .synced) (hpos : l.ch.bitcnt = 29)
      (hmiss : MarkHit l.cfg (memWrite l.ch.buf 30 (b ^^ l.ch.pol)) ∧ miss = 0 ∨
        ¬ MarkHit l.cfg (memWrite l.ch.buf 30 (b ^^ l.ch.pol)) ∧ l.ch.miss = 0 ∧ miss = 1) :
      PushStep b ts l (((storeBit 30 b ts (windowShift b ts l)).withMiss miss).atBit 30)
  | loses (hsync : l.ch.sync = .synced) (hpos : l.ch.bitcnt = 29)
      (hmark : ¬ MarkHit l.cfg (memWrite l.ch.buf 30 (b ^^ l.ch.pol))) (hmiss : l.ch.miss ≠ 0) :
      PushStep b ts l (lose (storeBit 30 b ts (windowShift b ts l)))
  | runs (hsync : l.ch.sync = .synced) (hpos : l.ch.bitcnt = 114) :
      PushStep b ts l (stringDone (rawData (memWrite l.ch.buf 115 (b ^^ l.ch.pol))) l.ch.bufTs
        ((storeBit 115 b ts (windowShift b ts l)).atBit 0))

/-- In SEARCHING or LOST a PUSH searches on or acquires (R94, R99). -/
theorem pushStep_of_notSynced (b : Bit) (ts : TS) {l : LocalOf TS Sat} (hsync : l.ch.sync ≠ .synced) :
    PushStep b ts l (pushBit b ts l) := by
  rw [pushBit_notSynced hsync, leaveLost]
  obtain ⟨hfull, hm, h⟩ | ⟨hfull, hm, hinv, h⟩ | ⟨hnone, h⟩ := searchStep_cases (windowShift b ts l).searching <;> rw [h]
  · exact .acquires false hsync hfull (.inl ⟨rfl, hm⟩)
  · exact .acquires true hsync hfull (.inr ⟨rfl, hm, hinv⟩)
  · exact .searches hsync (by rwa [exists_acquiresWith_iff])

/-- In SYNCED a PUSH consumes its bit (R96, R97, R100). -/
theorem pushStep_of_synced (b : Bit) (ts : TS) {l : LocalOf TS Sat} (hsync : l.ch.sync = .synced) :
    PushStep b ts l (pushBit b ts l) := by
  rw [pushBit_synced hsync]
  obtain ⟨hmark, hlast, h⟩ | ⟨hpos, hgoesOn, hstops⟩ | ⟨hpos, h⟩ :=
    consumeBit_cases (b := b) (ts := ts) (l := windowShift b ts l) hsync
  · rw [h]
    exact .stores hsync hmark hlast
  · obtain ⟨hhit, h⟩ | ⟨hno, hmiss, h⟩ | ⟨hno, hmiss, h⟩ := tmCheck_cases (storeBit 30 b ts (windowShift b ts l))
    · rw [hgoesOn (by rw [h]; exact hsync), h]
      exact .passes 0 hsync hpos (.inl ⟨hhit, rfl⟩)
    · rw [hgoesOn (by rw [h]; exact hsync), h]
      exact .passes 1 hsync hpos (.inr ⟨hno, hmiss, rfl⟩)
    · rw [hstops (by rw [h]; simp [lose]), h]
      exact .loses hsync hpos hno hmiss
  · rw [h]
    exact .runs hsync hpos

/-- What a PUSH does to its channel is one of the six. -/
theorem pushStep (b : Bit) (ts : TS) (l : LocalOf TS Sat) : PushStep b ts l (pushBit b ts l) := by
  by_cases hsync : l.ch.sync = .synced
  · exact pushStep_of_synced b ts hsync
  · exact pushStep_of_notSynced b ts hsync

theorem PushStep.of_eq {b : Bit} {ts : TS} {l m m' : LocalOf TS Sat} (h : PushStep b ts l m) (heq : m = m') :
    PushStep b ts l m' := heq ▸ h

/-- Each of the six is what the PUSH does, so that there is only one of them (R83). -/
theorem PushStep.eq {b : Bit} {ts : TS} {l m : LocalOf TS Sat} (h : PushStep b ts l m) : pushBit b ts l = m := by
  cases h with
  | searches hsync hnone =>
    rw [pushBit_notSynced hsync, leaveLost]
    obtain ⟨hfull, hm, -⟩ | ⟨hfull, -, hinv, -⟩ | ⟨-, h⟩ := searchStep_cases (windowShift b ts l).searching
    · exact absurd ⟨hfull, (exists_acquiresWith_iff _ _).2 (.inl hm)⟩ hnone
    · exact absurd ⟨hfull, (exists_acquiresWith_iff _ _).2 (.inr hinv)⟩ hnone
    · exact h
  | acquires p hsync hfull hfound => exact pushBit_acquires hsync (by omega) hfound
  | stores hsync hmark hlast =>
    rw [pushBit_synced hsync]
    simp [consumeBit, storeBit, windowShift, hsync, hmark, hlast]
  | passes miss hsync hpos hmiss =>
    rw [pushBit_synced hsync]
    obtain ⟨hhit, rfl⟩ | ⟨hno, hzero, rfl⟩ := hmiss
    · simp [consumeBit, storeBit, windowShift, tmCheck, hsync, hpos, hhit]
    · simp [consumeBit, storeBit, windowShift, tmCheck, hsync, hpos, hno, hzero]
  | loses hsync hpos hmark hmiss =>
    rw [pushBit_synced hsync]
    exact consumeBit_loses (l := windowShift b ts l) hsync hpos hmiss hmark
  | runs hsync hpos =>
    rw [pushBit_synced hsync]
    simp [consumeBit, storeBit, windowShift, blockDone, hsync, hpos]

/-- A PUSH on an existing channel does one of the six to the channel's view on an empty output list (R12), and writes
it back. -/
theorem exec_push_step {s : State} {c : Nat} {ch : Channel} (b : Bit) (ts : SampleTime) (h : s.started = true)
    (hc : s.chans[c]? = some ch) :
    ∃ l, PushStep b ts { s.view ch with out := [] } l ∧ exec (.push c b ts) s = .next (s.putView c l) :=
  ⟨_, pushStep b ts _, exec_push_eq b ts h hc⟩

/-- If a PUSH answers a next state, it did one of the six to an existing channel. -/
theorem exec_push_next_step {s t : State} {c : Nat} {b : Bit} {ts : SampleTime} (h : exec (.push c b ts) s = .next t) :
    s.started = true ∧ ∃ ch l, s.chans[c]? = some ch ∧ PushStep b ts { s.view ch with out := [] } l ∧
      t = s.putView c l := by
  obtain ⟨hs, ch, hc, ht⟩ := exec_push_next h
  exact ⟨hs, ch, _, hc, pushStep b ts _, ht⟩

/-! ### Search (R94, R99, R101, R102) -/

/-- Settles O10: neither a window that is not full nor one that agrees neither way acquires. -/
theorem noAgreementKeepsSearching : Obligations.NoAgreementKeepsSearching := by
  intro s c ch b ts hstarted hc hsync hnone
  obtain ⟨l, hstep, hexec⟩ := exec_push_step b ts hstarted hc
  rw [hexec]
  cases hstep with
  | searches => rfl
  | acquires p _ hfull hfound =>
    have hfull : min 30 (ch.winN + 1) = 30 := hfull
    have hfound := (exists_acquiresWith_iff _ _).1 ⟨p, hfound⟩
    obtain hshort | ⟨hm, hinv⟩ := hnone
    · omega
    · exact absurd hfound (not_or.2 ⟨hm, hinv⟩)
  | stores h => exact absurd h hsync
  | passes _ h => exact absurd h hsync
  | loses h => exact absurd h hsync
  | runs h => exact absurd h hsync

/-- Settles O11: with `T_SYNC >= 16` the two tests together would ask for more than 30 places. -/
theorem thePolaritiesAreExclusive : Obligations.ThePolaritiesAreExclusive := by
  intro x tm tSync
  refine ⟨agree_add_agree_not x tm, fun h16 ⟨hm, hinv⟩ => ?_⟩
  omega

/-! ### Bits of a block (R96, R97) -/

/-- Settles O12. -/
theorem syncedBitIsStored : Obligations.SyncedBitIsStored := by
  intro s c ch b ts hstarted hc hsync hpos hmark
  obtain ⟨l, hstep, hexec⟩ := exec_push_step b ts hstarted hc
  refine ⟨memWrite ch.buf (ch.bitcnt + 1) (b ^^ ch.pol), ?_, rsBit_memWrite_self (by omega),
    fun q hq => rsBit_memWrite_ne hq⟩
  rw [hexec]
  cases hstep with
  | searches h => exact absurd hsync h
  | acquires _ h => exact absurd hsync h
  | stores => simp [storeBit, windowShift, State.putView, State.view]
  | passes _ _ h => exact absurd h hmark
  | loses _ h => exact absurd h hmark
  | runs _ h =>
    have h : ch.bitcnt = 114 := h
    omega

/-- Settles O13: with a hit the count of misses is 0, and with a first miss it is 1. -/
theorem timeMarkCheckToleratesOneMiss : Obligations.TimeMarkCheckToleratesOneMiss := by
  intro s c ch b ts hstarted hc hsync hpos
  obtain ⟨l, hstep, hexec⟩ := exec_push_step b ts hstarted hc
  rw [hexec]
  cases hstep with
  | searches h => exact absurd hsync h
  | acquires _ h => exact absurd hsync h
  | stores _ h => exact absurd hpos h
  | passes miss _ _ hmiss =>
    obtain ⟨hhit, rfl⟩ | ⟨hno, -, rfl⟩ := hmiss
    · exact ⟨fun _ => rfl, fun hno => absurd hhit hno⟩
    · exact ⟨fun hhit => absurd hhit hno, fun _ _ => rfl⟩
  | loses _ _ hno hmiss => exact ⟨fun hhit => absurd hhit hno, fun _ hzero => absurd hzero hmiss⟩
  | runs _ h =>
    have h : ch.bitcnt = 114 := h
    omega

/-! ### The transitions of `sync` (R101) -/

/-- Settles O16: of the six things a PUSH can do, only acquiring, searching on and losing sync write `sync`. -/
theorem syncTransitionsAreTheTable : Obligations.SyncTransitionsAreTheTable := by
  intro s t c ch u b ts hc hmiss hexec hu
  obtain ⟨-, ch', l, hc', hstep, rfl⟩ := exec_push_next_step hexec
  obtain rfl : ch = ch' := Option.some.inj (hc.symm.trans hc')
  obtain rfl : l.ch = u := Option.some.inj ((getElem?_putView_self l hc).symm.trans hu)
  simp only [← exists_acquiresWith_iff]
  cases hstep with
  | searches h hnone => exact ⟨fun _ => ⟨fun hfound => absurd hfound hnone, fun _ => rfl⟩, fun hs => absurd hs h⟩
  | acquires p h hfull hfound =>
    exact ⟨fun _ => ⟨fun _ => rfl, fun hnone => absurd ⟨hfull, p, hfound⟩ hnone⟩, fun hs => absurd hs h⟩
  | stores h hmark =>
    exact ⟨fun hs => absurd h hs, fun _ => ⟨fun ⟨hpos, _⟩ => absurd (Nat.succ.inj hpos) hmark, fun _ => h⟩⟩
  | passes miss h _ hcount =>
    refine ⟨fun hs => absurd h hs, fun _ => ⟨fun ⟨_, hno, hone⟩ => ?_, fun _ => h⟩⟩
    obtain ⟨hhit, -⟩ | ⟨-, hzero, -⟩ := hcount
    · exact absurd hhit hno
    · exact absurd (hzero.symm.trans hone) (by decide)
  | loses h hpos hno hcount =>
    have hone : ch.miss = 1 := Nat.le_antisymm hmiss (Nat.pos_of_ne_zero hcount)
    exact ⟨fun hs => absurd h hs,
      fun _ => ⟨fun _ => rfl, fun hkeeps => absurd ⟨congrArg (· + 1) hpos, hno, hone⟩ hkeeps⟩⟩
  | runs h hpos =>
    have hpos : ch.bitcnt = 114 := hpos
    exact ⟨fun hs => absurd h hs, fun _ => ⟨fun ⟨h30, _⟩ => by omega, fun _ => (stringDone_keepsSync _ _ _).sync.trans h⟩⟩

/-! ### The end of a block (R84, R100) -/

/-- A rule on a channel whose view has just been written runs on that view. -/
theorem onChannel_putView {s : State TS Sat} {c : Nat} {ch : ChannelOf TS Sat} {l : LocalOf TS Sat}
    (f : LocalOf TS Sat → LocalOf TS Sat) (h : s.started = true) (hc : s.chans[c]? = some ch) (hcfg : l.cfg = s.cfg) :
    onChannel c f (s.putView c l) = .next (s.putView c (f l)) := by
  have hview : (s.putView c l).view l.ch = l := by simp only [State.view, State.putView, ← hcfg]
  rw [onChannel_eq (s := s.putView c l) h (getElem?_putView_self l hc), hview]
  simp only [State.putView, List.set_set]

/-- Settles O15: both sides run the string pipeline on the completed buffer. -/
theorem lastBitRunsTheDecodedString : Obligations.LastBitRunsTheDecodedString := by
  intro s c ch b ts hstarted hc hsync hpos rs
  obtain ⟨l, hstep, hexec⟩ := exec_push_step b ts hstarted hc
  refine ⟨rs, ch.bufTs, ?_⟩
  rw [hexec, exec_decodeRaw]
  cases hstep with
  | searches h => exact absurd hsync h
  | acquires _ h => exact absurd hsync h
  | stores _ _ h => exact absurd hpos h
  | passes _ _ h => exact absurd (hpos.symm.trans h) (by decide)
  | loses _ h => exact absurd (hpos.symm.trans h) (by decide)
  | runs => exact (onChannel_putView _ hstarted hc rfl).symm

/-! ### A placed word (log entries 12 and 14) -/

theorem getLsbD_xorPol (x : TimeMark) (pol : Bit) {i : Nat} (hi : i < 30) :
    (xorPol x pol).getLsbD i = (x.getLsbD i ^^ pol) := by
  cases pol <;> simp [xorPol, hi]

/-- The window of a placed word, with the word's last bit shifted in, holds the word's last thirty bits as received. -/
theorem shiftBits_placed (rs : RawBits) (pol : Bit) :
    shiftBits (xorPol (rs.extractLsb' 1 30) pol) (rsBit rs 115 ^^ pol) = xorPol (rs.setWidth 30) pol := by
  apply BitVec.eq_of_getLsbD_eq
  intro i hi
  rw [getLsbD_shiftBits _ _ _ hi, getLsbD_xorPol _ _ hi, BitVec.getLsbD_setWidth]
  cases i with
  | zero => simp [rsBit]
  | succ i =>
    rw [if_neg (Nat.succ_ne_zero i), Nat.add_sub_cancel, getLsbD_xorPol _ _ (by omega), BitVec.getLsbD_extractLsb',
      Nat.add_comm 1 i]
    simp [hi, show i < 30 by omega]

theorem shiftTs_replicate (ts : SampleTime) : shiftTs (Vector.replicate 30 ts) ts = Vector.replicate 30 ts := by
  ext i hi
  by_cases h : i < 29
  · rw [shiftTs_get _ _ _ h, Vector.getElem_replicate, Vector.getElem_replicate]
  · obtain rfl : i = 29 := by omega
    rw [shiftTs_get_newest, Vector.getElem_replicate]

/-- Writing the last bit of a RawString over a cleared last position gives the RawString. -/
theorem memWrite_last (rs : RawBits) (v : Bit) : memWrite (memWrite rs 115 v) 115 (rsBit rs 115) = rs := by
  refine rs_ext fun q _ _ => ?_
  by_cases hq : q = 115
  · rw [hq, rsBit_memWrite_self (by decide)]
  · rw [rsBit_memWrite_ne hq, rsBit_memWrite_ne hq]

/-- The step after `withFetchWord` is a PUSH of the word's last bit on the channel that holds the others. -/
theorem step_withFetchWord {s : State} {nbits w : Nat} {ch : Channel} {rest : List Channel} (hn : nbits ≠ 0)
    (hchans : s.chans = ch :: rest) : step (s.withFetchWord nbits w) =
      exec (.push 0 (rsBit (BitVec.ofNat 115 w) 115 ^^ ch.pol) 0)
        { s with ops := [], out := [], chans := ch.holding (BitVec.ofNat 115 w) 0 :: rest } := by
  simp only [State.withFetchWord, hchans, if_neg hn]
  rfl

/-- Settles O59: the step is the PUSH of a 115th bit, which runs what the completed buffer decodes to (R100). -/
theorem placedWordIsWhatTheStepRuns : Obligations.PlacedWordIsWhatTheStepRuns := by
  intro s nbits w i ch rest hstarted hchans hword
  obtain ⟨hn, rfl⟩ := decodeTableWord_some hword
  obtain ⟨buf, bufTs, hrun⟩ := lastBitRunsTheDecodedString
    { s with ops := [], out := [], chans := ch.holding (BitVec.ofNat 115 w) 0 :: rest } 0
    (ch.holding (BitVec.ofNat 115 w) 0) (rsBit (BitVec.ofNat 115 w) 115 ^^ ch.pol) 0 hstarted rfl rfl rfl
  refine ⟨buf, bufTs, ?_⟩
  rw [step_withFetchWord hn hchans, hrun]
  simp only [ChannelOf.holding_buf, ChannelOf.holding_pol, ChannelOf.holding_bufTs, ChannelOf.holding_win,
    ChannelOf.holding_winTs, ChannelOf.holding_winN, Bool.xor_assoc, Bool.xor_self, Bool.xor_false, memWrite_last,
    shiftBits_placed, shiftTs_replicate, List.set_cons_zero]
  rfl

end Sys2Proof.Machine
end

section
/-! PROOFS. The message_assembler: strings 1 and 2 (R139, R140), the pipeline (R84), what an input of the assembler
leaves in the partials and puts out, and the records of one frame and of one pair (R155, R157). -/

namespace Sys2Proof.Machine

variable {TS Sat : Type}

/-! ### Strings 1 and 2 (R139, R140) -/

/-- A string 1 starts a set; a set in progress ends first (R133). -/
theorem ephStep_first (f : FieldMap) (ts : TS) (l : LocalOf TS Sat) : ephStep (.str 1 f) ts l =
    ephStart f (if l.ch.ephHave = 0b0000#4 then l else ephDiscard l) := by
  have hnext : AsmEvent.next? (ephCount l.ch.ephHave) (.str 1 f) = none := next?_str f (by omega)
  have hpos := ephCount_pos_iff l.ch.ephHave
  by_cases hclear : l.ch.ephHave = 0b0000#4
  · simp [ephStep, hclear, next?_str f (id := 1) (k := 0) (by omega)]
  · simp [ephStep, hclear, hnext, hpos.2 hclear]

/-- Settles O29. -/
theorem stringOneStartsASet : Obligations.StringOneStartsASet := by
  intro s c ch p ts hstarted hc haccept
  rw [exec_immediate (by decide) (exec_str1 c p ts s) hstarted hc haccept, ephStep_first, State.view_ch]
  constructor
  · intro hclear
    rw [if_pos hclear]
    rfl
  · intro hset
    rw [if_neg hset, ephDiscard_eq]
    rfl

/-- Settles O30: string 2 is the expected one exactly of a set that holds string 1. -/
theorem stringTwoSucceedsStringOne : Obligations.StringTwoSucceedsStringOne := by
  intro s c ch p ts hstarted hc haccept
  rw [exec_immediate (by decide) (exec_str2 c p ts s) hstarted hc haccept]
  refine ⟨?clear, ?joins, ?ends⟩
  case clear =>
    intro hclear
    rw [ephStep_str_clear _ ts (by decide) hclear, putView_view hc]
  case joins =>
    intro hone
    have hk : ephCount ch.ephHave = 1 := by rw [hone, ephCount_one]
    rw [ephStep_joins _ ts hk (by decide) (by decide)]
    simp [ephMerge, State.putView, State.view, hone]
  case ends =>
    intro hother
    obtain ⟨hset, hlate⟩ : ch.ephHave ≠ 0b0000#4 ∧ 2 ≠ ephCount ch.ephHave + 1 := by
      obtain h | h := hother <;> rw [h] <;> decide
    rw [ephStep_str_ends _ ts (by decide) hset hlate, putView_ephDiscard]

/-! ### The pipeline (R84) -/

/-- Settles O37: the three cases of the string types exclude each other. -/
theorem stringDoneIsThePipeline : Obligations.StringDoneIsThePipeline := by
  intro d ts l
  obtain ⟨hg, h⟩ | ⟨hg, hid, h⟩ | ⟨hg, cls, hcls, h⟩ := stringDone_cases d ts l
  · exact ⟨fun _ => h, fun hacc => absurd (hg.symm.trans hacc) (by decide),
      fun _ hacc => absurd (hg.symm.trans hacc) (by decide)⟩
  · refine ⟨fun hrej => absurd (hg.symm.trans hrej) (by decide), fun _ _ => ?_, fun cls _ hcls => ?_⟩
    · rw [h, ← hid]
      rfl
    · have hnone : classOf (stringId d) = none := by rw [hid]; rfl
      exact absurd (hnone.symm.trans hcls) (by simp)
  · refine ⟨fun hrej => absurd (hg.symm.trans hrej) (by decide), fun _ hnone => ?_, fun cls' _ hcls' => ?_⟩
    · exact absurd (hcls.symm.trans hnone) (by simp)
    · obtain rfl : cls = cls' := Option.some.inj (hcls.symm.trans hcls')
      exact h

/-! ### What each sub-step leaves alone (R132) -/

/-- Two views agree on the almanac partial. -/
structure LocalOf.KeepsAlm (l l' : LocalOf TS Sat) : Prop where
  almPend : l'.ch.almPend = l.ch.almPend
  almId : l'.ch.almId = l.ch.almId
  almNA : l'.ch.almNA = l.ch.almNA
  alm : l'.ch.alm = l.ch.alm

/-- Two views agree on the ephemeris partial. -/
structure LocalOf.KeepsEph (l l' : LocalOf TS Sat) : Prop where
  ephHave : l'.ch.ephHave = l.ch.ephHave
  eph : l'.ch.eph = l.ch.eph

theorem LocalOf.KeepsAlm.trans {a b c : LocalOf TS Sat} (h : a.KeepsAlm b) (k : b.KeepsAlm c) : a.KeepsAlm c :=
  ⟨k.almPend.trans h.almPend, k.almId.trans h.almId, k.almNA.trans h.almNA, k.alm.trans h.alm⟩

theorem LocalOf.KeepsEph.trans {a b c : LocalOf TS Sat} (h : a.KeepsEph b) (k : b.KeepsEph c) : a.KeepsEph c :=
  ⟨k.ephHave.trans h.ephHave, k.eph.trans h.eph⟩

theorem ephStep_keepsAlm (ev : AsmEvent) (ts : TS) (l : LocalOf TS Sat) : l.KeepsAlm (ephStep ev ts l) := by
  obtain ⟨f, -, -, h⟩ | ⟨f, -, -, h⟩ | ⟨f, -, -, -, h⟩ | ⟨f, -, -, -, h⟩ | ⟨-, -, -, h⟩ | ⟨-, -, -, h⟩ :=
    ephStep_cases ev ts l <;> rw [h] <;> exact ⟨rfl, rfl, rfl, rfl⟩

theorem timeStep_keepsAlm (ev : AsmEvent) (l : LocalOf TS Sat) : l.KeepsAlm (timeStep ev l) := by
  obtain ⟨f, -, h⟩ | ⟨-, h⟩ := timeStep_cases ev l <;> rw [h] <;> exact ⟨rfl, rfl, rfl, rfl⟩

theorem timeStep_keepsEph (ev : AsmEvent) (l : LocalOf TS Sat) : l.KeepsEph (timeStep ev l) := by
  obtain ⟨f, -, h⟩ | ⟨-, h⟩ := timeStep_cases ev l <;> rw [h] <;> exact ⟨rfl, rfl⟩

/-- The whole of `ALM_STEP` for an odd string: nothing waits, the pair is complete, or it does not match (R136). -/
theorem almOdd_cases (f : FieldMap) (ts : TS) (l : LocalOf TS Sat) :
    (l.ch.almPend = false ∧ almOdd f ts l = l) ∨
    (l.ch.almPend = true ∧ FieldMap.read f .nA = l.ch.almNA ∧ almOdd f ts l = { l with
      out := l.out ++ [.almanacReady l.ch.sat l.ch.almNA (FieldMap.merge l.ch.alm (FieldMap.record f))
        (resolve l.cfg.epoch0.eval l.time 0 .glonass) ts]
      ch := { l.ch with almPend := false, alm := [] } }) ∨
    (l.ch.almPend = true ∧ FieldMap.read f .nA ≠ l.ch.almNA ∧ almOdd f ts l = { l with
      out := l.out ++ [.err (.incompleteFrame l.ch.sat .alm)]
      ch := { l.ch with almPend := false, alm := [], cntRestart := l.ch.cntRestart + 1 } }) := by
  cases hwaits : l.ch.almPend with
  | false => exact .inl ⟨rfl, almOdd_alone f ts hwaits⟩
  | true =>
    by_cases hsame : FieldMap.read f .nA = l.ch.almNA
    · exact .inr (.inl ⟨rfl, hsame, almOdd_pair ts hwaits hsame⟩)
    · exact .inr (.inr ⟨rfl, hsame, almOdd_mismatch ts hwaits hsame⟩)

theorem almStep_keepsEph (ev : AsmEvent) (ts : TS) (l : LocalOf TS Sat) : l.KeepsEph (almStep ev ts l) := by
  obtain ⟨id, f, -, -, h⟩ | ⟨id, f, -, -, h⟩ | ⟨-, h⟩ := almStep_cases ev ts l <;> rw [h]
  · rw [almEven_eq]
    exact ⟨rfl, rfl⟩
  · obtain ⟨-, h⟩ | ⟨-, -, h⟩ | ⟨-, -, h⟩ := almOdd_cases f ts l <;> rw [h] <;> exact ⟨rfl, rfl⟩
  · exact ⟨rfl, rfl⟩

/-- Only the ephemeris sub-step writes the ephemeris partial. -/
theorem asm_eph (ev : AsmEvent) (ts : TS) (l : LocalOf TS Sat) : (ephStep ev ts l).KeepsEph (asm ev ts l) :=
  (timeStep_keepsEph ev _).trans (almStep_keepsEph ev ts _)

/-- The almanac sub-step finds the almanac partial as the input found it. -/
theorem asm_beforeAlm (ev : AsmEvent) (ts : TS) (l : LocalOf TS Sat) : l.KeepsAlm (timeStep ev (ephStep ev ts l)) :=
  (ephStep_keepsAlm ev ts l).trans (timeStep_keepsAlm ev _)

/-! ### What an input leaves in the partials (R133, R135, R136) -/

/-- The expected next string of a set that holds `k` strings. -/
theorem next?_eq_some {ev : AsmEvent} {k : Nat} {f : FieldMap} (h : ev.next? k = some f) :
    1 ≤ k ∧ ev = .str (k + 1) f := by
  cases ev with
  | void => cases h
  | str id g =>
    rw [AsmEvent.next?] at h
    split at h
    · next hk =>
      cases h
      exact ⟨hk.1, by rw [hk.2]⟩
    · cases h

theorem first?_eq_some {ev : AsmEvent} {f : FieldMap} (h : ev.first? = some f) : ev = .str 1 f := by
  cases ev with
  | void => cases h
  | str id g =>
    rw [AsmEvent.first?] at h
    split at h
    · next hid =>
      cases h
      rw [hid]
    · cases h

/-- What an input does to the ephemeris partial: the expected string joins a set it does not complete, a string 1
starts one, and after anything else none is in progress. -/
theorem asm_eph_cases (ev : AsmEvent) (ts : TS) (l : LocalOf TS Sat) :
    (∃ k f, ephCount l.ch.ephHave = k ∧ 1 ≤ k ∧ k ≠ 3 ∧ ev = .str (k + 1) f ∧
      (asm ev ts l).ch.ephHave = setHave l.ch.ephHave (k + 1) ∧
      (asm ev ts l).ch.eph = FieldMap.merge l.ch.eph (FieldMap.record f)) ∨
    (∃ f, ev = .str 1 f ∧ (asm ev ts l).ch.ephHave = 0b1000#4 ∧
      (asm ev ts l).ch.eph = FieldMap.merge [] (FieldMap.record f)) ∨
    ((asm ev ts l).ch.ephHave = 0b0000#4 ∧
      ((asm ev ts l).ch.eph = [] ∨ l.ch.ephHave = 0b0000#4 ∧ (asm ev ts l).ch.eph = l.ch.eph)) := by
  rw [(asm_eph ev ts l).ephHave, (asm_eph ev ts l).eph]
  obtain ⟨f, -, -, h⟩ | ⟨f, hnext, h3, h⟩ | ⟨f, -, hfirst, -, h⟩ | ⟨f, -, hfirst, -, h⟩ | ⟨-, -, hclear, h⟩ |
    ⟨-, -, -, h⟩ := ephStep_cases ev ts l <;> rw [h]
  · exact .inr (.inr ⟨rfl, .inl rfl⟩)
  · obtain ⟨hpos, hev⟩ := next?_eq_some hnext
    exact .inl ⟨_, f, rfl, hpos, h3, hev, rfl, rfl⟩
  · exact .inr (.inl ⟨f, first?_eq_some hfirst, rfl, rfl⟩)
  · exact .inr (.inl ⟨f, first?_eq_some hfirst, rfl, rfl⟩)
  · exact .inr (.inr ⟨hclear, .inr ⟨hclear, rfl⟩⟩)
  · exact .inr (.inr ⟨rfl, .inl rfl⟩)

/-- What an input does to the almanac partial: an even string waits, after an odd one nothing waits, and anything else
leaves it alone. -/
theorem asm_alm_cases (ev : AsmEvent) (ts : TS) (l : LocalOf TS Sat) :
    (∃ id f, ev = .str id f ∧ classOf id = some .even ∧ (asm ev ts l).ch.almPend = true ∧
      (asm ev ts l).ch.almId = Fin.ofNat 16 id ∧ (asm ev ts l).ch.almNA = FieldMap.read f .nA ∧
      (asm ev ts l).ch.alm = FieldMap.merge [] (FieldMap.record f)) ∨
    (∃ id f, ev = .str id f ∧ classOf id = some .odd ∧ (asm ev ts l).ch.almPend = false ∧
      ((asm ev ts l).ch.alm = [] ∨ l.ch.almPend = false ∧ (asm ev ts l).ch.alm = l.ch.alm)) ∨
    ((∀ id f, ev = .str id f → classOf id ≠ some .even ∧ classOf id ≠ some .odd) ∧ l.KeepsAlm (asm ev ts l)) := by
  have hbefore := asm_beforeAlm ev ts l
  unfold asm
  generalize timeStep ev (ephStep ev ts l) = m at hbefore ⊢
  obtain ⟨id, f, hev, hcls, h⟩ | ⟨id, f, hev, hcls, h⟩ | ⟨hnone, h⟩ := almStep_cases ev ts m <;> rw [h]
  · rw [almEven_eq]
    exact .inl ⟨id, f, hev, hcls, rfl, rfl, rfl, rfl⟩
  · refine .inr (.inl ⟨id, f, hev, hcls, ?_⟩)
    obtain ⟨hwaits, h⟩ | ⟨-, -, h⟩ | ⟨-, -, h⟩ := almOdd_cases f ts m <;> rw [h]
    · exact ⟨hwaits, .inr ⟨hbefore.almPend.symm.trans hwaits, hbefore.alm⟩⟩
    · exact ⟨rfl, .inl rfl⟩
    · exact ⟨rfl, .inl rfl⟩
  · exact .inr (.inr ⟨hnone, hbefore⟩)

/-! ### What an input puts out (R134, R136, R143, R189) -/

/-- What the ephemeris sub-step puts out: nothing, the signal of a set that ends, or the record of one that a string 4
completes (R133, R134). -/
inductive EphOut (ev : AsmEvent) (ts : TS) (l : LocalOf TS Sat) : List (OutputOf TS Sat) → Prop
  | silent : EphOut ev ts l []
  | discarded : EphOut ev ts l [.err (.incompleteFrame l.ch.sat .eph)]
  | committed (f : FieldMap) (stamp : Stamp) (hthree : ephCount l.ch.ephHave = 3) (hev : ev = .str 4 f) :
      EphOut ev ts l [.ephemerisReady l.ch.sat (FieldMap.merge l.ch.eph (FieldMap.record f)) stamp ts]

/-- What the time sub-step puts out: TimeUpdate for a string 5, nothing for anything else (R143, R185). -/
inductive TimeOut (ev : AsmEvent) (l : LocalOf TS Sat) : List (OutputOf TS Sat) → Prop
  | silent (hother : ∀ f, ev ≠ .str 5 f) : TimeOut ev l []
  | updated (f : FieldMap) (hev : ev = .str 5 f) : TimeOut ev l
      [.timeUpdate l.ch.sat (FieldMap.read f .n4) (FieldMap.read f .nT) (FieldMap.read f .tauC) (FieldMap.read f .tauGps)]

/-- What the almanac sub-step puts out: nothing, the signal of a half that goes, or the record of a pair with equal
`n_A` (R135, R136). -/
inductive AlmOut (ev : AsmEvent) (ts : TS) (l : LocalOf TS Sat) : List (OutputOf TS Sat) → Prop
  | silent : AlmOut ev ts l []
  | discarded (id : Nat) (f : FieldMap) (hev : ev = .str id f)
      (hcls : classOf id = some .even ∨ classOf id = some .odd) : AlmOut ev ts l [.err (.incompleteFrame l.ch.sat .alm)]
  | paired (id : Nat) (f : FieldMap) (stamp : Stamp) (hev : ev = .str id f) (hcls : classOf id = some .odd)
      (hwaits : l.ch.almPend = true) (hsame : FieldMap.read f .nA = l.ch.almNA) :
      AlmOut ev ts l [.almanacReady l.ch.sat l.ch.almNA (FieldMap.merge l.ch.alm (FieldMap.record f)) stamp ts]

theorem ephStep_out (ev : AsmEvent) (ts : TS) (l : LocalOf TS Sat) :
    ∃ o, EphOut ev ts l o ∧ (ephStep ev ts l).out = l.out ++ o := by
  obtain ⟨f, hnext, h3, h⟩ | ⟨f, -, -, h⟩ | ⟨f, -, -, -, h⟩ | ⟨f, -, -, -, h⟩ | ⟨-, -, -, h⟩ | ⟨-, -, -, h⟩ :=
    ephStep_cases ev ts l <;> rw [h]
  · rw [h3] at hnext
    obtain ⟨-, hev⟩ := next?_eq_some hnext
    exact ⟨_, .committed f _ h3 hev, rfl⟩
  · exact ⟨_, .silent, (List.append_nil _).symm⟩
  · exact ⟨_, .silent, (List.append_nil _).symm⟩
  · exact ⟨_, .discarded, rfl⟩
  · exact ⟨_, .silent, (List.append_nil _).symm⟩
  · exact ⟨_, .discarded, rfl⟩

theorem timeStep_out (ev : AsmEvent) (l : LocalOf TS Sat) :
    ∃ o, TimeOut ev l o ∧ (timeStep ev l).out = l.out ++ o := by
  obtain ⟨f, hev, h⟩ | ⟨hother, h⟩ := timeStep_cases ev l <;> rw [h]
  · exact ⟨_, .updated f hev, rfl⟩
  · exact ⟨_, .silent hother, (List.append_nil _).symm⟩

theorem almStep_out (ev : AsmEvent) (ts : TS) (l : LocalOf TS Sat) :
    ∃ o, AlmOut ev ts l o ∧ (almStep ev ts l).out = l.out ++ o := by
  obtain ⟨id, f, hev, hcls, h⟩ | ⟨id, f, hev, hcls, h⟩ | ⟨-, h⟩ := almStep_cases ev ts l <;> rw [h]
  · rw [almEven_eq]
    unfold ChannelOf.almErr
    split
    · exact ⟨_, .discarded id f hev (.inl hcls), rfl⟩
    · exact ⟨_, .silent, rfl⟩
  · obtain ⟨-, h⟩ | ⟨hwaits, hsame, h⟩ | ⟨-, -, h⟩ := almOdd_cases f ts l <;> rw [h]
    · exact ⟨_, .silent, (List.append_nil _).symm⟩
    · exact ⟨_, .paired id f _ hev hcls hwaits hsame, rfl⟩
    · exact ⟨_, .discarded id f hev (.inr hcls), rfl⟩
  · exact ⟨_, .silent, (List.append_nil _).symm⟩

/-- What the time sub-step puts out depends on the channel's tag only. -/
theorem TimeOut.of_sat {ev : AsmEvent} {l m : LocalOf TS Sat} {o : List (OutputOf TS Sat)}
    (hsat : m.ch.sat = l.ch.sat) (h : TimeOut ev m o) : TimeOut ev l o := by
  cases h with
  | silent hother => exact .silent hother
  | updated f hev => rw [hsat]; exact .updated f hev

/-- What the almanac sub-step puts out depends on the channel's tag and the almanac partial only. -/
theorem AlmOut.of_keepsAlm {ev : AsmEvent} {ts : TS} {l m : LocalOf TS Sat} {o : List (OutputOf TS Sat)}
    (hsat : m.ch.sat = l.ch.sat) (hkeeps : l.KeepsAlm m) (h : AlmOut ev ts m o) : AlmOut ev ts l o := by
  cases h with
  | silent => exact .silent
  | discarded id f hev hcls => rw [hsat]; exact .discarded id f hev hcls
  | paired id f stamp hev hcls hwaits hsame =>
    rw [hsat, hkeeps.almNA, hkeeps.alm]
    exact .paired id f stamp hev hcls (hkeeps.almPend.symm.trans hwaits) (hsame.trans hkeeps.almNA)

/-- What an input puts out: what the three sub-steps put out, in their order. -/
theorem asm_out (ev : AsmEvent) (ts : TS) (l : LocalOf TS Sat) :
    ∃ eph time alm, EphOut ev ts l eph ∧ TimeOut ev l time ∧ AlmOut ev ts l alm ∧
      (asm ev ts l).out = l.out ++ (eph ++ time ++ alm) := by
  obtain ⟨eph, heph, houtEph⟩ := ephStep_out ev ts l
  obtain ⟨time, htime, houtTime⟩ := timeStep_out ev (ephStep ev ts l)
  obtain ⟨alm, halm, houtAlm⟩ := almStep_out ev ts (timeStep ev (ephStep ev ts l))
  have hsatEph := (ephStep_keepsSync ev ts l).sat
  have hsatTime := (timeStep_keepsSync ev (ephStep ev ts l)).sat
  refine ⟨eph, time, alm, heph, htime.of_sat hsatEph,
    halm.of_keepsAlm (hsatTime.trans hsatEph) (asm_beforeAlm ev ts l), ?_⟩
  rw [asm, houtAlm, houtTime, houtEph, List.append_assoc, List.append_assoc, List.append_assoc]

/-- An ephemeris record comes from the ephemeris sub-step alone, when a string 4 completes a set. -/
theorem asm_ephemerisReady {ev : AsmEvent} {ts : TS} {l : LocalOf TS Sat} {new : List (OutputOf TS Sat)} {sat : Sat}
    {fields : FieldMap} {stamp : Stamp} {rx : TS} (hout : (asm ev ts l).out = l.out ++ new)
    (hmem : OutputOf.ephemerisReady sat fields stamp rx ∈ new) :
    ∃ f, ephCount l.ch.ephHave = 3 ∧ ev = .str 4 f ∧ rx = ts ∧ sat = l.ch.sat ∧
      fields = FieldMap.merge l.ch.eph (FieldMap.record f) := by
  obtain ⟨eph, time, alm, heph, htime, halm, hout'⟩ := asm_out ev ts l
  obtain rfl := List.append_cancel_left (hout.symm.trans hout')
  rw [List.mem_append, List.mem_append] at hmem
  obtain (hmem | hmem) | hmem := hmem
  · cases heph with
    | silent => cases hmem
    | discarded => simp at hmem
    | committed f stamp' hthree hev =>
      rw [List.mem_singleton, OutputOf.ephemerisReady.injEq] at hmem
      obtain ⟨hsat, hfields, -, hrx⟩ := hmem
      exact ⟨f, hthree, hev, hrx, hsat, hfields⟩
  · cases htime <;> simp at hmem
  · cases halm <;> simp at hmem

/-- An almanac record comes from the almanac sub-step alone, when an odd string meets a half with its `n_A`. -/
theorem asm_almanacReady {ev : AsmEvent} {ts : TS} {l : LocalOf TS Sat} {new : List (OutputOf TS Sat)} {sat : Sat}
    {nA : Rat} {fields : FieldMap} {stamp : Stamp} {rx : TS} (hout : (asm ev ts l).out = l.out ++ new)
    (hmem : OutputOf.almanacReady sat nA fields stamp rx ∈ new) :
    ∃ id f, ev = .str id f ∧ classOf id = some .odd ∧ l.ch.almPend = true ∧ FieldMap.read f .nA = l.ch.almNA ∧
      rx = ts ∧ sat = l.ch.sat ∧ nA = l.ch.almNA ∧ fields = FieldMap.merge l.ch.alm (FieldMap.record f) := by
  obtain ⟨eph, time, alm, heph, htime, halm, hout'⟩ := asm_out ev ts l
  obtain rfl := List.append_cancel_left (hout.symm.trans hout')
  rw [List.mem_append, List.mem_append] at hmem
  obtain (hmem | hmem) | hmem := hmem
  · cases heph <;> simp at hmem
  · cases htime <;> simp at hmem
  · cases halm with
    | silent => cases hmem
    | discarded => simp at hmem
    | paired id f stamp' hev hcls hwaits hsame =>
      rw [List.mem_singleton, OutputOf.almanacReady.injEq] at hmem
      obtain ⟨hsat, hnA, hfields, -, hrx⟩ := hmem
      exact ⟨id, f, hev, hcls, hwaits, hsame, hrx, hsat, hnA, hfields⟩

/-! ### Runs of the assembler (R155, R157) -/

theorem asmRun_concat (ins : List AsmInput) (i : AsmInput) (l : Local) :
    asmRun (ins ++ [i]) l = asmInput i (asmRun ins l) := by
  induction ins generalizing l with
  | nil => rfl
  | cons j ins ih => exact ih _

/-- A property of the inputs so far and the channel that holds before the first input, and that every input keeps,
holds after every run. -/
theorem asmRun_induction {P : List AsmInput → Channel → Prop} {l : Local} (hstart : P [] l.ch)
    (hinput : ∀ ins i m, P ins m.ch → P (ins ++ [i]) (asmInput i m).ch) (ins : List AsmInput) :
    P ins (asmRun ins l).ch := by
  induction ins using List.reverseRecOn with
  | nil => exact hstart
  | append_singleton ins i ih =>
    rw [asmRun_concat]
    exact hinput ins i _ ih

/-- No input of the assembler writes the tag. -/
theorem asmRun_sat (ins : List AsmInput) (l : Local) : (asmRun ins l).ch.sat = l.ch.sat := by
  refine asmRun_induction (P := fun _ ch => ch.sat = l.ch.sat) rfl (fun _ i m h => ?_) ins
  cases i with
  | acquisition => exact h
  | slot ev ts => exact (asm_keepsSync ev ts m).sat.trans h

/-- What the ephemeris partial holds after a run from a clear one: nothing, or the fields of the last one, two or three
inputs, which are strings 1, 2, 3 in this order. -/
def HoldsLastStrings (ins : List AsmInput) (ch : Channel) : Prop :=
  ch.ephHave = 0b0000#4 ∨
  (∃ pre f1 t1, ins = pre ++ [.slot (.str 1 f1) t1] ∧ ch.ephHave = 0b1000#4 ∧
    ch.eph = FieldMap.merge [] (FieldMap.record f1)) ∨
  (∃ pre f1 f2 t1 t2, ins = pre ++ [.slot (.str 1 f1) t1, .slot (.str 2 f2) t2] ∧ ch.ephHave = 0b1100#4 ∧
    ch.eph = FieldMap.merge (FieldMap.merge [] (FieldMap.record f1)) (FieldMap.record f2)) ∨
  (∃ pre f1 f2 f3 t1 t2 t3, ins = pre ++ [.slot (.str 1 f1) t1, .slot (.str 2 f2) t2, .slot (.str 3 f3) t3] ∧
    ch.ephHave = 0b1110#4 ∧
    ch.eph = FieldMap.merge (FieldMap.merge (FieldMap.merge [] (FieldMap.record f1)) (FieldMap.record f2))
      (FieldMap.record f3))

/-- An input keeps what the ephemeris partial holds in step with the last inputs. -/
theorem holdsLastStrings_asmInput (ins : List AsmInput) (i : AsmInput) (l : Local) (h : HoldsLastStrings ins l.ch) :
    HoldsLastStrings (ins ++ [i]) (asmInput i l).ch := by
  cases i with
  | acquisition => exact .inl rfl
  | slot ev ts =>
    obtain ⟨k, f, hk, hpos, h3, rfl, hhave, heph⟩ | ⟨f, rfl, hhave, heph⟩ | ⟨hhave, -⟩ := asm_eph_cases ev ts l
    · obtain hclear | ⟨pre, f1, t1, rfl, hone, heph1⟩ | ⟨pre, f1, f2, t1, t2, rfl, htwo, heph2⟩ |
        ⟨_, _, _, _, _, _, _, _, hthree, _⟩ := h
      · rw [hclear, ephCount_zero] at hk
        omega
      · obtain rfl : 1 = k := by rw [← hk, hone, ephCount_one]
        refine .inr (.inr (.inl ⟨pre, f1, f, t1, ts, List.append_assoc _ _ _, ?_, ?_⟩))
        · rw [asmInput, hhave, hone, setHave_two]
        · rw [asmInput, heph, heph1]
      · obtain rfl : 2 = k := by rw [← hk, htwo, ephCount_two]
        refine .inr (.inr (.inr ⟨pre, f1, f2, f, t1, t2, ts, List.append_assoc _ _ _, ?_, ?_⟩))
        · rw [asmInput, hhave, htwo, setHave_three]
        · rw [asmInput, heph, heph2]
      · rw [hthree, ephCount_three] at hk
        exact absurd hk.symm h3
    · exact .inr (.inl ⟨ins, f, ts, rfl, hhave, heph⟩)
    · exact .inl hhave

/-- Settles O38: the set that a string 4 completes holds the last three inputs. -/
theorem ephemerisIsOneFrameOnly : Obligations.EphemerisIsOneFrameOnly := by
  intro l ins ev ts rx sat fields stamp new hclear hout hmem
  obtain ⟨f4, hset, hev, hrx, hsat, hfields⟩ := asm_ephemerisReady hout hmem
  have hholds : HoldsLastStrings ins (asmRun ins l).ch :=
    asmRun_induction (.inl hclear) holdsLastStrings_asmInput ins
  obtain hhave | ⟨_, _, _, _, hhave, _⟩ | ⟨_, _, _, _, _, _, hhave, _⟩ |
    ⟨pre, f1, f2, f3, t1, t2, t3, hins, -, heph⟩ := hholds
  · rw [hhave] at hset; cases hset
  · rw [hhave] at hset; cases hset
  · rw [hhave] at hset; cases hset
  · exact ⟨pre, f1, f2, f3, f4, t1, t2, t3, hins, hev, hrx, hsat.trans (asmRun_sat ins l), heph ▸ hfields⟩

/-- What the almanac partial holds after a run with nothing waiting before it: nothing, or the fields of the last even
string, with no almanac string and no acquisition after it. -/
def HoldsLastEven (ins : List AsmInput) (ch : Channel) : Prop :=
  ch.almPend = false ∨
  ∃ pre mid e fe te, ins = pre ++ .slot (.str e fe) te :: mid ∧ classOf e = some .even ∧
    (∀ x ∈ mid, ¬ x.IsAlmanac ∧ x ≠ .acquisition) ∧ ch.almNA = FieldMap.read fe .nA ∧
    ch.alm = FieldMap.merge [] (FieldMap.record fe)

/-- An input keeps what the almanac partial holds in step with the last even string. -/
theorem holdsLastEven_asmInput (ins : List AsmInput) (i : AsmInput) (l : Local) (h : HoldsLastEven ins l.ch) :
    HoldsLastEven (ins ++ [i]) (asmInput i l).ch := by
  cases i with
  | acquisition => exact .inl rfl
  | slot ev ts =>
    obtain ⟨id, f, rfl, heven, -, -, hnA, halm⟩ | ⟨id, f, -, -, hpend, -⟩ | ⟨hother, hkeeps⟩ := asm_alm_cases ev ts l
    · exact .inr ⟨ins, [], id, f, ts, rfl, heven, by simp, hnA, halm⟩
    · exact .inl hpend
    · have hslot : ¬ (AsmInput.slot ev ts).IsAlmanac := by
        cases ev with
        | void => exact id
        | str id f => exact not_or.2 (hother id f rfl)
      obtain hpend | ⟨pre, mid, e, fe, te, rfl, heven, hmid, hnA, halm⟩ := h
      · exact .inl (hkeeps.almPend.trans hpend)
      · refine .inr ⟨pre, mid ++ [.slot ev ts], e, fe, te, by simp, heven, ?_, hkeeps.almNA.trans hnA,
          hkeeps.alm.trans halm⟩
        intro x hx
        obtain hx | hx := List.mem_append.1 hx
        · exact hmid x hx
        · rw [List.mem_singleton.1 hx]
          exact ⟨hslot, by simp⟩

/-- Settles O39: the half that an odd string completes is the last even string. -/
theorem almanacIsOnePairOnly : Obligations.AlmanacIsOnePairOnly := by
  intro l ins ev ts rx sat nA fields stamp new hnone hout hmem
  obtain ⟨o, fo, hev, hodd, hwaits, hsame, hrx, hsat, hnA, hfields⟩ := asm_almanacReady hout hmem
  have hholds : HoldsLastEven ins (asmRun ins l).ch := asmRun_induction (.inl hnone) holdsLastEven_asmInput ins
  obtain hpend | ⟨pre, mid, e, fe, te, hins, heven, hmid, hnAe, halm⟩ := hholds
  · rw [hpend] at hwaits
    cases hwaits
  · exact ⟨pre, mid, e, o, fe, fo, te, hins, hev, heven, hodd, hmid, hrx, hsat.trans (asmRun_sat ins l),
      hnA.trans hnAe, hnA.trans hsame.symm, halm ▸ hfields⟩

end Sys2Proof.Machine
end

section
/-! PROOFS. What a PUSH puts out (R187, R189), the counters (R176 to R179, R190, R195), and TimeState (R18, R52). -/

namespace Sys2Proof.Machine

variable {TS Sat : Type}

/-! ### TimeState after an input (R143) -/

/-- The TimeState that a string 5 with the given fields writes (R143). -/
def TimeState.ofFields (f : FieldMap) : TimeState where
  valid := true
  n4 := FieldMap.read f .n4
  nT := FieldMap.read f .nT
  tauC := FieldMap.read f .tauC
  tauGps := FieldMap.read f .tauGps

theorem ephStep_time (ev : AsmEvent) (ts : TS) (l : LocalOf TS Sat) : (ephStep ev ts l).time = l.time := by
  obtain ⟨f, -, -, h⟩ | ⟨f, -, -, h⟩ | ⟨f, -, -, -, h⟩ | ⟨f, -, -, -, h⟩ | ⟨-, -, -, h⟩ | ⟨-, -, -, h⟩ :=
    ephStep_cases ev ts l <;> rw [h] <;> rfl

theorem almStep_time (ev : AsmEvent) (ts : TS) (l : LocalOf TS Sat) : (almStep ev ts l).time = l.time := by
  obtain ⟨id, f, -, -, h⟩ | ⟨id, f, -, -, h⟩ | ⟨-, h⟩ := almStep_cases ev ts l <;> rw [h]
  · rw [almEven_eq]
  · obtain ⟨-, h⟩ | ⟨-, -, h⟩ | ⟨-, -, h⟩ := almOdd_cases f ts l <;> rw [h]

/-- A string 5 replaces TimeState as a whole, and no other input writes it. -/
theorem asm_time_cases (ev : AsmEvent) (ts : TS) (l : LocalOf TS Sat) :
    (∃ f, ev = .str 5 f ∧ (asm ev ts l).time = TimeState.ofFields f) ∨
    ((∀ f, ev ≠ .str 5 f) ∧ (asm ev ts l).time = l.time) := by
  rw [asm, almStep_time]
  obtain ⟨f, hev, h⟩ | ⟨hother, h⟩ := timeStep_cases ev (ephStep ev ts l) <;> rw [h]
  · exact .inl ⟨f, hev, rfl⟩
  · exact .inr ⟨hother, ephStep_time ev ts l⟩

/-! ### A string as a slot of the assembler (R84) -/

/-- What a string is for the assembler: the signal that comes first, the slot, and the view the assembler is given. An
accepted string of a class comes without a signal; ChecksumFailure and UnknownStringId are followed by a void slot. -/
inductive StringSlot (d : DataWord) (l : LocalOf TS Sat) :
    List (OutputOf TS Sat) → AsmEvent → LocalOf TS Sat → Prop
  | accepted (cls : FieldClass) (haccept : hammingAccept l.cfg.ht d = true) (hcls : classOf (stringId d) = some cls) :
      StringSlot d l [] (.str (stringId d) (extract l.cfg.ft cls d)) l
  | rejected : StringSlot d l [.err (.checksumFailure l.ch.sat)] .void (l.raise (.checksumFailure l.ch.sat))
  | unknown : StringSlot d l [.err (.unknownStringId l.ch.sat 0)] .void (l.raise (.unknownStringId l.ch.sat 0))

/-- Every string is a slot of the assembler. -/
theorem stringDone_slot (d : DataWord) (ts : TS) (l : LocalOf TS Sat) :
    ∃ first ev m, StringSlot d l first ev m ∧ stringDone d ts l = asm ev ts m := by
  obtain ⟨-, h⟩ | ⟨-, -, h⟩ | ⟨haccept, cls, hcls, h⟩ := stringDone_cases d ts l
  · exact ⟨_, _, _, .rejected, h⟩
  · exact ⟨_, _, _, .unknown, h⟩
  · exact ⟨_, _, _, .accepted cls haccept hcls, h⟩

section Slot

variable {d : DataWord} {l m : LocalOf TS Sat} {first : List (OutputOf TS Sat)} {ev : AsmEvent}

theorem StringSlot.out (h : StringSlot d l first ev m) : m.out = l.out ++ first := by
  cases h with
  | accepted => exact (List.append_nil _).symm
  | rejected => rfl
  | unknown => rfl

theorem StringSlot.time (h : StringSlot d l first ev m) : m.time = l.time := by cases h <;> rfl

theorem StringSlot.keepsSync (h : StringSlot d l first ev m) : l.KeepsSync m := by
  cases h with
  | accepted => exact .refl l
  | rejected => exact raise_keepsSync _ l
  | unknown => exact raise_keepsSync _ l

theorem StringSlot.keepsEph (h : StringSlot d l first ev m) : l.KeepsEph m := by cases h <;> exact ⟨rfl, rfl⟩

theorem StringSlot.keepsAlm (h : StringSlot d l first ev m) : l.KeepsAlm m := by
  cases h <;> exact ⟨rfl, rfl, rfl, rfl⟩

/-- A string with a signal of its own is a void slot. -/
theorem StringSlot.void_of_signal (h : StringSlot d l first ev m) (hne : first ≠ []) : ev = .void := by
  cases h with
  | accepted => exact absurd rfl hne
  | rejected => rfl
  | unknown => rfl

theorem StringSlot.first_shape (h : StringSlot d l first ev m) : first = [] ∨
    first = [.err (.checksumFailure l.ch.sat)] ∨ first = [.err (.unknownStringId l.ch.sat 0)] := by
  cases h with
  | accepted => exact .inl rfl
  | rejected => exact .inr (.inl rfl)
  | unknown => exact .inr (.inr rfl)

end Slot

/-! ### What a string puts out (R189) -/

/-- What the ephemeris sub-step puts out depends on the channel's tag and the ephemeris partial only. -/
theorem EphOut.of_keepsEph {ev : AsmEvent} {ts : TS} {l m : LocalOf TS Sat} {o : List (OutputOf TS Sat)}
    (hsat : m.ch.sat = l.ch.sat) (hkeeps : l.KeepsEph m) (h : EphOut ev ts m o) : EphOut ev ts l o := by
  cases h with
  | silent => exact .silent
  | discarded => rw [hsat]; exact .discarded
  | committed f stamp hthree hev =>
    rw [hsat, hkeeps.eph]
    exact .committed f stamp (hkeeps.ephHave ▸ hthree) hev

/-- The TimeUpdate of an input carries the TimeState it leaves (R185). -/
theorem TimeOut.carries {ev : AsmEvent} {l : LocalOf TS Sat} {time : List (OutputOf TS Sat)} (h : TimeOut ev l time)
    (ts : TS) (m : LocalOf TS Sat) : time = [] ∨ time = [.timeUpdate l.ch.sat (asm ev ts m).time.n4
      (asm ev ts m).time.nT (asm ev ts m).time.tauC (asm ev ts m).time.tauGps] := by
  cases h with
  | silent => exact .inl rfl
  | updated f hev =>
    obtain ⟨g, hev', htime⟩ | ⟨hother, -⟩ := asm_time_cases ev ts m
    · obtain ⟨-, rfl⟩ := AsmEvent.str.inj (hev.symm.trans hev')
      rw [htime]
      exact .inr rfl
    · exact absurd hev (hother f)

/-- What a string puts out: its own signal if it has one, then what its slot puts out. -/
theorem stringDone_out (d : DataWord) (ts : TS) (l : LocalOf TS Sat) :
    ∃ first ev m eph time alm, StringSlot d l first ev m ∧ stringDone d ts l = asm ev ts m ∧
      EphOut ev ts l eph ∧ TimeOut ev l time ∧ AlmOut ev ts l alm ∧
      (stringDone d ts l).out = l.out ++ (first ++ eph ++ time ++ alm) := by
  obtain ⟨first, ev, m, hslot, hrun⟩ := stringDone_slot d ts l
  obtain ⟨eph, time, alm, heph, htime, halm, hout⟩ := asm_out ev ts m
  have hsat := hslot.keepsSync.sat
  refine ⟨first, ev, m, eph, time, alm, hslot, hrun, heph.of_keepsEph hsat hslot.keepsEph, htime.of_sat hsat,
    halm.of_keepsAlm hsat hslot.keepsAlm, ?_⟩
  rw [hrun, hout, hslot.out]
  simp only [List.append_assoc]

/-! ### The list of R189 -/

section Exclusive

variable {ev : AsmEvent} {ts : TS} {l : LocalOf TS Sat} {first eph time alm : List (OutputOf TS Sat)}

/-- A void slot ends a set at most (R133, R138). -/
theorem void_out (heph : EphOut .void ts l eph) (htime : TimeOut .void l time) (halm : AlmOut .void ts l alm) :
    time = [] ∧ alm = [] ∧ (eph = [] ∨ eph = [.err (.incompleteFrame l.ch.sat .eph)]) := by
  refine ⟨?_, ?_, ?_⟩
  · cases htime with
    | silent => rfl
    | updated _ hev => cases hev
  · cases halm with
    | silent => rfl
    | discarded _ _ hev => cases hev
    | paired _ _ _ hev => cases hev
  · cases heph with
    | silent => exact .inl rfl
    | discarded => exact .inr rfl
    | committed _ _ _ hev => cases hev

/-- The string 4 that completes a set is no string 5 and no almanac string. -/
theorem committed_alone {f : FieldMap} (hev : ev = .str 4 f) (htime : TimeOut ev l time) (halm : AlmOut ev ts l alm) :
    time = [] ∧ alm = [] := by
  subst hev
  constructor
  · cases htime with
    | silent => rfl
    | updated _ hev => cases hev
  · cases halm with
    | silent => rfl
    | discarded _ _ hev hcls => cases hev; obtain h | h := hcls <;> cases h
    | paired _ _ _ hev hcls => cases hev; cases hcls

/-- A string 5 is no almanac string. -/
theorem updated_alone (htime : TimeOut ev l time) (halm : AlmOut ev ts l alm) (hne : time ≠ []) : alm = [] := by
  cases htime with
  | silent => exact absurd rfl hne
  | updated f hev =>
    subst hev
    cases halm with
    | silent => rfl
    | discarded _ _ hev hcls => cases hev; obtain h | h := hcls <;> cases h
    | paired _ _ _ hev hcls => cases hev; cases hcls

/-- Each sub-step puts out one output at most. -/
theorem EphOut.length_le (h : EphOut ev ts l eph) : eph.length ≤ 1 := by cases h <;> simp

theorem TimeOut.length_le (h : TimeOut ev l time) : time.length ≤ 1 := by cases h <;> simp

theorem AlmOut.length_le (h : AlmOut ev ts l alm) : alm.length ≤ 1 := by cases h <;> simp

theorem EphOut.shape (h : EphOut ev ts l eph) : eph = [] ∨ eph = [.err (.incompleteFrame l.ch.sat .eph)] ∨
    ∃ fields stamp, eph = [.ephemerisReady l.ch.sat fields stamp ts] := by
  cases h with
  | silent => exact .inl rfl
  | discarded => exact .inr (.inl rfl)
  | committed => exact .inr (.inr ⟨_, _, rfl⟩)

theorem AlmOut.shape (h : AlmOut ev ts l alm) : alm = [] ∨ alm = [.err (.incompleteFrame l.ch.sat .alm)] ∨
    ∃ nA fields stamp, alm = [.almanacReady l.ch.sat nA fields stamp ts] := by
  cases h with
  | silent => exact .inl rfl
  | discarded => exact .inr (.inl rfl)
  | paired => exact .inr (.inr ⟨_, _, _, rfl⟩)

/-- A record comes from a string 4. -/
theorem EphOut.string_four {sat : Sat} {fields : FieldMap} {stamp : Stamp} {rx : TS}
    (h : EphOut ev ts l [.ephemerisReady sat fields stamp rx]) : ∃ f, ev = .str 4 f := by
  cases h with
  | committed f _ _ hev => exact ⟨f, hev⟩

/-- A string puts out two outputs at most. -/
theorem string_length_le {d : DataWord} {m : LocalOf TS Sat} (hslot : StringSlot d l first ev m) (heph : EphOut ev ts l eph)
    (htime : TimeOut ev l time) (halm : AlmOut ev ts l alm) : (first ++ eph ++ time ++ alm).length ≤ 2 := by
  have hEph := heph.length_le
  have hTime := htime.length_le
  have hAlm := halm.length_le
  simp only [List.length_append]
  by_cases hfirst : first = []
  · have hfirst : first.length = 0 := by rw [hfirst, List.length_nil]
    by_cases hnone : time = []
    · have hnone : time.length = 0 := by rw [hnone, List.length_nil]
      omega
    · have hnone : alm.length = 0 := by rw [updated_alone htime halm hnone, List.length_nil]
      omega
  · obtain rfl := hslot.void_of_signal hfirst
    obtain ⟨rfl, rfl, -⟩ := void_out heph htime halm
    have hone : first.length ≤ 1 := by cases hslot <;> simp
    simp only [List.length_nil]
    omega

end Exclusive

/-- Settles O40: only the loss of sync and the string of a completed block put anything out. -/
theorem pushOutputsAreTheList : Obligations.PushOutputsAreTheList := by
  intro s t c ch b ts hc hexec
  obtain ⟨-, ch', l, hc', hstep, rfl⟩ := exec_push_next_step hexec
  obtain rfl : ch = ch' := Option.some.inj (hc.symm.trans hc')
  cases hstep with
  | searches => exact .inl rfl
  | acquires => exact .inl rfl
  | stores => exact .inl rfl
  | passes => exact .inl rfl
  | loses hsync hpos => exact .inr (.inl ⟨hsync, hpos, rfl⟩)
  | runs hsync hpos =>
    obtain ⟨first, ev, m, eph, time, alm, hslot, hrun, heph, htime, halm, hout⟩ := stringDone_out
      (rawData (memWrite ch.buf 115 (b ^^ ch.pol))) ch.bufTs
      ((storeBit 115 b ts (windowShift b ts { s.view ch with out := [] })).atBit 0)
    have hout := hout.trans (List.nil_append _)
    refine .inr (.inr ⟨hsync, hpos, first, eph, time, alm, hout, ?length, hslot.first_shape, heph.shape, ?carries,
      halm.shape, ?void, updated_alone htime halm, ?record⟩)
    case length => exact (congrArg List.length hout).trans_le (string_length_le hslot heph htime halm)
    case carries =>
      have hcarries := htime.carries ch.bufTs m
      rw [← hrun] at hcarries
      exact hcarries
    case void =>
      intro hne
      obtain rfl := hslot.void_of_signal hne
      exact void_out heph htime halm
    case record =>
      rintro ⟨fields, stamp, rfl⟩
      obtain ⟨f, hev⟩ := heph.string_four
      exact committed_alone hev htime halm

/-! ### TimeState (R18, R52, R143) -/

/-- A string leaves TimeState alone, or it is an accepted string 5, which replaces it and puts out its TimeUpdate. -/
theorem stringDone_time_cases (d : DataWord) (ts : TS) (l : LocalOf TS Sat) : (stringDone d ts l).time = l.time ∨
    (hammingAccept l.cfg.ht d = true ∧ stringId d = 5 ∧
      (stringDone d ts l).time = TimeState.ofFields (extract l.cfg.ft .c5 d) ∧
      ∃ new, (stringDone d ts l).out = l.out ++ new ∧
        .timeUpdate l.ch.sat (TimeState.ofFields (extract l.cfg.ft .c5 d)).n4
          (TimeState.ofFields (extract l.cfg.ft .c5 d)).nT (TimeState.ofFields (extract l.cfg.ft .c5 d)).tauC
          (TimeState.ofFields (extract l.cfg.ft .c5 d)).tauGps ∈ new) := by
  obtain ⟨first, ev, m, eph, time, alm, hslot, hrun, -, htime, -, hout⟩ := stringDone_out d ts l
  have htimeOut := htime.carries ts m
  rw [hout, hrun]
  obtain ⟨f, hev, hnew⟩ | ⟨-, hkept⟩ := asm_time_cases ev ts m
  · right
    cases hslot with
    | accepted cls haccept hcls =>
      obtain ⟨hid, rfl⟩ := AsmEvent.str.inj hev
      rw [hid] at hcls
      cases hcls
      refine ⟨haccept, hid, hnew, _, rfl, ?_⟩
      obtain hnone | hsome := htimeOut
      · cases htime with
        | silent hother => exact absurd hev (hother _)
        | updated => cases hnone
      · rw [hsome, hnew]
        simp
    | rejected => cases hev
    | unknown => cases hev
  · exact .inl (hkept.trans hslot.time)

/-- Settles O44: apart from RESET only the string pipeline writes TimeState, run on its own or by a PUSH of a 115th
bit. -/
theorem timeStateIsReplacedAsAWhole : Obligations.TimeStateIsReplacedAsAWhole := by
  intro s t i hexec hreset
  cases instrKind i with
  | reset sats => exact absurd rfl (hreset sats)
  | query sod ref =>
    obtain ⟨-, rfl⟩ := execQuery_next hexec
    exact .inl rfl
  | chReset c sat =>
    obtain ⟨-, ch, -, rfl⟩ := onChannel_next ((exec_chReset c sat s).symm.trans hexec)
    exact .inl rfl
  | push c b ts =>
    obtain ⟨-, ch, l, hc, hstep, rfl⟩ := exec_push_next_step hexec
    cases hstep with
    | searches => exact .inl rfl
    | acquires => exact .inl rfl
    | stores => exact .inl rfl
    | passes => exact .inl rfl
    | loses => exact .inl rfl
    | runs hsync hpos =>
      obtain hkept | ⟨haccept, hid, htime, new, hout, hmem⟩ := stringDone_time_cases
        (rawData (memWrite ch.buf 115 (b ^^ ch.pol))) ch.bufTs
        ((storeBit 115 b ts (windowShift b ts { s.view ch with out := [] })).atBit 0)
      · exact .inl hkept
      · exact .inr ⟨c, ch, ts, _, new, hc, .inr ⟨b, rfl, hsync, hpos, rfl, hout⟩, haccept, hid, htime, hmem⟩
  | string id c p ts =>
    obtain ⟨-, ch, hc, rfl⟩ := onChannel_next ((exec_string id c p ts s).symm.trans hexec)
    obtain hkept | ⟨haccept, hid, htime, new, hout, hmem⟩ := stringDone_time_cases (p.dataWord id) ts (s.view ch)
    · exact .inl hkept
    · obtain rfl : id = 5#4 := BitVec.eq_of_toNat_eq ((stringId_dataWord id p).symm.trans hid)
      exact .inr ⟨c, ch, ts, _, new, hc, .inl ⟨p, rfl, rfl, hout⟩, haccept, hid, htime, hmem⟩

end Sys2Proof.Machine
end

section
/-! PROOFS. The counters count the signals (R176 to R179, R190, R195). -/

namespace Sys2Proof.Machine

/-- From one view to a later one the output list grows by `new`, the tag stays, and each of the four counters rises by
the number of its signals in `new`. -/
structure CountsSignals (l m : Local) (new : List Output) : Prop where
  out : m.out = l.out ++ new
  sat : m.ch.sat = l.ch.sat
  syncLoss : m.ch.cntSyncLoss = l.ch.cntSyncLoss + new.count (.err (.syncLoss l.ch.sat))
  cksumFail : m.ch.cntCksumFail = l.ch.cntCksumFail + new.count (.err (.checksumFailure l.ch.sat))
  unknownId : m.ch.cntUnknownId = l.ch.cntUnknownId + new.count (.err (.unknownStringId l.ch.sat 0))
  restart : m.ch.cntRestart = l.ch.cntRestart + new.count (.err (.incompleteFrame l.ch.sat .eph)) +
    new.count (.err (.incompleteFrame l.ch.sat .alm))

/-- The tag and the four counters of two channels are the same. -/
structure SameCounts (a b : Channel) : Prop where
  sat : b.sat = a.sat
  syncLoss : b.cntSyncLoss = a.cntSyncLoss
  cksumFail : b.cntCksumFail = a.cntCksumFail
  unknownId : b.cntUnknownId = a.cntUnknownId
  restart : b.cntRestart = a.cntRestart

theorem CountsSignals.trans {l m k : Local} {new new' : List Output} (h : CountsSignals l m new)
    (h' : CountsSignals m k new') : CountsSignals l k (new ++ new') := by
  obtain ⟨hout, hsat, hsync, hcksum, hunknown, hrestart⟩ := h
  obtain ⟨hout', hsat', hsync', hcksum', hunknown', hrestart'⟩ := h'
  rw [hsat] at hsat' hsync' hcksum' hunknown' hrestart'
  refine ⟨by rw [hout', hout, List.append_assoc], hsat', ?_, ?_, ?_, ?_⟩ <;> simp only [List.count_append] <;> omega

/-- Without an output the counters stay. -/
theorem CountsSignals.silent {l m : Local} (hout : m.out = l.out) (h : SameCounts l.ch m.ch) :
    CountsSignals l m [] := by
  obtain ⟨hsat, hsync, hcksum, hunknown, hrestart⟩ := h
  exact ⟨by rw [hout, List.append_nil], hsat, hsync, hcksum, hunknown, hrestart⟩

/-- An event is no signal, and is not counted. -/
theorem CountsSignals.event {l m : Local} {o : Output} (ho : ∀ e, o ≠ .err e) (hout : m.out = l.out ++ [o])
    (h : SameCounts l.ch m.ch) : CountsSignals l m [o] := by
  obtain ⟨hsat, hsync, hcksum, hunknown, hrestart⟩ := h
  have hzero : ∀ e, [o].count (.err e) = 0 := fun e => List.count_eq_zero.2 fun hmem => ho e (List.mem_singleton.1 hmem).symm
  refine ⟨hout, hsat, ?_, ?_, ?_, ?_⟩ <;> simpa only [hzero]

/-- The signals a channel can raise. -/
def ownSignals (sat : SatId) : List Err :=
  [.syncLoss sat, .checksumFailure sat, .unknownStringId sat 0, .incompleteFrame sat .eph, .incompleteFrame sat .alm]

/-- Raising a signal counts it (R190). -/
theorem CountsSignals.raise {l : Local} {e : Err} (he : e ∈ ownSignals l.ch.sat) : CountsSignals l (l.raise e) [.err e] := by
  simp only [ownSignals, List.mem_cons, List.not_mem_nil, or_false] at he
  obtain rfl | rfl | rfl | rfl | rfl := he <;> constructor <;> simp

/-! ### The assembler -/

theorem ephDiscard_counts (l : Local) : CountsSignals l (ephDiscard l) [.err (.incompleteFrame l.ch.sat .eph)] :=
  have hcleared : CountsSignals l { l with ch := { l.ch with ephHave := 0#4, eph := [] } } [] :=
    .silent rfl ⟨rfl, rfl, rfl, rfl, rfl⟩
  hcleared.trans (.raise (by simp [ownSignals]))

theorem ephStep_counts (ev : AsmEvent) (ts : SampleTime) (l : Local) : ∃ new, CountsSignals l (ephStep ev ts l) new := by
  obtain ⟨f, -, -, h⟩ | ⟨f, -, -, h⟩ | ⟨f, -, -, -, h⟩ | ⟨f, -, -, -, h⟩ | ⟨-, -, -, h⟩ | ⟨-, -, -, h⟩ :=
    ephStep_cases ev ts l <;> rw [h]
  · exact ⟨_, .event (fun _ he => by cases he) rfl ⟨rfl, rfl, rfl, rfl, rfl⟩⟩
  · exact ⟨_, .silent rfl ⟨rfl, rfl, rfl, rfl, rfl⟩⟩
  · exact ⟨_, .silent rfl ⟨rfl, rfl, rfl, rfl, rfl⟩⟩
  · exact ⟨_, (ephDiscard_counts l).trans (.silent rfl ⟨rfl, rfl, rfl, rfl, rfl⟩)⟩
  · exact ⟨_, .silent rfl ⟨rfl, rfl, rfl, rfl, rfl⟩⟩
  · exact ⟨_, ephDiscard_counts l⟩

theorem timeStep_counts (ev : AsmEvent) (l : Local) : ∃ new, CountsSignals l (timeStep ev l) new := by
  obtain ⟨f, -, h⟩ | ⟨-, h⟩ := timeStep_cases ev l <;> rw [h]
  · exact ⟨_, .event (fun _ he => by cases he) rfl ⟨rfl, rfl, rfl, rfl, rfl⟩⟩
  · exact ⟨_, .silent rfl ⟨rfl, rfl, rfl, rfl, rfl⟩⟩

/-- A half that goes without its pair is signalled and counted. -/
theorem raise_alm_counts {l m : Local} (hout : m.out = (l.raise (.incompleteFrame l.ch.sat .alm)).out)
    (h : SameCounts (l.raise (.incompleteFrame l.ch.sat .alm)).ch m.ch) : ∃ new, CountsSignals l m new :=
  ⟨_, (CountsSignals.raise (by simp [ownSignals])).trans (.silent hout h)⟩

theorem almStep_counts (ev : AsmEvent) (ts : SampleTime) (l : Local) : ∃ new, CountsSignals l (almStep ev ts l) new := by
  obtain ⟨id, f, -, -, h⟩ | ⟨id, f, -, -, h⟩ | ⟨-, h⟩ := almStep_cases ev ts l <;> rw [h]
  · unfold almEven
    simp only
    split
    · exact raise_alm_counts rfl ⟨rfl, rfl, rfl, rfl, rfl⟩
    · exact ⟨_, .silent rfl ⟨rfl, rfl, rfl, rfl, rfl⟩⟩
  · obtain ⟨-, h⟩ | ⟨-, -, h⟩ | ⟨-, -, h⟩ := almOdd_cases f ts l <;> rw [h]
    · exact ⟨_, .silent rfl ⟨rfl, rfl, rfl, rfl, rfl⟩⟩
    · exact ⟨_, .event (fun _ he => by cases he) rfl ⟨rfl, rfl, rfl, rfl, rfl⟩⟩
    · exact raise_alm_counts rfl ⟨rfl, rfl, rfl, rfl, rfl⟩
  · exact ⟨_, .silent rfl ⟨rfl, rfl, rfl, rfl, rfl⟩⟩

theorem asm_counts (ev : AsmEvent) (ts : SampleTime) (l : Local) : ∃ new, CountsSignals l (asm ev ts l) new := by
  obtain ⟨_, heph⟩ := ephStep_counts ev ts l
  obtain ⟨_, htime⟩ := timeStep_counts ev (ephStep ev ts l)
  obtain ⟨_, halm⟩ := almStep_counts ev ts (timeStep ev (ephStep ev ts l))
  exact ⟨_, (heph.trans htime).trans halm⟩

theorem stringDone_counts (d : DataWord) (ts : SampleTime) (l : Local) :
    ∃ new, CountsSignals l (stringDone d ts l) new := by
  obtain ⟨first, ev, m, hslot, hrun⟩ := stringDone_slot d ts l
  obtain ⟨_, hasm⟩ := asm_counts ev ts m
  have hfirst : CountsSignals l m first := by
    cases hslot with
    | accepted => exact .silent rfl ⟨rfl, rfl, rfl, rfl, rfl⟩
    | rejected => exact .raise (by simp [ownSignals])
    | unknown => exact .raise (by simp [ownSignals])
  rw [hrun]
  exact ⟨_, hfirst.trans hasm⟩

/-! ### The synchroniser -/

/-- A PUSH counts what it puts out. -/
theorem pushStep_counts {b : Bit} {ts : SampleTime} {l m : Local} (h : PushStep b ts l m) :
    ∃ new, CountsSignals l m new := by
  cases h with
  | searches => exact ⟨_, .silent rfl ⟨rfl, rfl, rfl, rfl, rfl⟩⟩
  | acquires => exact ⟨_, .silent rfl ⟨rfl, rfl, rfl, rfl, rfl⟩⟩
  | stores => exact ⟨_, .silent rfl ⟨rfl, rfl, rfl, rfl, rfl⟩⟩
  | passes => exact ⟨_, .silent rfl ⟨rfl, rfl, rfl, rfl, rfl⟩⟩
  | loses =>
    have hlost : CountsSignals l { storeBit 30 b ts (windowShift b ts l) with
        ch := { (storeBit 30 b ts (windowShift b ts l)).ch with sync := .lost, bitcnt := 0, miss := 0 } } [] :=
      .silent rfl ⟨rfl, rfl, rfl, rfl, rfl⟩
    exact ⟨_, hlost.trans (.raise (by simp [ownSignals]))⟩
  | runs =>
    obtain ⟨_, hstring⟩ := stringDone_counts (rawData (memWrite l.ch.buf 115 (b ^^ l.ch.pol))) l.ch.bufTs
      ((storeBit 115 b ts (windowShift b ts l)).atBit 0)
    have hstored : CountsSignals l ((storeBit 115 b ts (windowShift b ts l)).atBit 0) [] :=
      .silent rfl ⟨rfl, rfl, rfl, rfl, rfl⟩
    exact ⟨_, hstored.trans hstring⟩

/-- Settles O41: a PUSH begins with an empty output list (R12), so that what it appends is the step's output. -/
theorem countersCountTheSignals : Obligations.CountersCountTheSignals := by
  intro s t c ch u b ts hc hexec hu
  obtain ⟨-, ch', l, hc', hstep, rfl⟩ := exec_push_next_step hexec
  obtain rfl : ch = ch' := Option.some.inj (hc.symm.trans hc')
  obtain rfl : l.ch = u := Option.some.inj ((getElem?_putView_self l hc).symm.trans hu)
  obtain ⟨new, hout, -, hsync, hcksum, hunknown, hrestart⟩ := pushStep_counts hstep
  rw [State.putView_out, hout]
  exact ⟨hsync, hcksum, hunknown, hrestart⟩

end Sys2Proof.Machine
end

section
/-! PROOFS. Polarity invariance (R103): complementary bits in, the same outputs out. -/

namespace Sys2Proof.Machine

variable {TS Sat : Type}

/-! ### The mirror of a view -/

/-- A view with another window and another polarity in its channel. -/
def LocalOf.mirror (l : LocalOf TS Sat) (w : TimeMark) (p : Bit) : LocalOf TS Sat :=
  { l with ch := { l.ch with win := w, pol := p } }

/-- The window and the polarity of a channel that has received the complementary bits (R103). -/
structure Complements (ch : ChannelOf TS Sat) (w : TimeMark) (p : Bit) : Prop where
  win : ∀ i, i < 30 → i < ch.winN → ch.win.getLsbD i = !w.getLsbD i
  pol : ch.sync = .synced → ch.pol = !p

/-- Two channels are mirrored exactly when the second is the first with a complementary window and polarity. -/
theorem ChannelOf.mirrored_iff {a b : ChannelOf TS Sat} :
    a.Mirrored b ↔ b = { a with win := b.win, pol := b.pol } ∧ Complements a b.win b.pol := by
  constructor
  · rintro ⟨h1, h2, h3, hwin, h4, hpol, h5, h6, h7, h8, h9, h10, h11, h12, h13, h14, h15, h16, h17, h18⟩
    refine ⟨?_, hwin, hpol⟩
    rw [h1, h2, h3, h4, h5, h6, h7, h8, h9, h10, h11, h12, h13, h14, h15, h16, h17, h18]
  · rintro ⟨hb, hwin, hpol⟩
    rw [hb]
    exact ⟨rfl, rfl, rfl, hwin, rfl, hpol, rfl, rfl, rfl, rfl, rfl, rfl, rfl, rfl, rfl, rfl, rfl, rfl, rfl, rfl⟩

/-- Complementary bits shifted into complementary windows leave them complementary. -/
theorem shiftBits_complements {ch : ChannelOf TS Sat} {w : TimeMark} {p : Bit} (h : Complements ch w p) (b : Bit)
    {i : Nat} (hi : i < 30) (hn : i < min 30 (ch.winN + 1)) :
    (shiftBits ch.win b).getLsbD i = !(shiftBits w (!b)).getLsbD i := by
  rw [getLsbD_shiftBits _ _ _ hi, getLsbD_shiftBits _ _ _ hi]
  split
  · rw [Bool.not_not]
  · exact h.win (i - 1) (by omega) (by omega)

/-- A full window and its mirror are complements of each other. -/
theorem shiftBits_eq_not {ch : ChannelOf TS Sat} {w : TimeMark} {p : Bit} (h : Complements ch w p) (b : Bit)
    (hfull : min 30 (ch.winN + 1) = 30) : shiftBits w (!b) = ~~~(shiftBits ch.win b) := by
  apply BitVec.eq_of_getLsbD_eq
  intro i hi
  rw [BitVec.getLsbD_not, shiftBits_complements h b hi (by omega), Bool.not_not]
  simp [hi]

/-! ### SEARCHING and LOST -/

/-- Whatever the search finds in a window, it finds in the complement with the other polarity: with `T_SYNC >= 16` at
most one of its two tests succeeds (R102). -/
theorem AcquiresWith.not {cfg : Config} {w : TimeMark} {p : Bit} (h16 : 16 ≤ cfg.tSync) (h : AcquiresWith cfg w p) :
    AcquiresWith cfg (~~~w) (!p) := by
  have hle := agree_le w cfg.tm
  obtain ⟨rfl, hm⟩ | ⟨rfl, hm, hinv⟩ := h
  · exact .inr ⟨rfl, by rw [agree_not]; omega, by rw [agree_not]; omega⟩
  · exact .inl ⟨rfl, by rw [agree_not]; exact hinv⟩

/-- The corrected window of an acquisition does not depend on the polarity received. -/
theorem xorPol_not (x : TimeMark) (p : Bit) : xorPol (~~~x) (!p) = xorPol x p := by
  cases p <;> simp [xorPol]

/-! ### A PUSH of the complementary bit -/

section Mirror

variable {l : LocalOf TS Sat} {w : TimeMark} {p : Bit}

/-- Storing the complementary bit in a mirrored block stores the same bit (R96). -/
theorem storeBit_mirror (q : Nat) (b : Bit) (ts : TS) (hpol : l.ch.pol = !p) :
    storeBit q (!b) ts (windowShift (!b) ts (l.mirror w p)) =
      (storeBit q b ts (windowShift b ts l)).mirror (shiftBits w (!b)) p := by
  simp [storeBit, windowShift, LocalOf.mirror, hpol]

/-- The string pipeline reads neither the window nor the polarity. -/
theorem stringDone_mirror (d : DataWord) (ts : TS) (l : LocalOf TS Sat) (w : TimeMark) (p : Bit) :
    stringDone d ts (l.mirror w p) = (stringDone d ts l).mirror w p := by
  obtain ⟨-, -, -, hwinTs, hwinN, hsync, -, hbitcnt, hmiss, hbuf, hbufTs⟩ := stringDone_keepsSync d ts l
  have hmirror : l.mirror w p = l.withSync (l.mirror w p).ch := rfl
  rw [hmirror, stringDone_withSync]
  simp only [LocalOf.withSync, ChannelOf.withSync, LocalOf.mirror, ← hwinTs, ← hwinN, ← hsync, ← hbitcnt, ← hmiss,
    ← hbuf, ← hbufTs]

/-- What a PUSH does to a view, the PUSH of the complementary bit does to its mirror. -/
theorem pushStep_mirror {b : Bit} {ts : TS} {m : LocalOf TS Sat} (h16 : 16 ≤ l.cfg.tSync)
    (h : Complements l.ch w p) (hstep : PushStep b ts l m) :
    ∃ p', PushStep (!b) ts (l.mirror w p) (m.mirror (shiftBits w (!b)) p') ∧ (m.ch.sync = .synced → m.ch.pol = !p') := by
  have hbit : l.ch.sync = .synced → (!b ^^ p) = (b ^^ l.ch.pol) := fun hsync => by rw [h.pol hsync]; simp
  cases hstep with
  | searches hsync hnone =>
    refine ⟨p, .searches hsync ?_, fun hs => by cases hs⟩
    rintro ⟨hfull, q, hq⟩
    have hq : AcquiresWith l.cfg (shiftBits w (!b)) q := hq
    rw [shiftBits_eq_not h b hfull] at hq
    have hq := hq.not h16
    rw [BitVec.not_not] at hq
    exact hnone ⟨hfull, _, hq⟩
  | acquires q hsync hfull hq =>
    have hwin := shiftBits_eq_not h b hfull
    have hq' : AcquiresWith l.cfg (shiftBits w (!b)) (!q) := hwin ▸ hq.not h16
    have hmirror : acquire (!q) (windowShift (!b) ts (l.mirror w p)) =
        (acquire q (windowShift b ts l)).mirror (shiftBits w (!b)) (!q) := by
      simp only [acquire, asmReset, windowShift, LocalOf.mirror, hwin, xorPol_not]
    exact ⟨!q, hmirror ▸ .acquires (!q) hsync hfull hq', fun _ => (Bool.not_not q).symm⟩
  | stores hsync hmark hlast =>
    refine ⟨p, .of_eq (.stores hsync hmark hlast) ?_, h.pol⟩
    exact congrArg (LocalOf.atBit _) (storeBit_mirror _ b ts (h.pol hsync))
  | passes miss hsync hpos hmiss =>
    rw [← hbit hsync] at hmiss
    refine ⟨p, .of_eq (.passes miss hsync hpos hmiss) ?_, h.pol⟩
    exact congrArg (fun l => (l.withMiss miss).atBit 30) (storeBit_mirror 30 b ts (h.pol hsync))
  | loses hsync hpos hmark hmiss =>
    rw [← hbit hsync] at hmark
    refine ⟨p, .of_eq (.loses hsync hpos hmark hmiss) ?_, fun hs => by cases hs⟩
    exact congrArg lose (storeBit_mirror 30 b ts (h.pol hsync))
  | runs hsync hpos =>
    have hpol := (stringDone_keepsSync (rawData (memWrite l.ch.buf 115 (b ^^ l.ch.pol))) l.ch.bufTs
      ((storeBit 115 b ts (windowShift b ts l)).atBit 0)).pol
    refine ⟨p, .of_eq (.runs hsync hpos) ?_, fun _ => hpol.trans (h.pol hsync)⟩
    rw [← stringDone_mirror, ← hbit hsync]
    exact congrArg (fun m => stringDone _ _ (m.atBit 0)) (storeBit_mirror 115 b ts (h.pol hsync))

/-- A PUSH of the complementary bit takes a mirrored view to the mirror of what the PUSH of the bit gives. -/
theorem pushBit_mirror (b : Bit) (ts : TS) (h16 : 16 ≤ l.cfg.tSync) (h : Complements l.ch w p) :
    ∃ w' p', pushBit (!b) ts (l.mirror w p) = (pushBit b ts l).mirror w' p' ∧
      Complements (pushBit b ts l).ch w' p' := by
  obtain ⟨p', hstep, hpol⟩ := pushStep_mirror h16 h (pushStep b ts l)
  have hkeeps := pushBit_keepsWindow b ts l
  refine ⟨_, p', hstep.eq, ?_, hpol⟩
  rw [hkeeps.win, hkeeps.winN]
  exact fun i hi hn => shiftBits_complements h b hi hn

end Mirror

/-! ### The machine -/

/-- Settles O17. -/
theorem complementaryPushesStayMirrored : Obligations.ComplementaryPushesStayMirrored := by
  intro s t s' c b ts h16 hmirrored hexec
  obtain ⟨hcfg, hstarted, htime, hout, hops, hlength, hothers, hchan⟩ := hmirrored
  obtain ⟨hs, a, ha, rfl⟩ := exec_push_next hexec
  obtain ⟨a', ha'⟩ : ∃ a', t.chans[c]? = some a' := by
    obtain ⟨hlt, -⟩ := List.getElem?_eq_some_iff.1 ha
    exact ⟨_, List.getElem?_eq_getElem (hlength ▸ hlt)⟩
  obtain ⟨heq, hcompl⟩ := ChannelOf.mirrored_iff.1 (hchan a a' ha ha')
  obtain ⟨w', p', hpush, hcompl'⟩ := pushBit_mirror (l := { s.view a with out := [] }) b ts h16 hcompl
  have hview : ({ t.view a' with out := [] } : Local) = LocalOf.mirror { s.view a with out := [] } a'.win a'.pol := by
    rw [State.view, State.view, ← hcfg, ← htime, heq]
    rfl
  refine ⟨_, exec_push_eq (!b) ts (hstarted ▸ hs) ha', ?_⟩
  rw [hview, hpush]
  refine ⟨hcfg, hstarted, rfl, rfl, hops, ?_, fun d hd => ?_, fun x y hx hy => ?_⟩
  · simp only [State.putView_chans, List.length_set, hlength]
  · rw [getElem?_putView_ne _ hd, getElem?_putView_ne _ hd, hothers d hd]
  · obtain rfl := Option.some.inj ((getElem?_putView_self _ ha).symm.trans hx)
    obtain rfl := Option.some.inj ((getElem?_putView_self _ ha').symm.trans hy)
    exact ChannelOf.mirrored_iff.2 ⟨rfl, hcompl'⟩

/-- A run of one operation more. -/
theorem runOps_cons_some {op : Op} {ops : List Op} {s s' : State} {outs : List (List Output)} :
    runOps (op :: ops) s = some (outs, s') ↔
      ∃ u outs', exec op.instr s = .next u ∧ runOps ops u = some (outs', s') ∧ outs = u.out :: outs' := by
  rw [runOps]
  cases exec op.instr s with
  | next u =>
    cases runOps ops u with
    | none => simp [eq_comm]
    | some r => simp [Prod.ext_iff, eq_comm, and_comm]
  | fault f => cases f
  | refused r => simp

/-- Complementary streams into mirrored channels give the same outputs at every step, and keep the channels mirrored. -/
theorem runOps_pushAll_mirrored {s t s' : State} {c : Nat} {ts : SampleTime} {bits : List Bit}
    {outs : List (List Output)} (h16 : 16 ≤ s.cfg.tSync) (hmirrored : s.MirroredOn c t)
    (hrun : runOps (pushAll c ts bits) s = some (outs, s')) :
    ∃ t', runOps (pushAll c ts (bits.map (!·))) t = some (outs, t') ∧ s'.MirroredOn c t' := by
  induction bits generalizing s t ts outs with
  | nil =>
    cases hrun
    exact ⟨t, rfl, hmirrored⟩
  | cons b bits ih =>
    obtain ⟨u, outs', hexec, hrest, rfl⟩ := runOps_cons_some.1 hrun
    obtain ⟨v, hexec', hmirrored'⟩ := complementaryPushesStayMirrored s t u c b ts h16 hmirrored hexec
    obtain ⟨hcfg, -⟩ := exec_keeps_cfg_ops hexec
    obtain ⟨t', hrest', hfinal⟩ := ih (hcfg.symm ▸ h16) hmirrored' hrest
    have hout : u.out = v.out := have ⟨_, _, _, hout, _⟩ := hmirrored'; hout
    exact ⟨t', runOps_cons_some.2 ⟨v, outs', hexec', hrest', by rw [hout]⟩, hfinal⟩

/-- A channel as after reset is its own mirror: no bit fills its window, and it has no polarity. -/
theorem ChannelOf.AtReset.mirrored {ch : Channel} {sat : SatId} (h : ch.AtReset sat) : ch.Mirrored ch := by
  obtain ⟨-, hwinN, hsync, -⟩ := h
  refine ChannelOf.mirrored_iff.2 ⟨rfl, fun i _ hi => ?_, fun hs => ?_⟩
  · rw [hwinN] at hi
    cases hi
  · rw [hsync] at hs
    cases hs

/-- Settles O18: the state is its own mirror on a channel that is as after reset, and every PUSH keeps the two runs
mirrored. -/
theorem polarityInvariance : Obligations.PolarityInvariance := by
  intro s s' c sat ts bits outs h16 ⟨ch, hc, hreset⟩ hrun
  refine runOps_pushAll_mirrored h16 ⟨rfl, rfl, rfl, rfl, rfl, rfl, fun _ _ => rfl, fun a b ha hb => ?_⟩ hrun
  obtain rfl := Option.some.inj (hc.symm.trans ha)
  obtain rfl := Option.some.inj (hc.symm.trans hb)
  exact hreset.mirrored

end Sys2Proof.Machine
end

section
/-! PROOFS. Timestamps and satellite tags are only copied (R7, R17), and every `EPOCH0` is a table (R168, log
entry 2). -/

namespace Sys2Proof.Machine

variable {TS Sat TS' Sat' : Type} (f : TS → TS') (g : Sat → Sat')

/-! ### The string pipeline -/

theorem ephDiscard_mapTags (l : LocalOf TS Sat) : ephDiscard (l.mapTags f g) = (ephDiscard l).mapTags f g :=
  LocalOf.raise_mapTags f g { l with ch := { l.ch with ephHave := 0#4, eph := [] } } (.incompleteFrame l.ch.sat .eph)

theorem ephCommit_mapTags (ts : TS) (l : LocalOf TS Sat) :
    ephCommit (f ts) (l.mapTags f g) = (ephCommit ts l).mapTags f g := by
  simp [ephCommit, LocalOf.emit, LocalOf.mapTags, ChannelOf.mapTags, OutputOf.mapTags]

theorem ephMerge_mapTags (k : Nat) (m : FieldMap) (l : LocalOf TS Sat) :
    ephMerge k m (l.mapTags f g) = (ephMerge k m l).mapTags f g := rfl

theorem ephStart_mapTags (m : FieldMap) (l : LocalOf TS Sat) :
    ephStart m (l.mapTags f g) = (ephStart m l).mapTags f g := rfl

theorem ephStep_mapTags (ev : AsmEvent) (ts : TS) (l : LocalOf TS Sat) :
    ephStep ev (f ts) (l.mapTags f g) = (ephStep ev ts l).mapTags f g := by
  have hhave : (l.mapTags f g).ch.ephHave = l.ch.ephHave := rfl
  unfold ephStep
  simp only [hhave, ephMerge_mapTags, ephCommit_mapTags, ephDiscard_mapTags]
  cases ev.next? (ephCount l.ch.ephHave) with
  | some m => by_cases h : ephCount l.ch.ephHave + 1 = 4 <;> simp only [h, if_true, if_false]
  | none =>
    by_cases h : 1 ≤ ephCount l.ch.ephHave <;> cases ev.first? <;> simp only [h, if_true, if_false, ephStart_mapTags]

theorem timeStep_mapTags (ev : AsmEvent) (l : LocalOf TS Sat) :
    timeStep ev (l.mapTags f g) = (timeStep ev l).mapTags f g := by
  cases ev with
  | void => rfl
  | str id m =>
    by_cases h : id = 5
    · simp only [timeStep, h, if_true]
      exact LocalOf.emit_mapTags f g { l with time := _ } (.timeUpdate l.ch.sat _ _ _ _)
    · simp only [timeStep, h, if_false]

theorem almEven_mapTags (id : Nat) (m : FieldMap) (l : LocalOf TS Sat) :
    almEven id m (l.mapTags f g) = (almEven id m l).mapTags f g := by
  rw [almEven_eq, almEven_eq]
  cases h : l.ch.almPend <;>
    simp [ChannelOf.almErr, h, LocalOf.mapTags, ChannelOf.mapTags, OutputOf.mapTags, ErrOf.mapTags]

theorem almOdd_mapTags (m : FieldMap) (ts : TS) (l : LocalOf TS Sat) :
    almOdd m (f ts) (l.mapTags f g) = (almOdd m ts l).mapTags f g := by
  obtain ⟨hpend, h⟩ | ⟨hpend, hsame, h⟩ | ⟨hpend, hother, h⟩ := almOdd_cases m ts l <;> rw [h]
  · exact almOdd_alone m (f ts) hpend
  · rw [almOdd_pair (f ts) (l := l.mapTags f g) hpend hsame]
    simp [LocalOf.mapTags, ChannelOf.mapTags, OutputOf.mapTags]
  · rw [almOdd_mismatch (f ts) (l := l.mapTags f g) hpend hother]
    simp [LocalOf.mapTags, ChannelOf.mapTags, OutputOf.mapTags, ErrOf.mapTags]

theorem almStep_mapTags (ev : AsmEvent) (ts : TS) (l : LocalOf TS Sat) :
    almStep ev (f ts) (l.mapTags f g) = (almStep ev ts l).mapTags f g := by
  unfold almStep
  split
  · split
    · exact almEven_mapTags f g _ _ l
    · exact almOdd_mapTags f g _ ts l
    · rfl
  · rfl

theorem asm_mapTags (ev : AsmEvent) (ts : TS) (l : LocalOf TS Sat) :
    asm ev (f ts) (l.mapTags f g) = (asm ev ts l).mapTags f g := by
  simp only [asm, ephStep_mapTags, timeStep_mapTags, almStep_mapTags]

/-- The gate decides on the bits and the parameters, and its signal copies the tag. -/
theorem strGate_mapTags {d : DataWord} {ts : TS} {accepted : LocalOf TS Sat → LocalOf TS Sat}
    {accepted' : LocalOf TS' Sat' → LocalOf TS' Sat'} (l : LocalOf TS Sat)
    (h : accepted' (l.mapTags f g) = (accepted l).mapTags f g) :
    strGate d (f ts) accepted' (l.mapTags f g) = (strGate d ts accepted l).mapTags f g := by
  have hreject : asm .void (f ts) ((l.mapTags f g).raise (.checksumFailure (g l.ch.sat))) =
      (asm .void ts (l.raise (.checksumFailure l.ch.sat))).mapTags f g :=
    (congrArg (asm .void (f ts)) (l.raise_mapTags f g (.checksumFailure l.ch.sat))).trans (asm_mapTags f g _ _ _)
  cases hgate : hammingAccept l.cfg.ht d with
  | true => rw [strGate_accept hgate, strGate_accept (l := l.mapTags f g) hgate, h]
  | false =>
    rw [strGate_reject hgate, strGate_reject (l := l.mapTags f g) hgate]
    exact hreject

theorem stringDone_mapTags (d : DataWord) (ts : TS) (l : LocalOf TS Sat) :
    stringDone d (f ts) (l.mapTags f g) = (stringDone d ts l).mapTags f g := by
  have hunknown : asm .void (f ts) ((l.mapTags f g).raise (.unknownStringId (g l.ch.sat) 0)) =
      (asm .void ts (l.raise (.unknownStringId l.ch.sat 0))).mapTags f g :=
    (congrArg (asm .void (f ts)) (l.raise_mapTags f g (.unknownStringId l.ch.sat 0))).trans (asm_mapTags f g _ _ _)
  unfold stringDone
  split
  case h_16 => exact strGate_mapTags f g l hunknown
  all_goals exact strGate_mapTags f g l (asm_mapTags f g _ ts l)

/-! ### The synchroniser -/

theorem shiftTs_map (v : Vector TS 30) (ts : TS) : shiftTs (v.map f) (f ts) = (shiftTs v ts).map f := by
  ext i hi
  simp [shiftTs, Vector.getElem_push]

theorem windowShift_mapTags (b : Bit) (ts : TS) (l : LocalOf TS Sat) :
    windowShift b (f ts) (l.mapTags f g) = (windowShift b ts l).mapTags f g := by
  simp [windowShift, LocalOf.mapTags, ChannelOf.mapTags, shiftTs_map]

theorem acquire_mapTags (p : Bit) (l : LocalOf TS Sat) : acquire p (l.mapTags f g) = (acquire p l).mapTags f g := by
  simp [acquire, asmReset, LocalOf.mapTags, ChannelOf.mapTags]

theorem storeBit_mapTags (q : Nat) (b : Bit) (ts : TS) (l : LocalOf TS Sat) :
    storeBit q b (f ts) (l.mapTags f g) = (storeBit q b ts l).mapTags f g := by
  simp only [storeBit, LocalOf.mapTags, ChannelOf.mapTags, apply_ite f]

theorem lose_mapTags (l : LocalOf TS Sat) : lose (l.mapTags f g) = (lose l).mapTags f g :=
  LocalOf.raise_mapTags f g { l with ch := { l.ch with sync := .lost, bitcnt := 0, miss := 0 } } (.syncLoss l.ch.sat)

/-- What a PUSH does to a view, it does to the view with replaced tags. -/
theorem pushStep_mapTags {b : Bit} {ts : TS} {l m : LocalOf TS Sat} (h : PushStep b ts l m) :
    PushStep b (f ts) (l.mapTags f g) (m.mapTags f g) := by
  have hstore : ∀ q, storeBit q b (f ts) (windowShift b (f ts) (l.mapTags f g)) =
      (storeBit q b ts (windowShift b ts l)).mapTags f g := by
    intro q
    rw [windowShift_mapTags, storeBit_mapTags]
  cases h with
  | searches hsync hnone =>
    exact .of_eq (.searches hsync hnone) (congrArg LocalOf.searching (windowShift_mapTags f g b ts l))
  | acquires p hsync hfull hfound =>
    refine .of_eq (.acquires p hsync hfull hfound) ?_
    rw [windowShift_mapTags, acquire_mapTags]
  | stores hsync hmark hlast => exact .of_eq (.stores hsync hmark hlast) (congrArg (LocalOf.atBit _) (hstore _))
  | passes miss hsync hpos hmiss =>
    exact .of_eq (.passes miss hsync hpos hmiss) (congrArg (fun l => (l.withMiss miss).atBit 30) (hstore 30))
  | loses hsync hpos hmark hmiss =>
    refine .of_eq (.loses hsync hpos hmark hmiss) ?_
    rw [hstore, lose_mapTags]
  | runs hsync hpos =>
    refine .of_eq (.runs hsync hpos) ?_
    rw [← stringDone_mapTags]
    exact congrArg (fun m => stringDone _ _ (m.atBit 0)) (hstore 115)

/-- Settles O46. -/
theorem tagsAreOnlyCopied : Obligations.TagsAreOnlyCopied := by
  intro TS Sat TS' Sat' f g b ts l
  exact (pushStep_mapTags f g (pushStep b ts l)).eq

/-! ### The machine -/

/-- An outcome on replaced tags is the outcome with replaced tags. -/
def TracksTags (o : Host.Outcome (State TS Sat) Fault Refusal) (o' : Host.Outcome (State TS' Sat') Fault Refusal) :
    Prop :=
  (∀ t, o = .next t → o' = .next (t.mapTags f g)) ∧ (∀ r, o = .refused r → o' = .refused r)

variable {f g}

theorem TracksTags.next {t : State TS Sat} {t' : State TS' Sat'} (h : t' = t.mapTags f g) :
    TracksTags f g (.next t) (.next t') :=
  ⟨fun _ hu => (by cases hu; rw [h]), fun _ hr => (by cases hr)⟩

theorem TracksTags.refused (r : Refusal) :
    TracksTags f g (.refused r : Host.Outcome (State TS Sat) Fault Refusal) (.refused r) :=
  ⟨fun _ hu => (by cases hu), fun _ hq => (by cases hq; rfl)⟩

/-- A rule that only copies tags does so on its channel of the state. -/
theorem onChannel_tracksTags {F : LocalOf TS Sat → LocalOf TS Sat} {F' : LocalOf TS' Sat' → LocalOf TS' Sat'}
    (hF : ∀ l, F' (l.mapTags f g) = (F l).mapTags f g) (c : Nat) (s : State TS Sat) :
    TracksTags f g (onChannel c F s) (onChannel c F' (s.mapTags f g)) := by
  have hchan : (s.mapTags f g).chans[c]? = s.chans[c]?.map (ChannelOf.mapTags f g) := List.getElem?_map
  cases hs : s.started with
  | false =>
    rw [onChannel_notStarted hs, onChannel_notStarted (s := s.mapTags f g) hs]
    exact .refused _
  | true =>
    cases hc : s.chans[c]? with
    | none =>
      rw [hc] at hchan
      rw [onChannel_missing hs hc, onChannel_missing (s := s.mapTags f g) hs hchan]
      exact .refused _
    | some ch =>
      rw [hc] at hchan
      rw [onChannel_eq hs hc, onChannel_eq (s := s.mapTags f g) hs hchan]
      refine .next ?_
      have hview : F' ((s.mapTags f g).view (ch.mapTags f g)) = (F (s.view ch)).mapTags f g := hF (s.view ch)
      rw [hview]
      simp [State.putView, State.mapTags, LocalOf.mapTags, List.map_set]

/-- A fresh channel with replaced tags is a fresh channel, if the timestamp that stands for no value is kept. -/
theorem ChannelOf.afterReset_mapTags {noTs : TS} {noTs' : TS'} (h : f noTs = noTs') (sat : Sat) :
    ChannelOf.afterReset noTs' (g sat) = (ChannelOf.afterReset noTs sat).mapTags f g := by
  simp [ChannelOf.afterReset, ChannelOf.mapTags, Vector.map_replicate, h]

theorem mapTags_instrOfId (n c : Nat) (p : Payload) (ts : TS) :
    (instrOfId n c p ts : Instr TS Sat).mapTags f g = instrOfId n c p (f ts) := by
  unfold instrOfId
  split <;> rfl

/-- Every instruction only copies tags. -/
theorem execOf_tracksTags [Inhabited TS] [Inhabited TS'] (hdefault : f default = default) (i : Instr TS Sat)
    (s : State TS Sat) : TracksTags f g (execOf i s) (execOf (i.mapTags f g) (s.mapTags f g)) := by
  cases instrKind i with
  | reset sats =>
    change TracksTags f g (execReset sats s) (execReset (sats.map g) (s.mapTags f g))
    by_cases hwf : s.cfg.WF
    · by_cases hlen : sats.length = s.cfg.nCh
      · rw [execReset_eq hwf hlen, execReset_eq (s := s.mapTags f g) hwf (by rw [List.length_map]; exact hlen)]
        refine .next ?_
        have hfresh : ∀ sat, ChannelOf.afterReset default (g sat) = (ChannelOf.afterReset default sat).mapTags f g :=
          ChannelOf.afterReset_mapTags hdefault
        simp [State.afterReset, State.mapTags, Function.comp_def, hfresh]
      · rw [execReset_illFormed hwf hlen,
          execReset_illFormed (s := s.mapTags f g) hwf (by rw [List.length_map]; exact hlen)]
        exact .refused _
    · rw [execReset_badParameters _ hwf, execReset_badParameters (s := s.mapTags f g) _ hwf]
      exact .refused _
  | query sod ref =>
    change TracksTags f g (execQuery sod ref s) (execQuery sod ref (s.mapTags f g))
    cases hs : s.started with
    | false =>
      rw [execQuery_notStarted sod ref hs, execQuery_notStarted (s := s.mapTags f g) sod ref hs]
      exact .refused _
    | true =>
      rw [execQuery_eq sod ref hs, execQuery_eq (s := s.mapTags f g) sod ref hs]
      refine .next ?_
      have hanswer : ∀ r, (queryAnswer r : OutputOf TS' Sat') = (queryAnswer r : OutputOf TS Sat).mapTags f g := by
        intro r
        cases r <;> rfl
      simp [State.mapTags, hanswer]
  | chReset c sat =>
    change TracksTags f g (execChReset c sat s) (execChReset c (g sat) (s.mapTags f g))
    refine onChannel_tracksTags (fun l => ?_) c s
    simp [LocalOf.mapTags, ChannelOf.afterReset_mapTags (f := f) (g := g) hdefault]
  | push c b ts =>
    change TracksTags f g (execPush c b ts s) (execPush c b (f ts) (s.mapTags f g))
    refine onChannel_tracksTags (fun l => ?_) c s
    exact tagsAreOnlyCopied TS Sat TS' Sat' f g b ts { l with out := [] }
  | string id c p ts =>
    rw [mapTags_instrOfId, execOf_string, execOf_string]
    exact onChannel_tracksTags (stringDone_mapTags f g _ ts) c s

theorem instr_mapTags (op : Op TS Sat) : (op.mapTags f g).instr = op.instr.mapTags f g := by cases op <;> rfl

/-- Settles O47: a step runs one instruction, or none. -/
theorem everyStepOnlyCopiesTags : Obligations.EveryStepOnlyCopiesTags := by
  intro TS Sat TS' Sat' _ _ f g s hdefault
  change TracksTags f g (stepOf s) (stepOf (s.mapTags f g))
  cases hops : s.ops with
  | nil =>
    have hops' : (s.mapTags f g).ops = [] := congrArg (List.map (Op.mapTags f g)) hops
    simp only [stepOf, stepWith, hops, hops']
    exact .next rfl
  | cons op rest =>
    have hops' : (s.mapTags f g).ops = op.mapTags f g :: rest.map (Op.mapTags f g) :=
      congrArg (List.map (Op.mapTags f g)) hops
    simp only [stepOf, stepWith, hops, hops', instr_mapTags]
    exact execOf_tracksTags hdefault op.instr { s with ops := rest, out := [] }

/-! ### `EPOCH0` as a table (R168) -/

/-- A table that lists a function's own values gives the function's value for every argument it lists. -/
theorem lookup_graph (epoch0 : Rat → Rat) {args : List Rat} {x : Rat} (hx : x ∈ args) :
    (args.map fun y => (y, epoch0 y)).lookup x = some (epoch0 x) := by
  induction args with
  | nil => cases hx
  | cons y args ih =>
    rw [List.map_cons, List.lookup_cons]
    by_cases h : x = y
    · simp [h]
    · rw [beq_eq_false_iff_ne.2 h]
      exact ih ((List.mem_cons.1 hx).resolve_left h)

/-- There are finitely many data words. -/
theorem finite_dataWord : Finite DataWord :=
  Finite.of_injective BitVec.toFin fun _ _ h => BitVec.eq_of_toFin_eq h

/-- Settles O48: the finitely many data words decode to finitely many values of `N_4`, which the table lists. -/
theorem everyEpochFunctionHasATable : Obligations.EveryEpochFunctionHasATable := by
  intro epoch0 ft
  have hfinite : (Set.range fun d : DataWord => FieldMap.read (extract ft .c5 d) .n4).Finite :=
    have := finite_dataWord
    Set.finite_range _
  refine ⟨hfinite.toFinset.toList.map fun y => (y, epoch0 y), 0, fun d => ?_⟩
  have hmem : FieldMap.read (extract ft .c5 d) .n4 ∈ hfinite.toFinset.toList :=
    Finset.mem_toList.2 (hfinite.mem_toFinset.2 ⟨d, rfl⟩)
  simp only [Epoch0.eval, lookup_graph epoch0 hmem, Option.getD_some]

end Sys2Proof.Machine
end

section
/-! PROOFS. The invariants of R36: every step keeps them, and what follows from them for the partials and the records
(R183, R184). -/

namespace Sys2Proof.Machine

variable {TS Sat : Type}

/-! ### The names of decoded fields (R60, R65, R133) -/

theorem classWF_specs {t : FieldTable} (h : t.WF) (cls : FieldClass) : ClassWF (t.specs cls) := by
  obtain ⟨hclasses, -⟩ := h
  refine hclasses _ ?_
  cases cls <;> simp [FieldTable.classes, FieldTable.specs]

/-- What a record takes from an extraction bears the class's names other than `STRING_ID` (R133). -/
theorem names_record_extract {t : FieldTable} {cls : FieldClass} (hwf : ClassWF (t.specs cls)) (d : DataWord) :
    FieldMap.names (FieldMap.record (extract t cls d)) = recordNames (t.specs cls) := by
  rw [FieldMap.names_record, names_extract t cls d (nodup_fieldNames hwf)]
  rfl

theorem nodup_recordNames {l : List FieldSpec} (hwf : ClassWF l) : (recordNames l).Nodup :=
  (nodup_fieldNames hwf).filter _

theorem mem_recordNames {l : List FieldSpec} {x : FieldName} :
    x ∈ recordNames l ↔ x ∈ fieldNames l ∧ x ≠ .stringId := by
  simp [recordNames]

/-- A name a map holds has the value that a read gives. -/
theorem FieldMap.get?_eq_read {m : FieldMap} {x : FieldName} (h : x ∈ FieldMap.names m) :
    FieldMap.get? m x = some (FieldMap.read m x) := by
  cases hx : FieldMap.get? m x with
  | none => exact absurd h ((FieldMap.get?_eq_none m x).1 hx)
  | some v => rw [FieldMap.read, hx, Option.getD_some]

/-- A field of a class has a value in what a record takes from the class: the one a read of the extraction gives. -/
theorem get?_record_extract {t : FieldTable} {cls : FieldClass} (hwf : ClassWF (t.specs cls)) (d : DataWord)
    {x : FieldName} (hx : x ∈ fieldNames (t.specs cls)) (hid : x ≠ .stringId) :
    FieldMap.get? (FieldMap.record (extract t cls d)) x = some (FieldMap.read (extract t cls d) x) := by
  rw [FieldMap.get?_record _ _ hid]
  exact FieldMap.get?_eq_read (names_extract t cls d (nodup_fieldNames hwf) ▸ hx)

/-- A merge of a class's fields into a map that holds none of their names appends these names. -/
theorem names_merge_record {t : FieldTable} {cls : FieldClass} (hwf : ClassWF (t.specs cls)) (d : DataWord)
    {m : FieldMap} (hdisjoint : (FieldMap.names m).Disjoint (recordNames (t.specs cls))) :
    FieldMap.names (FieldMap.merge m (FieldMap.record (extract t cls d))) =
      FieldMap.names m ++ recordNames (t.specs cls) := by
  have hnames := names_record_extract hwf d
  rw [FieldMap.names_merge_disjoint, hnames]
  · rw [hnames]
    exact nodup_recordNames hwf
  · rw [hnames]
    exact fun x hx hm => hdisjoint hm hx

/-! ### The partials between steps (R26 to R29, R36) -/

/-- The fields of an event are those its class extracts from some data word. -/
def Decoded (cfg : Config) (ev : AsmEvent) : Prop :=
  ∀ id f, ev = .str id f → ∃ cls d, classOf id = some cls ∧ f = extract cfg.ft cls d

/-- What a string gives the assembler is decoded with the core's own table. -/
theorem StringSlot.decoded {d : DataWord} {l m : LocalOf TS Sat} {first : List (OutputOf TS Sat)} {ev : AsmEvent}
    (h : StringSlot d l first ev m) : Decoded l.cfg ev := by
  intro id f hev
  cases h with
  | accepted cls _ hcls =>
    obtain ⟨rfl, rfl⟩ := AsmEvent.str.inj hev
    exact ⟨cls, d, hcls, rfl⟩
  | rejected => cases hev
  | unknown => cases hev

/-- The names of the four classes of a set differ (R65). -/
theorem ephNames_disjoint {t : FieldTable} (h : t.WF) :
    (recordNames t.c1).Disjoint (recordNames t.c2) ∧
    (recordNames t.c1 ++ recordNames t.c2).Disjoint (recordNames t.c3) ∧
    (recordNames t.c1 ++ recordNames t.c2 ++ recordNames t.c3).Disjoint (recordNames t.c4) := by
  obtain ⟨-, -, -, -, -, -, -, -, hnodup, -⟩ := h
  have h3 := List.Nodup.of_append_left hnodup
  have h2 := List.Nodup.of_append_left h3
  exact ⟨List.disjoint_of_nodup_append h2, List.disjoint_of_nodup_append h3, List.disjoint_of_nodup_append hnodup⟩

/-- An input of decoded fields keeps the invariant of the ephemeris partial. -/
theorem asm_ephInv {cfg : Config} (hwf : cfg.ft.WF) {ev : AsmEvent} (hev : Decoded cfg ev) (ts : TS)
    {l : LocalOf TS Sat} (h : l.ch.EphInv cfg) : (asm ev ts l).ch.EphInv cfg := by
  obtain ⟨hdis2, hdis3, -⟩ := ephNames_disjoint hwf
  obtain ⟨k, f, hk, hpos, h3, rfl, hhave, heph⟩ | ⟨f, rfl, hhave, heph⟩ | ⟨hhave, heph⟩ := asm_eph_cases ev ts l
  · obtain ⟨cls, d, hcls, rfl⟩ := hev _ _ rfl
    obtain ⟨hclear, -⟩ | ⟨hone, hnames⟩ | ⟨htwo, hnames⟩ | ⟨hthree, -⟩ := h
    · rw [hclear, ephCount_zero] at hk
      omega
    · obtain rfl : 1 = k := by rw [← hk, hone, ephCount_one]
      cases hcls
      refine .inr (.inr (.inl ⟨by rw [hhave, hone, setHave_two], ?_⟩))
      rw [heph, ← hnames]
      exact names_merge_record (classWF_specs hwf .c2) d (by rw [FieldMap.names, hnames]; exact hdis2)
    · obtain rfl : 2 = k := by rw [← hk, htwo, ephCount_two]
      cases hcls
      refine .inr (.inr (.inr ⟨by rw [hhave, htwo, setHave_three], ?_⟩))
      rw [heph, ← hnames]
      exact names_merge_record (classWF_specs hwf .c3) d (by rw [FieldMap.names, hnames]; exact hdis3)
    · rw [hthree, ephCount_three] at hk
      exact absurd hk.symm h3
  · obtain ⟨cls, d, hcls, rfl⟩ := hev _ _ rfl
    cases hcls
    refine .inr (.inl ⟨hhave, ?_⟩)
    rw [heph]
    exact names_merge_record (classWF_specs hwf .c1) d (List.disjoint_nil_left _)
  · refine .inl ⟨hhave, ?_⟩
    obtain hnil | ⟨hclear, hkept⟩ := heph
    · rw [hnil]; rfl
    · rw [hkept]
      obtain ⟨-, hnames⟩ | ⟨hother, -⟩ | ⟨hother, -⟩ | ⟨hother, -⟩ := h
      · exact hnames
      · exact absurd (hclear.symm.trans hother) (by decide)
      · exact absurd (hclear.symm.trans hother) (by decide)
      · exact absurd (hclear.symm.trans hother) (by decide)

/-- The ids of the even strings (R14). -/
theorem ofNat_mem_of_classOf_even {id : Nat} (h : classOf id = some .even) :
    Fin.ofNat 16 id ∈ ([6, 8, 10, 12, 14] : List (Fin 16)) := by
  unfold classOf at h
  split at h <;> cases h <;> decide

/-- An input of decoded fields keeps the invariant of the almanac partial. -/
theorem asm_almInv {cfg : Config} (hwf : cfg.ft.WF) {ev : AsmEvent} (hev : Decoded cfg ev) (ts : TS)
    {l : LocalOf TS Sat} (h : l.ch.AlmInv cfg) : (asm ev ts l).ch.AlmInv cfg := by
  have ⟨_, _, _, _, _, heven, _⟩ := hwf
  obtain ⟨id, f, rfl, hcls, hpend, hid, hnA, halm⟩ | ⟨id, f, -, -, hpend, halm⟩ | ⟨-, hkeeps⟩ := asm_alm_cases ev ts l
  · obtain ⟨cls, d, hcls', rfl⟩ := hev _ _ rfl
    obtain rfl : FieldClass.even = cls := Option.some.inj (hcls.symm.trans hcls')
    have hclass := classWF_specs hwf .even
    refine ⟨fun hnone => absurd (hpend.symm.trans hnone) (by decide), fun _ => ⟨?_, ?_, ?_⟩⟩
    · rw [halm]
      exact names_merge_record hclass d (List.disjoint_nil_left _)
    · rw [halm, hnA, FieldMap.get?_merge (names_record_extract hclass d ▸ nodup_recordNames hclass),
        get?_record_extract hclass d heven (by decide), Option.some_or]
    · rw [hid]
      exact ofNat_mem_of_classOf_even hcls
  · refine ⟨fun _ => ?_, fun hsome => absurd (hpend.symm.trans hsome) (by decide)⟩
    obtain hnil | ⟨hnone, hkept⟩ := halm
    · exact hnil
    · exact hkept.trans (h.1 hnone)
  · rw [ChannelOf.AlmInv, hkeeps.almPend, hkeeps.almId, hkeeps.almNA, hkeeps.alm]
    exact h

/-! ### The invariants of a channel -/

/-- The part of the invariants that speaks of the synchroniser. -/
structure SyncInv (ch : ChannelOf TS Sat) : Prop where
  bitcnt : ch.bitcnt ≤ 114
  winN : ch.winN ≤ 30
  miss : ch.miss ≤ 1
  full : ch.sync = .synced → ch.winN = 30
  synced : ch.miss = 1 → ch.sync = .synced

/-- The invariants of a channel speak of the synchroniser, the ephemeris partial and the almanac partial apart. -/
theorem ChannelOf.inv_iff {cfg : Config} {ch : ChannelOf TS Sat} :
    ch.Inv cfg ↔ SyncInv ch ∧ ch.EphInv cfg ∧ ch.AlmInv cfg :=
  ⟨fun ⟨h1, h2, h3, h4, h5, heph, halm⟩ => ⟨⟨h1, h2, h3, h4, h5⟩, heph, halm⟩,
    fun ⟨⟨h1, h2, h3, h4, h5⟩, heph, halm⟩ => ⟨h1, h2, h3, h4, h5, heph, halm⟩⟩

theorem SyncInv.of_keepsSync {l m : LocalOf TS Sat} (hkeeps : l.KeepsSync m) (h : SyncInv l.ch) : SyncInv m.ch := by
  obtain ⟨hbitcnt, hwinN, hmiss, hfull, hsynced⟩ := h
  constructor <;> simp only [hkeeps.bitcnt, hkeeps.winN, hkeeps.miss, hkeeps.sync] <;> assumption

/-- A fresh channel meets the invariants, for any parameters. -/
theorem ChannelOf.inv_afterReset (cfg : Config) (noTs : TS) (sat : Sat) : (ChannelOf.afterReset noTs sat).Inv cfg :=
  ChannelOf.inv_iff.2 ⟨⟨by simp [afterReset], by simp [afterReset], by simp [afterReset], fun h => (by cases h),
    fun h => (by cases h)⟩, .inl ⟨rfl, rfl⟩, fun _ => rfl, fun h => (by cases h)⟩

/-- A string keeps the invariants of its channel. -/
theorem stringDone_inv (d : DataWord) (ts : TS) {l : LocalOf TS Sat} (hwf : l.cfg.ft.WF) (h : l.ch.Inv l.cfg) :
    (stringDone d ts l).ch.Inv l.cfg := by
  obtain ⟨hsync, heph, halm⟩ := ChannelOf.inv_iff.1 h
  obtain ⟨first, ev, m, hslot, hrun⟩ := stringDone_slot d ts l
  have hephSlot : m.ch.EphInv l.cfg := by
    rw [ChannelOf.EphInv, hslot.keepsEph.ephHave, hslot.keepsEph.eph]
    exact heph
  have halmSlot : m.ch.AlmInv l.cfg := by
    rw [ChannelOf.AlmInv, hslot.keepsAlm.almPend, hslot.keepsAlm.almId, hslot.keepsAlm.almNA, hslot.keepsAlm.alm]
    exact halm
  refine ChannelOf.inv_iff.2 ⟨hsync.of_keepsSync (stringDone_keepsSync d ts l), ?_⟩
  rw [hrun]
  exact ⟨asm_ephInv hwf hslot.decoded ts hephSlot, asm_almInv hwf hslot.decoded ts halmSlot⟩

/-- A PUSH keeps the invariants of its channel. -/
theorem pushStep_inv {b : Bit} {ts : TS} {l m : LocalOf TS Sat} (hwf : l.cfg.ft.WF) (h : l.ch.Inv l.cfg)
    (hstep : PushStep b ts l m) : m.ch.Inv l.cfg := by
  obtain ⟨⟨hbitcnt, hwinN, hmiss, hfull, hsynced⟩, heph, halm⟩ := ChannelOf.inv_iff.1 h
  have hshift : min 30 (l.ch.winN + 1) ≤ 30 := Nat.min_le_left _ _
  have hstays : l.ch.sync = .synced → min 30 (l.ch.winN + 1) = 30 := fun hsync => by
    have := hfull hsync
    omega
  cases hstep with
  | searches hsync _ =>
    refine ChannelOf.inv_iff.2 ⟨⟨hbitcnt, hshift, hmiss, fun hs => (by cases hs), fun hone => ?_⟩, heph, halm⟩
    exact absurd (hsynced hone) hsync
  | acquires p _ hwindow _ =>
    exact ChannelOf.inv_iff.2 ⟨⟨by simp [acquire, asmReset], hshift, by simp [acquire, asmReset], fun _ => hwindow,
      fun _ => rfl⟩, .inl ⟨rfl, rfl⟩, fun _ => rfl, fun hpend => (by cases hpend)⟩
  | stores hsync _ hlast =>
    refine ChannelOf.inv_iff.2 ⟨⟨?_, hshift, hmiss, fun _ => hstays hsync, hsynced⟩, heph, halm⟩
    exact Nat.lt_of_le_of_ne hbitcnt hlast
  | passes miss hsync _ hcount =>
    refine ChannelOf.inv_iff.2 ⟨⟨by simp, hshift, ?_, fun _ => hstays hsync, fun _ => hsync⟩, heph, halm⟩
    obtain ⟨-, rfl⟩ | ⟨-, -, rfl⟩ := hcount <;> simp
  | loses =>
    exact ChannelOf.inv_iff.2 ⟨⟨by simp [lose], hshift, by simp [lose], fun hs => (by cases hs), fun hone => (by cases hone)⟩,
      heph, halm⟩
  | runs hsync _ =>
    exact stringDone_inv _ _ (l := (storeBit 115 b ts (windowShift b ts l)).atBit 0) hwf
      (ChannelOf.inv_iff.2 ⟨⟨by simp, hshift, hmiss, fun _ => hstays hsync, hsynced⟩, heph, halm⟩)

/-! ### The invariants of the machine -/

/-- Writing back a channel that meets the invariants keeps those of the state. -/
theorem inv_putView {s : State} {c : Nat} {l : Local} (hinv : s.Inv) (h : s.started = true → l.ch.Inv s.cfg) :
    (s.putView c l).Inv := by
  intro hstarted
  obtain ⟨hwf, hcount, hchans⟩ := hinv hstarted
  refine ⟨hwf, List.length_set.trans hcount, fun ch hch => ?_⟩
  obtain hold | rfl := List.mem_or_eq_of_mem_set hch
  · exact hchans ch hold
  · exact h hstarted

/-- Every instruction keeps the invariants. -/
theorem exec_inv {i : Instr} {s t : State} (hinv : s.Inv) (hexec : exec i s = .next t) : t.Inv := by
  cases instrKind i with
  | reset sats =>
    obtain ⟨hwf, hlen, rfl⟩ := execReset_next hexec
    refine fun _ => ⟨hwf, (List.length_map _).trans hlen, fun ch hch => ?_⟩
    obtain ⟨sat, -, rfl⟩ := List.mem_map.1 hch
    exact ChannelOf.inv_afterReset s.cfg _ sat
  | query sod ref =>
    obtain ⟨-, rfl⟩ := execQuery_next hexec
    exact hinv
  | chReset c sat =>
    obtain ⟨-, ch, -, rfl⟩ := onChannel_next ((exec_chReset c sat s).symm.trans hexec)
    exact inv_putView hinv fun _ => ChannelOf.inv_afterReset s.cfg 0 sat
  | push c b ts =>
    obtain ⟨hstarted, ch, l, hc, hstep, rfl⟩ := exec_push_next_step hexec
    obtain ⟨⟨-, -, -, hft⟩, -, hchans⟩ := hinv hstarted
    exact inv_putView hinv fun _ => pushStep_inv hft (hchans ch (List.mem_of_getElem? hc)) hstep
  | string id c p ts =>
    obtain ⟨hstarted, ch, hc, rfl⟩ := onChannel_next ((exec_string id c p ts s).symm.trans hexec)
    obtain ⟨⟨-, -, -, hft⟩, -, hchans⟩ := hinv hstarted
    exact inv_putView hinv fun _ => stringDone_inv _ _ (l := s.view ch) hft (hchans ch (List.mem_of_getElem? hc))

/-- Settles O49: a step runs one instruction, or none. -/
theorem stepKeepsTheInvariants : Obligations.StepKeepsTheInvariants := by
  intro s t hinv h
  obtain ⟨-, rfl⟩ | ⟨op, rest, -, hexec⟩ := step_next h
  · exact hinv
  · exact exec_inv (s := { s with ops := rest, out := [] }) hinv hexec

theorem ftRef_wf : ftRef.WF := by decide +kernel

/-- The reference parameters meet R204 with any number of channels (R7). -/
theorem config_reference_wf {nCh : Nat} (h : 1 ≤ nCh) : (Config.reference nCh).WF :=
  ⟨h, ⟨(by decide : 16 ≤ 28), (by decide : 28 ≤ 30)⟩, htRef_wf, ftRef_wf⟩

/-- Settles O50: a fresh channel meets the invariants. -/
theorem resetMeetsTheInvariants : Obligations.ResetMeetsTheInvariants := by
  refine fun _ => ⟨config_reference_wf (Nat.le_refl 1), rfl, fun ch hch => ?_⟩
  rw [List.mem_singleton.1 hch]
  exact ChannelOf.inv_afterReset _ 0 0

/-! ### What follows for the partials and the records (R36 (c), R183, R184) -/

/-- Settles O51: a set in progress holds the names of C1, and a waiting half holds `n_A`. -/
theorem partialsAreEmptyExactlyWhenNothingIsHeld : Obligations.PartialsAreEmptyExactlyWhenNothingIsHeld := by
  intro cfg ch hwf hinv
  obtain ⟨-, heph, hempty, hwaits⟩ := ChannelOf.inv_iff.1 hinv
  constructor
  · intro hc1
    have hset : ∀ e rest, ch.ephHave = e → e ≠ 0b0000#4 → ch.eph.map (·.1) = recordNames cfg.ft.c1 ++ rest →
        (ch.eph = [] ↔ ch.ephHave = 0b0000#4) := by
      intro e rest he hne hnames
      refine iff_of_false (fun hnil => hc1 ?_) (he ▸ hne)
      rw [hnil, List.map_nil] at hnames
      exact (List.append_eq_nil_iff.1 hnames.symm).1
    obtain ⟨hclear, hnames⟩ | ⟨hone, hnames⟩ | ⟨htwo, hnames⟩ | ⟨hthree, hnames⟩ := heph
    · exact iff_of_true (List.map_eq_nil_iff.1 hnames) hclear
    · exact hset _ [] hone (by decide) (by rw [hnames, List.append_nil])
    · exact hset _ _ htwo (by decide) hnames
    · exact hset _ _ hthree (by decide) (by rw [hnames, List.append_assoc])
  · refine ⟨fun hnil => ?_, hempty⟩
    by_contra hpend
    obtain ⟨-, hnA, -⟩ := hwaits (Bool.not_eq_false _ ▸ hpend)
    rw [hnil] at hnA
    cases hnA

/-- A set of three strings holds the names of C1, C2 and C3. -/
theorem ChannelOf.EphInv.names_of_three {cfg : Config} {ch : ChannelOf TS Sat} (h : ch.EphInv cfg)
    (hthree : ephCount ch.ephHave = 3) :
    FieldMap.names ch.eph = recordNames cfg.ft.c1 ++ recordNames cfg.ft.c2 ++ recordNames cfg.ft.c3 := by
  obtain ⟨hhave, -⟩ | ⟨hhave, -⟩ | ⟨hhave, -⟩ | ⟨-, hnames⟩ := h
  · rw [hhave] at hthree; cases hthree
  · rw [hhave] at hthree; cases hthree
  · rw [hhave] at hthree; cases hthree
  · exact hnames

/-- The record of a set that a decoded string 4 completes holds the names of C1 to C4, `t_b` among them (R183). -/
theorem ephRecord_names {cfg : Config} (hwf : cfg.ft.WF) {ch : ChannelOf TS Sat} (hinv : ch.EphInv cfg)
    (hthree : ephCount ch.ephHave = 3) (d : DataWord) :
    FieldMap.names (FieldMap.merge ch.eph (FieldMap.record (extract cfg.ft .c4 d))) = ephNames cfg.ft ∧
    (FieldMap.get? (FieldMap.merge ch.eph (FieldMap.record (extract cfg.ft .c4 d))) .tb).isSome := by
  have ⟨_, _, _, _, _, _, _, htb, _⟩ := hwf
  obtain ⟨-, -, hdisjoint⟩ := ephNames_disjoint hwf
  have hnames := hinv.names_of_three hthree
  have hall := names_merge_record (m := ch.eph) (classWF_specs hwf .c4) d (by rw [hnames]; exact hdisjoint)
  rw [hnames] at hall
  refine ⟨hall, ?_⟩
  have hmem : .tb ∈ recordNames cfg.ft.c2 := mem_recordNames.2 ⟨htb, by decide⟩
  rw [FieldMap.get?_eq_read (by rw [hall]; simp [FieldTable.specs, hmem]), Option.isSome_some]

/-- The record of a pair holds the names of EVEN and the new ones of ODD, and the common `n_A` (R184). -/
theorem almRecord_names {cfg : Config} (hwf : cfg.ft.WF) {ch : ChannelOf TS Sat} (hinv : ch.AlmInv cfg)
    (hwaits : ch.almPend = true) {d : DataWord} (hsame : FieldMap.read (extract cfg.ft .odd d) .nA = ch.almNA) :
    FieldMap.names (FieldMap.merge ch.alm (FieldMap.record (extract cfg.ft .odd d))) =
      recordNames cfg.ft.even ++ (recordNames cfg.ft.odd).filter (· ≠ .nA) ∧
    FieldMap.get? (FieldMap.merge ch.alm (FieldMap.record (extract cfg.ft .odd d))) .nA = some ch.almNA := by
  have ⟨_, _, _, _, _, heven, hodd, _, _, hshared⟩ := hwf
  have hclass := classWF_specs hwf .odd
  have hrecord := names_record_extract hclass d
  have hnodup : (FieldMap.names (FieldMap.record (extract cfg.ft .odd d))).Nodup := hrecord ▸ nodup_recordNames hclass
  obtain ⟨-, hhalf⟩ := hinv
  obtain ⟨hnames, -, -⟩ := hhalf hwaits
  constructor
  · rw [FieldMap.names_merge _ _ hnodup, hrecord]
    refine congrArg₂ _ hnames (List.filter_congr fun x hx => ?_)
    obtain ⟨hxodd, hxid⟩ := mem_recordNames.1 hx
    have hiff : x ∈ recordNames cfg.ft.even ↔ x = .nA := by
      rw [mem_recordNames]
      constructor
      · rintro ⟨hxeven, -⟩
        exact (hshared x hxeven hxodd).resolve_left hxid
      · rintro rfl
        exact ⟨heven, by decide⟩
    rw [FieldMap.names, hnames, decide_eq_decide, hiff]
  · rw [FieldMap.get?_merge hnodup, get?_record_extract hclass d hodd (by decide), hsame, Option.some_or]

/-- What a PUSH puts out and is no signal, the assembler puts out, from the partials of the channel and decoded fields
(R189). -/
theorem pushStep_event {b : Bit} {ts : TS} {l m : LocalOf TS Sat} (h : PushStep b ts l m) (hempty : l.out = [])
    {o : OutputOf TS Sat} (ho : ∀ e, o ≠ .err e) (hmem : o ∈ m.out) :
    ∃ k ev rx new, l.KeepsEph k ∧ l.KeepsAlm k ∧ Decoded l.cfg ev ∧ (asm ev rx k).out = k.out ++ new ∧ o ∈ new := by
  have hsilent : o ∉ l.out := by rw [hempty]; exact List.not_mem_nil
  cases h with
  | searches => exact absurd hmem hsilent
  | acquires => exact absurd hmem hsilent
  | stores => exact absurd hmem hsilent
  | passes => exact absurd hmem hsilent
  | loses =>
    obtain hmem | hmem := List.mem_append.1 hmem
    · exact absurd hmem hsilent
    · exact absurd (List.mem_singleton.1 hmem) (ho _)
  | runs =>
    obtain ⟨first, ev, k, hslot, hrun⟩ := stringDone_slot (rawData (memWrite l.ch.buf 115 (b ^^ l.ch.pol))) l.ch.bufTs
      ((storeBit 115 b ts (windowShift b ts l)).atBit 0)
    obtain ⟨_, _, _, -, -, -, hout⟩ := asm_out ev l.ch.bufTs k
    have hfirst : o ∉ first := fun hmem => by
      obtain rfl | rfl | rfl := hslot.first_shape
      · cases hmem
      · exact ho _ (List.mem_singleton.1 hmem)
      · exact ho _ (List.mem_singleton.1 hmem)
    have hbefore : o ∉ k.out := by
      rw [hslot.out, List.mem_append, not_or]
      exact ⟨hsilent, hfirst⟩
    rw [hrun, hout, List.mem_append] at hmem
    exact ⟨k, ev, _, _, ⟨hslot.keepsEph.ephHave, hslot.keepsEph.eph⟩,
      ⟨hslot.keepsAlm.almPend, hslot.keepsAlm.almId, hslot.keepsAlm.almNA, hslot.keepsAlm.alm⟩, hslot.decoded, hout,
      hmem.resolve_left hbefore⟩

/-- Settles O52: the partials hold what the invariants say, and the last string adds the names of its class. -/
theorem recordsHoldExactlyTheirFields : Obligations.RecordsHoldExactlyTheirFields := by
  intro s t c b ts hinv hexec
  obtain ⟨hstarted, ch, l, hc, hstep, rfl⟩ := exec_push_next_step hexec
  obtain ⟨⟨-, -, -, hft⟩, -, hchans⟩ := hinv hstarted
  obtain ⟨-, heph, halm⟩ := ChannelOf.inv_iff.1 (hchans ch (List.mem_of_getElem? hc))
  constructor
  · intro sat fields stamp rx hmem
    obtain ⟨k, ev, rx', new, hkeeps, -, hdecoded, hout, hnew⟩ := pushStep_event hstep rfl (by simp) hmem
    obtain ⟨f, hthree, hev, -, -, rfl⟩ := asm_ephemerisReady hout hnew
    obtain ⟨cls, d, hcls, rfl⟩ := hdecoded _ _ hev
    cases hcls
    rw [hkeeps.ephHave] at hthree
    rw [hkeeps.eph]
    obtain ⟨hnames, htb⟩ := ephRecord_names hft heph hthree d
    exact ⟨.of_eq hnames, htb⟩
  · intro sat nA fields stamp rx hmem
    obtain ⟨k, ev, rx', new, -, hkeeps, hdecoded, hout, hnew⟩ := pushStep_event hstep rfl (by simp) hmem
    obtain ⟨id, f, hev, hodd, hwaits, hsame, -, -, rfl, rfl⟩ := asm_almanacReady hout hnew
    obtain ⟨cls, d, hcls, rfl⟩ := hdecoded _ _ hev
    obtain rfl : FieldClass.odd = cls := Option.some.inj (hodd.symm.trans hcls)
    rw [hkeeps.almPend] at hwaits
    rw [hkeeps.almNA] at hsame ⊢
    rw [hkeeps.alm]
    obtain ⟨hnames, hnA⟩ := almRecord_names hft halm hwaits hsame
    exact ⟨.of_eq hnames, hnA⟩

end Sys2Proof.Machine
end

section
/-! PROOFS. No rule reads an element that holds no value (R13, R37). -/

namespace Sys2Proof.Machine

variable {TS Sat : Type}

/-! ### Two views that agree on what holds a value -/

/-- Two channels agree on the synchroniser's elements that hold a value (R20, R25). -/
structure SyncSame (a b : ChannelOf TS Sat) : Prop where
  winN : a.winN = b.winN
  win : ∀ i, i < 30 → i < a.winN → a.win.getLsbD i = b.win.getLsbD i
  winTs : ∀ i (h : i < 30), 30 - a.winN ≤ i → a.winTs[i] = b.winTs[i]
  sync : a.sync = b.sync
  pol : a.pol = b.pol
  bitcnt : a.bitcnt = b.bitcnt
  miss : a.miss = b.miss
  buf : a.sync = .synced → ∀ q, q ≤ a.bitcnt → rsBit a.buf q = rsBit b.buf q
  bufTs : a.sync = .synced → 1 ≤ a.bitcnt → a.bufTs = b.bufTs

/-- A view with the elements that may hold no value taken from another one: TimeState, the synchroniser's elements,
and the id and the `n_A` of the almanac partial. -/
def LocalOf.hide (l k : LocalOf TS Sat) : LocalOf TS Sat :=
  { l with time := k.time, ch := { l.ch.withSync k.ch with almId := k.ch.almId, almNA := k.ch.almNA } }

/-- Two views agree on what the string pipeline may read: all that always holds a value, TimeState while it is valid,
and the almanac's id and `n_A` while a half waits (R18, R28). -/
structure AsmSame (l m : LocalOf TS Sat) : Prop where
  eq : l.hide m = m
  time : TimeState.Same l.time m.time
  half : l.ch.almPend = true → l.ch.almId = m.ch.almId ∧ l.ch.almNA = m.ch.almNA

/-- Two views agree on every element that holds a value. -/
structure LocalOf.Same (l m : LocalOf TS Sat) : Prop where
  sync : SyncSame l.ch m.ch
  asm : AsmSame l m

/-- To prove something of a view that agrees with `l`, prove it of `l` with its hidden elements replaced. -/
theorem AsmSame.elim {P : LocalOf TS Sat → Prop} {l m : LocalOf TS Sat} (h : AsmSame l m)
    (hP : ∀ k : LocalOf TS Sat, TimeState.Same l.time k.time →
      (l.ch.almPend = true → l.ch.almId = k.ch.almId ∧ l.ch.almNA = k.ch.almNA) → P (l.hide k)) : P m :=
  h.eq ▸ hP m h.time h.half

/-- Channels that agree on what holds a value, in views that agree on the rest, make views that agree. -/
theorem LocalOf.same_of_channel {l m : LocalOf TS Sat} (hcfg : l.cfg = m.cfg) (htime : TimeState.Same l.time m.time)
    (hout : l.out = m.out) (h : l.ch.Same m.ch) : l.Same m := by
  obtain ⟨hsat, hwinN, hwin, hwinTs, hsync, hpol, hbitcnt, hmiss, hbuf, hbufTs, hhave, heph, hpend, hhalf, halm, h1, h2,
    h3, h4⟩ := h
  refine ⟨⟨hwinN, hwin, hwinTs, hsync, hpol, hbitcnt, hmiss, hbuf, hbufTs⟩, ?_, htime, hhalf⟩
  simp only [LocalOf.hide, ChannelOf.withSync, hcfg, hout, hsat, hhave, heph, hpend, halm, h1, h2, h3, h4]

/-- Views that agree have channels that agree. -/
theorem LocalOf.Same.channel {l m : LocalOf TS Sat} (h : l.Same m) : l.ch.Same m.ch := by
  refine h.asm.elim (P := fun m => SyncSame l.ch m.ch → l.ch.Same m.ch) (fun k _ hhalf hsync => ?_) h.sync
  obtain ⟨hwinN, hwin, hwinTs, hsync, hpol, hbitcnt, hmiss, hbuf, hbufTs⟩ := hsync
  exact ⟨rfl, hwinN, hwin, hwinTs, hsync, hpol, hbitcnt, hmiss, hbuf, hbufTs, rfl, rfl, rfl, hhalf, rfl, rfl, rfl, rfl,
    rfl⟩

/-- To prove that a rule keeps two views in agreement, prove it of `l` and of `l` with its hidden elements replaced. -/
theorem AsmSame.map {F : LocalOf TS Sat → LocalOf TS Sat} {l m : LocalOf TS Sat} (h : AsmSame l m)
    (hF : ∀ k : LocalOf TS Sat, TimeState.Same l.time k.time →
      (l.ch.almPend = true → l.ch.almId = k.ch.almId ∧ l.ch.almNA = k.ch.almNA) → AsmSame (F l) (F (l.hide k))) :
    AsmSame (F l) (F m) :=
  h.elim (P := fun m => AsmSame (F l) (F m)) hF

/-! ### The string pipeline -/

theorem TimeState.Same.refl (t : TimeState) : TimeState.Same t t := ⟨rfl, fun _ => rfl⟩

/-- The resolver reads TimeState only while it is valid (R18, R167). -/
theorem resolve_same {a b : TimeState} (h : TimeState.Same a b) (epoch0 : Rat → Rat) (sod : Rat) (ref : TimeRef) :
    resolve epoch0 a sod ref = resolve epoch0 b sod ref := by
  obtain ⟨hvalid, heq⟩ := h
  cases ha : a.valid with
  | false => rw [resolve_invalid ha, resolve_invalid (hvalid ▸ ha)]
  | true => rw [heq ha]

section Pipeline

variable {l m : LocalOf TS Sat}

theorem AsmSame.cfg (h : AsmSame l m) : l.cfg = m.cfg :=
  h.elim (P := fun m => l.cfg = m.cfg) fun _ _ _ => rfl

theorem AsmSame.out (h : AsmSame l m) : l.out = m.out :=
  h.elim (P := fun m => l.out = m.out) fun _ _ _ => rfl

theorem AsmSame.sat (h : AsmSame l m) : l.ch.sat = m.ch.sat :=
  h.elim (P := fun m => l.ch.sat = m.ch.sat) fun _ _ _ => rfl

theorem AsmSame.ephHave (h : AsmSame l m) : l.ch.ephHave = m.ch.ephHave :=
  h.elim (P := fun m => l.ch.ephHave = m.ch.ephHave) fun _ _ _ => rfl

theorem raise_asmSame (e : ErrOf Sat) (h : AsmSame l m) : AsmSame (l.raise e) (m.raise e) :=
  h.map fun _ htime hhalf => by cases e <;> exact ⟨rfl, htime, hhalf⟩

theorem ephMerge_asmSame (k : Nat) (f : FieldMap) (h : AsmSame l m) : AsmSame (ephMerge k f l) (ephMerge k f m) :=
  h.map fun _ htime hhalf => ⟨rfl, htime, hhalf⟩

theorem ephDiscard_asmSame (h : AsmSame l m) : AsmSame (ephDiscard l) (ephDiscard m) :=
  h.map fun _ htime hhalf => ⟨rfl, htime, hhalf⟩

theorem ephStart_asmSame (f : FieldMap) (h : AsmSame l m) : AsmSame (ephStart f l) (ephStart f m) :=
  h.map fun _ htime hhalf => ⟨rfl, htime, hhalf⟩

/-- A record is stamped by the resolver, which reads TimeState only while it is valid. -/
theorem ephCommit_asmSame (ts : TS) (h : AsmSame l m) : AsmSame (ephCommit ts l) (ephCommit ts m) :=
  h.map fun k htime hhalf => by
    refine ⟨?_, htime, hhalf⟩
    simp only [ephCommit_eq, LocalOf.hide, ChannelOf.withSync, resolve_same htime]

theorem ephStep_asmSame (ev : AsmEvent) (ts : TS) (h : AsmSame l m) :
    AsmSame (ephStep ev ts l) (ephStep ev ts m) := by
  unfold ephStep
  simp only [← h.ephHave]
  cases ev.next? (ephCount l.ch.ephHave) with
  | some f =>
    by_cases h4 : ephCount l.ch.ephHave + 1 = 4
    · simp only [h4, if_true]
      exact ephCommit_asmSame ts (ephMerge_asmSame _ f h)
    · simp only [h4, if_false]
      exact ephMerge_asmSame _ f h
  | none =>
    have hended : AsmSame (if 1 ≤ ephCount l.ch.ephHave then ephDiscard l else l)
        (if 1 ≤ ephCount l.ch.ephHave then ephDiscard m else m) := by
      split
      · exact ephDiscard_asmSame h
      · exact h
    cases ev.first? with
    | some f => exact ephStart_asmSame f hended
    | none => exact hended

theorem timeStep_asmSame (ev : AsmEvent) (h : AsmSame l m) : AsmSame (timeStep ev l) (timeStep ev m) := by
  cases ev with
  | void => exact h
  | str id f =>
    by_cases h5 : id = 5
    · simp only [timeStep, h5, if_true]
      exact h.map fun _ _ hhalf => ⟨rfl, .refl _, hhalf⟩
    · simp only [timeStep, h5, if_false]
      exact h

theorem almEven_asmSame (id : Nat) (f : FieldMap) (h : AsmSame l m) : AsmSame (almEven id f l) (almEven id f m) :=
  h.map fun _ htime _ => by
    rw [almEven_eq, almEven_eq]
    exact ⟨rfl, htime, fun _ => ⟨rfl, rfl⟩⟩

/-- An odd string reads the `n_A` of the almanac partial only while a half waits (R28, R136). -/
theorem almOdd_asmSame (f : FieldMap) (ts : TS) (h : AsmSame l m) : AsmSame (almOdd f ts l) (almOdd f ts m) := by
  refine h.map fun k htime hhalf => ?_
  obtain ⟨hpend, hrun⟩ | ⟨hpend, hsame, hrun⟩ | ⟨hpend, hother, hrun⟩ := almOdd_cases f ts l <;> rw [hrun]
  · rw [almOdd_alone f ts (l := l.hide k) hpend]
    exact ⟨rfl, htime, hhalf⟩
  · obtain ⟨-, hnA⟩ := hhalf hpend
    rw [almOdd_pair ts (l := l.hide k) hpend (hsame.trans hnA)]
    refine ⟨?_, htime, fun hsome => by cases hsome⟩
    simp only [LocalOf.hide, ChannelOf.withSync, resolve_same htime, hnA]
  · obtain ⟨-, hnA⟩ := hhalf hpend
    rw [almOdd_mismatch ts (l := l.hide k) hpend fun hsame => hother (hsame.trans hnA.symm)]
    exact ⟨rfl, htime, fun hsome => by cases hsome⟩

theorem almStep_asmSame (ev : AsmEvent) (ts : TS) (h : AsmSame l m) :
    AsmSame (almStep ev ts l) (almStep ev ts m) := by
  unfold almStep
  split
  · split
    · exact almEven_asmSame _ _ h
    · exact almOdd_asmSame _ ts h
    · exact h
  · exact h

theorem asm_asmSame (ev : AsmEvent) (ts : TS) (h : AsmSame l m) : AsmSame (asm ev ts l) (asm ev ts m) :=
  almStep_asmSame ev ts (timeStep_asmSame ev (ephStep_asmSame ev ts h))

/-- The gate reads the bits and the parameters, and its signal the tag. -/
theorem strGate_asmSame {d : DataWord} {ts : TS} {accepted : LocalOf TS Sat → LocalOf TS Sat} (h : AsmSame l m)
    (haccepted : AsmSame (accepted l) (accepted m)) :
    AsmSame (strGate d ts accepted l) (strGate d ts accepted m) := by
  cases hgate : hammingAccept l.cfg.ht d with
  | true => rwa [strGate_accept hgate, strGate_accept (h.cfg ▸ hgate)]
  | false =>
    rw [strGate_reject hgate, strGate_reject (h.cfg ▸ hgate), h.sat]
    exact asm_asmSame _ ts (raise_asmSame _ h)

theorem stringDone_asmSame (d : DataWord) (ts : TS) (h : AsmSame l m) :
    AsmSame (stringDone d ts l) (stringDone d ts m) := by
  have hunknown : AsmSame (asm .void ts (l.raise (.unknownStringId l.ch.sat 0)))
      (asm .void ts (m.raise (.unknownStringId m.ch.sat 0))) := by
    rw [h.sat]
    exact asm_asmSame _ ts (raise_asmSame _ h)
  have hstring : ∀ id cls, AsmSame (asm (.str id (extract l.cfg.ft cls d)) ts l)
      (asm (.str id (extract m.cfg.ft cls d)) ts m) := by
    intro id cls
    rw [h.cfg]
    exact asm_asmSame _ ts h
  unfold stringDone
  split
  case h_16 => exact strGate_asmSame h hunknown
  all_goals exact strGate_asmSame h (hstring _ _)

end Pipeline

/-! ### The synchroniser -/

theorem SyncSame.of_keepsSync {l l' m m' : LocalOf TS Sat} (hl : l.KeepsSync l') (hm : m.KeepsSync m')
    (h : SyncSame l.ch m.ch) : SyncSame l'.ch m'.ch := by
  obtain ⟨hwinN, hwin, hwinTs, hsync, hpol, hbitcnt, hmiss, hbuf, hbufTs⟩ := h
  constructor <;> simp only [hl.winN, hl.win, hl.winTs, hl.sync, hl.pol, hl.bitcnt, hl.miss, hl.buf, hl.bufTs, hm.winN,
    hm.win, hm.winTs, hm.sync, hm.pol, hm.bitcnt, hm.miss, hm.buf, hm.bufTs] <;> assumption

/-- A string runs the same from views that agree. -/
theorem stringDone_same (d : DataWord) (ts : TS) {l m : LocalOf TS Sat} (h : l.Same m) :
    (stringDone d ts l).Same (stringDone d ts m) :=
  ⟨h.sync.of_keepsSync (stringDone_keepsSync d ts l) (stringDone_keepsSync d ts m), stringDone_asmSame d ts h.asm⟩

theorem getElem_shiftTs (v : Vector TS 30) (ts : TS) {i : Nat} (hi : i < 30) :
    (shiftTs v ts)[i] = if h : i < 29 then v[i + 1] else ts := by
  rw [shiftTs, Vector.getElem_push]
  split
  · simp only [Vector.tail_eq_cast_extract, Vector.getElem_cast, Vector.getElem_extract, Nat.add_comm 1 i]
  · rfl

/-- The window shift keeps views in agreement: the new place is filled by the same bit (R20, R91). -/
theorem windowShift_same (b : Bit) (ts : TS) {l m : LocalOf TS Sat} (h : l.Same m) :
    (windowShift b ts l).Same (windowShift b ts m) := by
  obtain ⟨⟨hwinN, hwin, hwinTs, hsync, hpol, hbitcnt, hmiss, hbuf, hbufTs⟩, hasm⟩ := h
  refine ⟨⟨?winN, ?win, ?winTs, hsync, hpol, hbitcnt, hmiss, hbuf, hbufTs⟩,
    hasm.map fun _ htime hhalf => ⟨rfl, htime, hhalf⟩⟩
  case winN => simp only [windowShift, hwinN]
  case win =>
    intro i hi hn
    have hn : i < min 30 (l.ch.winN + 1) := hn
    simp only [windowShift, getLsbD_shiftBits _ _ _ hi]
    split
    · rfl
    · exact hwin (i - 1) (by omega) (by omega)
  case winTs =>
    intro i hi hn
    have hn : 30 - min 30 (l.ch.winN + 1) ≤ i := hn
    simp only [windowShift, getElem_shiftTs _ _ hi]
    split
    · exact hwinTs (i + 1) (by omega) (by omega)
    · rfl

/-- Full windows of views that agree are the same. -/
theorem SyncSame.win_eq {a b : ChannelOf TS Sat} (h : SyncSame a b) (hfull : a.winN = 30) : a.win = b.win :=
  BitVec.eq_of_getLsbD_eq fun i hi => h.win i hi (by omega)

theorem rsBit_zero (rs : RawBits) : rsBit rs 0 = false := if_neg (by decide)

/-- An acquisition makes all of the mark part hold a value (R95). -/
theorem acquire_same (p : Bit) {l m : LocalOf TS Sat} (h : l.Same m) (hfull : l.ch.winN = 30) :
    (acquire p l).Same (acquire p m) := by
  have hmark := h.sync.win_eq hfull
  obtain ⟨⟨hwinN, hwin, hwinTs, -, -, -, -, -, -⟩, hasm⟩ := h
  refine ⟨⟨hwinN, hwin, hwinTs, rfl, rfl, rfl, rfl, fun _ q hq => ?_, fun _ _ => hwinTs 0 (by decide) (by omega)⟩,
    hasm.map fun _ htime _ => ⟨rfl, htime, fun hpend => by cases hpend⟩⟩
  have hq : q ≤ 30 := hq
  simp only [acquire, asmReset, rsBit_memWriteMark, hmark]
  split
  · rfl
  · obtain rfl : q = 0 := by omega
    rw [rsBit_zero, rsBit_zero]

section Stored

variable {l m : LocalOf TS Sat} (b : Bit) (ts : TS)

/-- After a bit is stored, the block agrees up to it (R96). -/
theorem rsBit_stored (h : SyncSame l.ch m.ch) (hsync : l.ch.sync = .synced) {q : Nat} (hq : q ≤ l.ch.bitcnt + 1) :
    rsBit (memWrite l.ch.buf (l.ch.bitcnt + 1) (b ^^ l.ch.pol)) q =
      rsBit (memWrite m.ch.buf (m.ch.bitcnt + 1) (b ^^ m.ch.pol)) q := by
  rw [← h.bitcnt, ← h.pol, rsBit_memWrite, rsBit_memWrite]
  split
  · rfl
  · next hother =>
    by_cases hlast : q = l.ch.bitcnt + 1
    · have hrange : ¬ (1 ≤ q ∧ q ≤ 115) := fun hrange => hother ⟨hlast, hlast ▸ hrange⟩
      rw [rsBit, rsBit, if_neg hrange, if_neg hrange]
    · exact h.buf hsync q (by omega)

/-- Storing a bit and counting it keeps views in agreement. -/
theorem storeBit_same (h : l.Same m) (hsync : l.ch.sync = .synced) :
    ((storeBit (l.ch.bitcnt + 1) b ts l).atBit (l.ch.bitcnt + 1)).Same
      ((storeBit (m.ch.bitcnt + 1) b ts m).atBit (m.ch.bitcnt + 1)) := by
  have hstored : ∀ q, q ≤ l.ch.bitcnt + 1 → _ := fun q => rsBit_stored b h.sync hsync
  obtain ⟨⟨hwinN, hwin, hwinTs, hsame, hpol, hbitcnt, hmiss, -, hbufTs⟩, hasm⟩ := h
  refine ⟨⟨hwinN, hwin, hwinTs, hsame, hpol, congrArg (· + 1) hbitcnt, hmiss, fun _ => hstored, fun _ _ => ?_⟩, ?_⟩
  · simp only [storeBit, ← hbitcnt]
    split
    · rfl
    · exact hbufTs hsync (by omega)
  · exact hasm.map (F := fun l => (storeBit (l.ch.bitcnt + 1) b ts l).atBit (l.ch.bitcnt + 1))
      fun _ htime hhalf => ⟨rfl, htime, hhalf⟩

end Stored

theorem rawMark_congr {a b : RawBits} (h : ∀ q, q ≤ 30 → rsBit a q = rsBit b q) : rawMark a = rawMark b := by
  apply BitVec.eq_of_getLsbD_eq
  intro i hi
  have hmark : markBit (rawMark a) (30 - i) = markBit (rawMark b) (30 - i) := by
    rw [markBit_rawMark _ _ (by omega), markBit_rawMark _ _ (by omega), h _ (by omega)]
  rwa [markBit, markBit, show 30 - (30 - i) = i by omega] at hmark

/-- What a PUSH does to a view, it does to every view that agrees with it, and they agree afterwards. -/
theorem pushStep_same {b : Bit} {ts : TS} {l m l' : LocalOf TS Sat} (h : l.Same m) (hstep : PushStep b ts l l') :
    ∃ m', PushStep b ts m m' ∧ l'.Same m' := by
  have hcfg := h.asm.cfg
  have hshift := windowShift_same b ts h
  have hstored := fun hsync => storeBit_same b ts hshift hsync
  have hpos : m.ch.bitcnt = l.ch.bitcnt := h.sync.bitcnt.symm
  have hwindow : min 30 (l.ch.winN + 1) = 30 → shiftBits l.ch.win b = shiftBits m.ch.win b := hshift.sync.win_eq
  have hmark : l.ch.sync = .synced → l.ch.bitcnt = 29 →
      (MarkHit l.cfg (memWrite l.ch.buf 30 (b ^^ l.ch.pol)) ↔ MarkHit m.cfg (memWrite m.ch.buf 30 (b ^^ m.ch.pol))) := by
    intro hsync h29
    have hbits := fun q => rsBit_stored b h.sync hsync (q := q)
    rw [hpos, h29] at hbits
    rw [MarkHit, MarkHit, hcfg, rawMark_congr hbits]
  cases hstep with
  | searches hsync hnone =>
    rw [h.sync.winN] at hnone hwindow
    refine ⟨_, .searches (h.sync.sync ▸ hsync) ?_, ?_⟩
    · rintro ⟨hfull, q, hq⟩
      exact hnone ⟨hfull, q, by rw [hcfg, hwindow hfull]; exact hq⟩
    · obtain ⟨⟨hwinN, hwin, hwinTs, -, hpol, hbitcnt, hmiss, -, -⟩, hasm⟩ := hshift
      exact ⟨⟨hwinN, hwin, hwinTs, rfl, hpol, hbitcnt, hmiss, fun hs => (by cases hs), fun hs => (by cases hs)⟩,
        hasm.map fun _ htime hhalf => ⟨rfl, htime, hhalf⟩⟩
  | acquires p hsync hfull hfound =>
    refine ⟨_, .acquires p (h.sync.sync ▸ hsync) (h.sync.winN ▸ hfull) ?_, acquire_same p hshift hfull⟩
    rw [← hcfg, ← hwindow hfull]
    exact hfound
  | stores hsync h29 h114 =>
    exact ⟨_, .stores (h.sync.sync ▸ hsync) (hpos ▸ h29) (hpos ▸ h114), hstored hsync⟩
  | passes miss hsync h29 hmiss =>
    rw [hmark hsync h29, h.sync.miss] at hmiss
    refine ⟨_, .passes miss (h.sync.sync ▸ hsync) (hpos.trans h29) hmiss, ?_⟩
    have hstored := hstored hsync
    rw [show (windowShift b ts l).ch.bitcnt = 29 from h29,
      show (windowShift b ts m).ch.bitcnt = 29 from hpos.trans h29] at hstored
    obtain ⟨⟨hwinN, hwin, hwinTs, hsame, hpol, hbitcnt, -, hbuf, hbufTs⟩, hasm⟩ := hstored
    exact ⟨⟨hwinN, hwin, hwinTs, hsame, hpol, hbitcnt, rfl, hbuf, hbufTs⟩,
      hasm.map (F := LocalOf.withMiss miss) fun _ htime hhalf => ⟨rfl, htime, hhalf⟩⟩
  | loses hsync h29 hno hmiss =>
    refine ⟨_, .loses (h.sync.sync ▸ hsync) (hpos.trans h29) (mt (hmark hsync h29).2 hno) (h.sync.miss ▸ hmiss), ?_⟩
    obtain ⟨⟨hwinN, hwin, hwinTs, -, hpol, -, -, -, -⟩, hasm⟩ := hshift
    exact ⟨⟨hwinN, hwin, hwinTs, rfl, hpol, rfl, rfl, fun hs => (by cases hs), fun hs => (by cases hs)⟩,
      hasm.map (F := fun l => lose (storeBit 30 b ts l)) fun _ htime hhalf => ⟨rfl, htime, hhalf⟩⟩
  | runs hsync h114 =>
    have hbits := fun q => rsBit_stored b h.sync hsync (q := q)
    rw [hpos, h114] at hbits
    have hblock : memWrite l.ch.buf 115 (b ^^ l.ch.pol) = memWrite m.ch.buf 115 (b ^^ m.ch.pol) :=
      rs_ext fun q _ hq => hbits q hq
    have hbufTs : l.ch.bufTs = m.ch.bufTs := h.sync.bufTs hsync (by omega)
    refine ⟨_, .runs (h.sync.sync ▸ hsync) (hpos.trans h114), ?_⟩
    rw [hblock, hbufTs]
    obtain ⟨⟨hwinN, hwin, hwinTs, hsame, hpol, -, hmiss, -, -⟩, hasm⟩ := hshift
    refine stringDone_same _ _ ⟨⟨hwinN, hwin, hwinTs, hsame, hpol, rfl, hmiss, fun _ q hq => ?_, fun _ hone => ?_⟩,
      hasm.map (F := fun l => (storeBit 115 b ts l).atBit 0) fun _ htime hhalf => ⟨rfl, htime, hhalf⟩⟩
    · obtain rfl : q = 0 := Nat.le_zero.1 hq
      rw [rsBit_zero, rsBit_zero]
    · have hone : 1 ≤ 0 := hone
      omega

/-! ### The machine -/

/-- Channels that agree stand at the same places. -/
theorem forall₂_getElem? {R : Channel → Channel → Prop} {as bs : List Channel} (h : List.Forall₂ R as bs) (c : Nat) :
    (as[c]? = none ∧ bs[c]? = none) ∨ ∃ a b, as[c]? = some a ∧ bs[c]? = some b ∧ R a b := by
  obtain ⟨hlength, hget⟩ := List.forall₂_iff_get.1 h
  by_cases hc : c < as.length
  · exact .inr ⟨_, _, List.getElem?_eq_getElem hc, List.getElem?_eq_getElem (hlength ▸ hc), hget c hc (hlength ▸ hc)⟩
  · exact .inl ⟨List.getElem?_eq_none (Nat.le_of_not_lt hc), List.getElem?_eq_none (hlength ▸ Nat.le_of_not_lt hc)⟩

/-- Writing channels that agree at the same place keeps the lists in agreement. -/
theorem forall₂_set {R : Channel → Channel → Prop} {as bs : List Channel} (h : List.Forall₂ R as bs) {a b : Channel}
    (hab : R a b) (c : Nat) : List.Forall₂ R (as.set c a) (bs.set c b) := by
  induction h generalizing c with
  | nil => exact .nil
  | cons hhead htail ih =>
    cases c with
    | zero => exact .cons hab htail
    | succ c => exact .cons hhead (ih c)

/-- A rule that keeps views in agreement keeps the states in agreement. -/
theorem onChannel_same {F : Local → Local} (hF : ∀ l m, l.Same m → (F l).Same (F m)) (c : Nat) {s t : State}
    (h : s.Same t) : OutcomesAgree State.Same (onChannel c F s) (onChannel c F t) := by
  obtain ⟨hcfg, hstarted, htime, hchans, hout, hops⟩ := h
  cases hs : s.started with
  | false =>
    rw [onChannel_notStarted hs, onChannel_notStarted (hstarted ▸ hs)]
    rfl
  | true =>
    obtain ⟨ha, hb⟩ | ⟨a, b, ha, hb, hab⟩ := forall₂_getElem? hchans c
    · rw [onChannel_missing hs ha, onChannel_missing (hstarted ▸ hs) hb]
      rfl
    · rw [onChannel_eq hs ha, onChannel_eq (hstarted ▸ hs) hb]
      have hview := hF _ _ (LocalOf.same_of_channel (l := s.view a) (m := t.view b) hcfg htime hout hab)
      exact ⟨hcfg, hstarted, hview.asm.time, forall₂_set hchans hview.channel c, hview.asm.out, hops⟩

theorem ChannelOf.Same.refl (ch : ChannelOf TS Sat) : ch.Same ch :=
  ⟨rfl, rfl, fun _ _ _ => rfl, fun _ _ _ => rfl, rfl, rfl, rfl, rfl, fun _ _ _ => rfl, fun _ _ => rfl, rfl, rfl, rfl,
    fun _ => ⟨rfl, rfl⟩, rfl, rfl, rfl, rfl, rfl⟩

/-- An operation begins with an empty output list (R12), whatever the latest step put out. -/
theorem LocalOf.Same.emptyOut {l m : LocalOf TS Sat} (h : l.Same m) :
    LocalOf.Same { l with out := [] } { m with out := [] } :=
  ⟨h.sync, h.asm.map (F := fun l => { l with out := [] }) fun _ htime hhalf => ⟨rfl, htime, hhalf⟩⟩

/-- Settles O53: RESET and CH_RESET write fresh channels, QUERY reads TimeState through the resolver, and PUSH and the
strings keep views in agreement. -/
theorem noRuleReadsAnElementWithoutValue : Obligations.NoRuleReadsAnElementWithoutValue := by
  intro s t i h
  cases instrKind i with
  | reset sats =>
    obtain ⟨hcfg, -, -, -, -, hops⟩ := h
    rw [exec_reset, exec_reset]
    by_cases hwf : s.cfg.WF
    · by_cases hlen : sats.length = s.cfg.nCh
      · rw [execReset_eq hwf hlen, execReset_eq (hcfg ▸ hwf) (hcfg ▸ hlen)]
        exact ⟨hcfg, rfl, .refl _, List.forall₂_same.2 fun ch _ => .refl ch, rfl, hops⟩
      · rw [execReset_illFormed hwf hlen, execReset_illFormed (hcfg ▸ hwf) (hcfg ▸ hlen)]
        rfl
    · rw [execReset_badParameters sats hwf, execReset_badParameters sats (hcfg ▸ hwf)]
      rfl
  | query sod ref =>
    obtain ⟨hcfg, hstarted, htime, hchans, -, hops⟩ := h
    rw [exec_query, exec_query]
    cases hs : s.started with
    | false =>
      rw [execQuery_notStarted sod ref hs, execQuery_notStarted sod ref (hstarted ▸ hs)]
      rfl
    | true =>
      have hanswer : resolve s.cfg.epoch0.eval s.time sod ref = resolve t.cfg.epoch0.eval t.time sod ref := by
        rw [hcfg, resolve_same htime]
      rw [execQuery_eq sod ref hs, execQuery_eq sod ref (hstarted ▸ hs)]
      exact ⟨hcfg, hstarted, htime, hchans, by simp only [hanswer], hops⟩
  | chReset c sat =>
    rw [exec_chReset, exec_chReset]
    exact onChannel_same (fun l m hlm => LocalOf.same_of_channel
      (l := { l with ch := Channel.afterReset sat, out := [] }) (m := { m with ch := Channel.afterReset sat, out := [] })
      hlm.asm.cfg hlm.asm.time rfl (.refl _)) c h
  | push c b ts =>
    rw [exec_push, exec_push]
    refine onChannel_same (fun l m hlm => ?_) c h
    obtain ⟨m', hstep, hsame⟩ := pushStep_same hlm.emptyOut (pushStep b ts { l with out := [] })
    rw [hstep.eq]
    exact hsame
  | string id c p ts =>
    rw [exec_string, exec_string]
    exact onChannel_same (fun l m hlm => stringDone_same _ ts hlm) c h

end Sys2Proof.Machine
end
